-- ==== Sys2Proof/Word.lean ====
section
/-! DEFINITION. The widths of the machine's words and the type of a register number. -/

namespace Sys2Proof

/-- A byte: a general register (rule R20), a byte of data memory (R63), an I/O register (R65). -/
abbrev Byte := BitVec 8

/-- A 16-bit word: a word of program memory (R67), a pointer register (R22), the stack pointer (R33). -/
abbrev Word := BitVec 16

/-- A program counter value, a word address. 22 bits is the widest the sources show (rules R6, R26). -/
abbrev PcWord := BitVec 22

/-- An I/O address, 0 to 63 (rule R65). -/
abbrev IoAddr := BitVec 6

/-- The number of a general register, 0 to 31 (rule R20). -/
abbrev Reg := Fin 32

end Sys2Proof
end

