-- ==== Sys2Proof/Config.lean ====
section
/-! DEFINITION. What one device of the family fixes (the parameters of rules R6 to R10 and R228) as
plain data, and the free values: constants without a body for what the spec leaves open. -/

namespace Sys2Proof

/-- The width of a data address: 16 bits, or 24 bits with a page register (rule R8). -/
inductive DataBits where
  /-- The data space fits one 64K-byte page. -/
  | b16
  /-- The page comes from RAMPX, RAMPY, RAMPZ. -/
  | b24
deriving DecidableEq, Repr, Inhabited

/-- The width of SP, 8 or 16 bits (rule R8). -/
inductive SpBits where
  | b8
  | b16
deriving DecidableEq, Repr, Inhabited

/-- What lies at data addresses below 0x0060 (rule R64, decision D7). -/
inductive DataMap where
  /-- The default: 0x0000 to 0x001F the general registers, 0x0020 to 0x005F the I/O space, in page 0. -/
  | registersAndIo
  /-- The alternative: every access below 0x0060 is refused. -/
  | refuseLow
deriving DecidableEq, Repr, Inhabited

/-- What SPM or ESPM does: the five operations of rule R226, and no operation at all, which only
a device whose choice the sources do not state can select (rule R229, SPMCR not armed). -/
inductive SpmOperation where
  /-- Operation i, erase a program-memory page. -/
  | erasePage
  /-- Operation ii, write a program-memory word. -/
  | writeWord
  /-- Operation iii, write the temporary page buffer. -/
  | fillBuffer
  /-- Operation iv, write the temporary page buffer to program memory. -/
  | writePage
  /-- Operation v, set the boot-loader lock bits. -/
  | setLockBits
  /-- No effect on program memory, TEMP or BLBITS. -/
  | nothing
deriving DecidableEq, Repr, Inhabited

/-- The facts of a device that describes its program-memory programmer instead of supplying a function:
with the conventions of log entries 8 to 10, 13, 26 and 27 they settle its `SpmOp` (rules R226 to R228). -/
structure SpmDevice where
  /-- Words in one page of program memory. -/
  pageWords : Nat
  /-- The device fills a temporary page buffer and programs a whole page at once;
  otherwise it writes program memory one word at a time (rule R226). -/
  buffered : Bool
  /-- The SPMCR value that selects operation v; the sources give none (rule R227). -/
  lockCode : Byte
deriving DecidableEq, Repr, Inhabited

/-- Where a device's `SpmOp` comes from (rules R9, R228). -/
inductive SpmSource where
  /-- The device gives none: the default `refuse(SPM not modelled)`. -/
  | absent
  /-- The device describes its programmer, and the model carries out the operations of rule R226. -/
  | facts (p : SpmDevice)
  /-- The device supplies its own function, the one that `Config.spmOp` holds for this number. -/
  | supplied (device : Nat)
deriving DecidableEq, Repr, Inhabited

/-- The description of the programmer, where the device gives one. -/
def SpmSource.described : SpmSource → Option SpmDevice
  | .absent => none
  | .facts p => some p
  | .supplied _ => none

/-- What a device's own `SpmOp` answers where it does not refuse: `(prog', hidden', spmcr')` of rule R228. -/
structure SpmAnswer where
  /-- `prog'`: the program words it sets, by word address; every other word is as it was. Where a word
  stands twice the first counts. -/
  prog : List (Nat × Word)
  /-- TEMP of `hidden'`, by byte offset. Where an offset stands twice the first counts. -/
  temp : List Host.Cell
  /-- BLBITS of `hidden'`. -/
  blbits : Word
  /-- `spmcr'`. -/
  spmcr : Byte
deriving DecidableEq, Repr, Inhabited

/-- One device of the family: every parameter of rules R6 to R10. -/
structure Device where
  /-- `PC_BITS` (R6). -/
  pcBits : Nat
  /-- `PROG_WORDS` (R7). -/
  progWords : Nat
  /-- `DATA_BITS` (R8). -/
  dataBits : DataBits
  /-- `RAMEND`, the last implemented SRAM address (R8). -/
  ramend : Nat
  /-- `DATA_MAP` (R8, R64). -/
  dataMap : DataMap
  /-- `SP_BITS` (R8). -/
  spBits : SpBits
  /-- `HAS_RAMPX` (R9). -/
  hasRampx : Bool
  /-- `HAS_RAMPY` (R9). -/
  hasRampy : Bool
  /-- `HAS_RAMPZ` (R9). -/
  hasRampz : Bool
  /-- `HAS_EIND` (R9). -/
  hasEind : Bool
  /-- `HAS_EICALL_EIJMP` (R9). -/
  hasEicallEijmp : Bool
  /-- `HAS_ELPM` (R9). -/
  hasElpm : Bool
  /-- `HAS_ESPM` (R9). -/
  hasEspm : Bool
  /-- `HAS_SPM` (R9). -/
  hasSpm : Bool
  /-- `HAS_MOVW` (R9). -/
  hasMovw : Bool
  /-- `HAS_MUL`: MULS, MULSU, FMUL, FMULS, FMULSU together (R9). -/
  hasMul : Bool
  /-- `IO_SREG` (R10). -/
  ioSreg : IoAddr
  /-- `IO_SPL` (R10). -/
  ioSpl : IoAddr
  /-- `IO_SPH` (R10). -/
  ioSph : IoAddr
  /-- `IO_RAMPX` (R10). -/
  ioRampx : IoAddr
  /-- `IO_RAMPY` (R10). -/
  ioRampy : IoAddr
  /-- `IO_RAMPZ` (R10). -/
  ioRampz : IoAddr
  /-- `IO_EIND` (R10). -/
  ioEind : IoAddr
  /-- `IO_SPMCR` (R10). -/
  ioSpmcr : IoAddr
  /-- What the device supplies for `SpmOp` (R9, R228). -/
  spm : SpmSource
deriving DecidableEq, Repr, Inhabited

/-- The first SRAM address of every device (rule R8). -/
abbrev sramStart : Nat := 0x60

/-- SPMCR exists on a device with SPM or ESPM. DEDUCED (log entry 12): rule R66 gives a core
register its I/O address "only when the device has the register". -/
def Device.hasSpmcr (d : Device) : Bool := d.hasSpm || d.hasEspm

/-- The eight I/O addresses of the core registers, which decision D4 makes pairwise distinct. -/
def Device.ioAddrs (d : Device) : List IoAddr :=
  [d.ioSreg, d.ioSpl, d.ioSph, d.ioRampx, d.ioRampy, d.ioRampz, d.ioEind, d.ioSpmcr]

/-- The largest number of data addresses a device can have: `DATA_BITS` bits of address. -/
def Device.dataSpan (d : Device) : Nat :=
  match d.dataBits with
  | .b16 => 0x10000
  | .b24 => 0x1000000

/-- The parameters agree with one another as rules R6 to R10 and decision D4 require. -/
abbrev Device.Valid (d : Device) : Prop :=
  ((1 ≤ d.pcBits ∧ d.pcBits ≤ 16) ∨ d.pcBits = 22) ∧
  (1 ≤ d.progWords ∧ d.progWords ≤ 2 ^ d.pcBits) ∧
  d.ramend < d.dataSpan ∧
  (d.dataBits = .b24 → d.hasRampx = true ∧ d.hasRampy = true) ∧
  (d.dataBits = .b24 ∨ d.hasElpm = true ∨ d.hasEspm = true → d.hasRampz = true) ∧
  (d.hasEind = true ↔ d.pcBits = 22) ∧
  (d.hasEicallEijmp = true ↔ d.pcBits = 22) ∧
  d.ioAddrs.Nodup ∧
  ∀ p ∈ d.spm.described, 1 ≤ p.pageWords ∧ p.lockCode ≠ 0x01 ∧ p.lockCode ≠ 0x03 ∧ p.lockCode ≠ 0x05

/-- The typical I/O addresses the spec lists (93_implementation_defined.md G6) on a device that has
every optional group and the largest memories the address widths allow. DESIGN CHOICE (log entry 1). -/
def Device.full : Device where
  pcBits := 22
  progWords := 0x400000
  dataBits := .b24
  ramend := 0xFFFFFF
  dataMap := .registersAndIo
  spBits := .b16
  hasRampx := true
  hasRampy := true
  hasRampz := true
  hasEind := true
  hasEicallEijmp := true
  hasElpm := true
  hasEspm := true
  hasSpm := true
  hasMovw := true
  hasMul := true
  ioSreg := 0x3F
  ioSpl := 0x3D
  ioSph := 0x3E
  ioRampx := 0x39
  ioRampy := 0x3A
  ioRampz := 0x3B
  ioEind := 0x3C
  ioSpmcr := 0x37
  spm := .facts { pageWords := 128, buffered := true, lockCode := 0x09 }

/-- The plain device of the spec's own test vectors (95_test_vectors.md, conventions): the DOC0
generation, no optional group. -/
def Device.plain : Device where
  pcBits := 16
  progWords := 0x1000
  dataBits := .b16
  ramend := 0x25F
  dataMap := .registersAndIo
  spBits := .b16
  hasRampx := false
  hasRampy := false
  hasRampz := false
  hasEind := false
  hasEicallEijmp := false
  hasElpm := false
  hasEspm := false
  hasSpm := false
  hasMovw := false
  hasMul := false
  ioSreg := 0x3F
  ioSpl := 0x3D
  ioSph := 0x3E
  ioRampx := 0x39
  ioRampy := 0x3A
  ioRampz := 0x3B
  ioEind := 0x3C
  ioSpmcr := 0x37
  spm := .absent

/-- FREE VALUE. The byte that the `n`-th free draw yields at the device register of I/O address `p`
(rule R66, decision D18: a read of a device register is a free draw of 8 bits). Log entry 6. -/
opaque Config.deviceByte : (p : IoAddr) → (n : Nat) → Byte

/-- FREE VALUE. What the SRAM byte at data address `a` holds until something writes it
(rules R41, R42: a free draw, never zero). Log entry 4. -/
opaque Config.sramPowerOn : (a : Nat) → Byte

/-- FREE VALUE. What LPM and ELPM read at program byte address `b` where the program image gives no
word (rules R42, R298). Log entry 5. -/
opaque Config.progPowerOn : (b : Nat) → Byte

/-- FREE VALUE. What byte `b` of the temporary page buffer holds until an SPM or ESPM fills it
(rules R40, R41). Log entry 11. -/
opaque Config.tempPowerOn : (b : Nat) → Byte

/-- FREE VALUE. SPMCR after the SPM or ESPM that takes draw `n`: the sources do not say whether the
enable clears itself (rule R227). Log entry 9. -/
opaque Config.spmcrAfter : (n : Nat) → Byte

/-- FREE VALUE. The operation that SPM or ESPM performs at draw `n` when SPMCR holds a value for
which the sources name none (rules R227, R229). Log entry 8. -/
opaque Config.spmSelect : (spmcr : Byte) → (n : Nat) → SpmOperation

/-- FREE VALUE. What program word `w` holds after draw `n` programs it while it is not erased: rule
R228 allows a write to erased locations only and states no result elsewhere. Log entry 10. -/
opaque Config.unerasedWord : (n : Nat) → (w : Nat) → Word

/-- FREE VALUE. `SpmOp` of the device with this number, a function that the device supplies (rules R9, R228,
decision D16): from SPMCR, the raw 24-bit address, R1:R0, program memory by byte address, TEMP and BLBITS to
the answer, or `none` where it refuses, as a device does that needs a wait or a re-enable step (decision
D20). Log entry 32. -/
opaque Config.spmOp : (device : Nat) → (spmcr : Byte) → (addr : BitVec 24) → (data : Word) →
  (prog temp : List Host.Cell) → (blbits : Word) → Option SpmAnswer

end Sys2Proof
end

