-- ==== Sys2Proof/Syntax.lean ====
section
/-! DEFINITION. The instructions: one constructor per row of spec/opcode_table.json, in the table's
order, with the operands in the order of the assembler syntax (rule R120). -/

namespace Sys2Proof

/-- The 44 instruction forms of rule R110. `d` is a destination register, `r` a source register, `k` a
data address, `K` an immediate byte, `q` a displacement, `p` an I/O address. -/
inductive Instr where
  /-- `MOV Rd,Rr` (R140). -/
  | mov (d r : Reg)
  /-- `LDS Rd,k` (R141). -/
  | lds (d : Reg) (k : Word)
  /-- `STS k,Rr` (R142). -/
  | sts (k : Word) (r : Reg)
  /-- `LDI Rd,K` (R143). -/
  | ldi (d : Reg) (K : Byte)
  /-- `LD Rd,X` (R154). -/
  | ldX (d : Reg)
  /-- `LD Rd,X+` (R155). -/
  | ldXInc (d : Reg)
  /-- `LD Rd,-X` (R156). -/
  | ldXDec (d : Reg)
  /-- `ST X,Rr` (R157). -/
  | stX (r : Reg)
  /-- `ST X+,Rr` (R158). -/
  | stXInc (r : Reg)
  /-- `ST -X,Rr` (R159). -/
  | stXDec (r : Reg)
  /-- `LD Rd,Y` (R160). -/
  | ldY (d : Reg)
  /-- `LD Rd,Y+` (R161). -/
  | ldYInc (d : Reg)
  /-- `LD Rd,-Y` (R162). -/
  | ldYDec (d : Reg)
  /-- `LDD Rd,Y+q` (R163). -/
  | lddY (d : Reg) (q : BitVec 6)
  /-- `ST Y,Rr` (R164). -/
  | stY (r : Reg)
  /-- `ST Y+,Rr` (R165). -/
  | stYInc (r : Reg)
  /-- `ST -Y,Rr` (R166). -/
  | stYDec (r : Reg)
  /-- `STD Y+q,Rr` (R167). -/
  | stdY (q : BitVec 6) (r : Reg)
  /-- `LD Rd,Z` (R168). -/
  | ldZ (d : Reg)
  /-- `LD Rd,Z+` (R169). -/
  | ldZInc (d : Reg)
  /-- `LD Rd,-Z` (R170). -/
  | ldZDec (d : Reg)
  /-- `LDD Rd,Z+q` (R171). -/
  | lddZ (d : Reg) (q : BitVec 6)
  /-- `ST Z,Rr` (R172). -/
  | stZ (r : Reg)
  /-- `ST Z+,Rr` (R173). -/
  | stZInc (r : Reg)
  /-- `ST -Z,Rr` (R174). -/
  | stZDec (r : Reg)
  /-- `STD Z+q,Rr` (R175). -/
  | stdZ (q : BitVec 6) (r : Reg)
  /-- `LPM` (R190). -/
  | lpm
  /-- `IN Rd,P` (R195). -/
  | inp (d : Reg) (p : IoAddr)
  /-- `OUT P,Rr` (R196). -/
  | out (p : IoAddr) (r : Reg)
  /-- `PUSH Rr` (R201). -/
  | push (r : Reg)
  /-- `POP Rd` (R202). -/
  | pop (d : Reg)
  /-- `EICALL` (R211). -/
  | eicall
  /-- `EIJMP` (R213). -/
  | eijmp
  /-- `ELPM`, form i (R221). -/
  | elpm
  /-- `ELPM Rd,Z`, form ii (R222). -/
  | elpmZ (d : Reg)
  /-- `ELPM Rd,Z+`, form iii (R223). -/
  | elpmZInc (d : Reg)
  /-- `ESPM` (R230). -/
  | espm
  /-- `FMUL Rd,Rr` (R241). -/
  | fmul (d r : Reg)
  /-- `FMULS Rd,Rr` (R242). -/
  | fmuls (d r : Reg)
  /-- `FMULSU Rd,Rr` (R243). -/
  | fmulsu (d r : Reg)
  /-- `MOVW Rd,Rr`, each operand the even register of its pair (R244). -/
  | movw (d r : Reg)
  /-- `MULS Rd,Rr` (R245). -/
  | muls (d r : Reg)
  /-- `MULSU Rd,Rr` (R246). -/
  | mulsu (d r : Reg)
  /-- `SPM` (R229). -/
  | spm
deriving DecidableEq, Repr, Inhabited

end Sys2Proof
end

