-- ==== Sys2Proof/Decode.lean ====
section
/-! DEFINITION. The encoding of 30_encoding.md: the byte order of a program word, the operand fields,
the opcode table as rows in the spec's order, the decoder, and the encoder written from the printed
bit patterns. -/

namespace Sys2Proof

/-! ### Byte order (rules R68, R69) -/

/-- The word of two bytes, the high byte first in the name as in `a:b` (rule R12). -/
def joinBytes (hi lo : Byte) : Word := hi ++ lo

/-- Bits 15:8 of a word. -/
def hiByte (w : Word) : Byte := w.extractLsb' 8 8

/-- Bits 7:0 of a word. -/
def loByte (w : Word) : Byte := w.extractLsb' 0 8

/-- A program word as bytes at rising byte addresses: low byte first (rule R68). -/
def bytesOfWord (w : Word) : List Byte := [loByte w, hiByte w]

/-- The words of a byte sequence, each low byte first; a last odd byte is no word. -/
def wordsOfBytes : List Byte → List Word
  | lo :: hi :: rest => joinBytes hi lo :: wordsOfBytes rest
  | [_] => []
  | [] => []

/-! ### Operand fields (rules R101 to R103) -/

/-- The register a 5-bit field numbers (rule R102). -/
def regOfBits (b : BitVec 5) : Reg := ⟨b.toNat, b.isLt⟩

/-- The 5-bit number of a register. -/
def bitsOfReg (d : Reg) : BitVec 5 := BitVec.ofNat 5 d.val

/-- The register field of REG5, RD5_RR5, REG5_K16, REG5_Q6 and REG5_P6: bits 8:4. -/
def fieldD (w : Word) : Reg := regOfBits (w.extractLsb' 4 5)

/-- The source register field of RD5_RR5: bit 9 above bits 3:0. -/
def fieldR (w : Word) : Reg := regOfBits (w.extractLsb' 9 1 ++ w.extractLsb' 0 4)

/-- The destination of RD4_K8 and of MULS: 16 plus bits 7:4. -/
def fieldD4 (w : Word) : Reg := regOfBits (1#1 ++ w.extractLsb' 4 4)

/-- The source of MULS: 16 plus bits 3:0. -/
def fieldR4 (w : Word) : Reg := regOfBits (1#1 ++ w.extractLsb' 0 4)

/-- The destination of RD3_RR3: 16 plus bits 6:4. -/
def fieldD3 (w : Word) : Reg := regOfBits (0b10#2 ++ w.extractLsb' 4 3)

/-- The source of RD3_RR3: 16 plus bits 2:0. -/
def fieldR3 (w : Word) : Reg := regOfBits (0b10#2 ++ w.extractLsb' 0 3)

/-- The destination pair of MOVW: twice bits 7:4. -/
def fieldDPair (w : Word) : Reg := regOfBits (w.extractLsb' 4 4 ++ 0#1)

/-- The source pair of MOVW: twice bits 3:0. -/
def fieldRPair (w : Word) : Reg := regOfBits (w.extractLsb' 0 4 ++ 0#1)

/-- The immediate of LDI: bits 11:8 above bits 3:0 (rule R103). -/
def fieldK (w : Word) : Byte := w.extractLsb' 8 4 ++ w.extractLsb' 0 4

/-- The displacement of LDD and STD: bit 13, bits 11:10, bits 2:0 (rule R103). -/
def fieldQ (w : Word) : BitVec 6 := w.extractLsb' 13 1 ++ w.extractLsb' 10 2 ++ w.extractLsb' 0 3

/-- The I/O address of IN and OUT: bits 10:9 above bits 3:0 (rule R103). -/
def fieldP (w : Word) : IoAddr := w.extractLsb' 9 2 ++ w.extractLsb' 0 4

/-! ### The opcode table (rule R110) -/

/-- One row of rule R110: a word `w` selects the row when `w &&& mask = pattern`; `build` makes
the instruction from the first word and, where there is one, the second. -/
structure OpcodeRow where
  mask : Word
  pattern : Word
  build : Word → Word → Instr

/-- The mask of LPM: bit 4 is a don't-care only on a device without ELPM (rule R116). -/
def lpmMask (hasElpm : Bool) : Word := if hasElpm then 0xFFFF else 0xFFEF

/-- Rows 1 to 10 of rule R110: direct transfer and the forms through X. -/
def rowsDirectX : List OpcodeRow :=
  [ ⟨0xFC00, 0x2C00, fun w _ => .mov (fieldD w) (fieldR w)⟩,
    ⟨0xFE0F, 0x9000, fun w k => .lds (fieldD w) k⟩,
    ⟨0xFE0F, 0x9200, fun w k => .sts k (fieldD w)⟩,
    ⟨0xF000, 0xE000, fun w _ => .ldi (fieldD4 w) (fieldK w)⟩,
    ⟨0xFE0F, 0x900C, fun w _ => .ldX (fieldD w)⟩,
    ⟨0xFE0F, 0x900D, fun w _ => .ldXInc (fieldD w)⟩,
    ⟨0xFE0F, 0x900E, fun w _ => .ldXDec (fieldD w)⟩,
    ⟨0xFE0F, 0x920C, fun w _ => .stX (fieldD w)⟩,
    ⟨0xFE0F, 0x920D, fun w _ => .stXInc (fieldD w)⟩,
    ⟨0xFE0F, 0x920E, fun w _ => .stXDec (fieldD w)⟩ ]

/-- Rows 11 to 18: the forms through Y. The q = 0 rows stand first, as in the table, so the more
specific mask is taken (rule R113). -/
def rowsY : List OpcodeRow :=
  [ ⟨0xFE0F, 0x8008, fun w _ => .ldY (fieldD w)⟩,
    ⟨0xFE0F, 0x9009, fun w _ => .ldYInc (fieldD w)⟩,
    ⟨0xFE0F, 0x900A, fun w _ => .ldYDec (fieldD w)⟩,
    ⟨0xD208, 0x8008, fun w _ => .lddY (fieldD w) (fieldQ w)⟩,
    ⟨0xFE0F, 0x8208, fun w _ => .stY (fieldD w)⟩,
    ⟨0xFE0F, 0x9209, fun w _ => .stYInc (fieldD w)⟩,
    ⟨0xFE0F, 0x920A, fun w _ => .stYDec (fieldD w)⟩,
    ⟨0xD208, 0x8208, fun w _ => .stdY (fieldQ w) (fieldD w)⟩ ]

/-- Rows 19 to 26: the forms through Z. -/
def rowsZ : List OpcodeRow :=
  [ ⟨0xFE0F, 0x8000, fun w _ => .ldZ (fieldD w)⟩,
    ⟨0xFE0F, 0x9001, fun w _ => .ldZInc (fieldD w)⟩,
    ⟨0xFE0F, 0x9002, fun w _ => .ldZDec (fieldD w)⟩,
    ⟨0xD208, 0x8000, fun w _ => .lddZ (fieldD w) (fieldQ w)⟩,
    ⟨0xFE0F, 0x8200, fun w _ => .stZ (fieldD w)⟩,
    ⟨0xFE0F, 0x9201, fun w _ => .stZInc (fieldD w)⟩,
    ⟨0xFE0F, 0x9202, fun w _ => .stZDec (fieldD w)⟩,
    ⟨0xD208, 0x8200, fun w _ => .stdZ (fieldQ w) (fieldD w)⟩ ]

/-- Rows 27 to 37: program memory, I/O, stack, extended jump and call. -/
def rowsSystem (hasElpm : Bool) : List OpcodeRow :=
  [ ⟨lpmMask hasElpm, 0x95C8, fun _ _ => .lpm⟩,
    ⟨0xF800, 0xB000, fun w _ => .inp (fieldD w) (fieldP w)⟩,
    ⟨0xF800, 0xB800, fun w _ => .out (fieldP w) (fieldD w)⟩,
    ⟨0xFE0F, 0x920F, fun w _ => .push (fieldD w)⟩,
    ⟨0xFE0F, 0x900F, fun w _ => .pop (fieldD w)⟩,
    ⟨0xFFFF, 0x9519, fun _ _ => .eicall⟩,
    ⟨0xFFFF, 0x9419, fun _ _ => .eijmp⟩,
    ⟨0xFFFF, 0x95D8, fun _ _ => .elpm⟩,
    ⟨0xFE0F, 0x9006, fun w _ => .elpmZ (fieldD w)⟩,
    ⟨0xFE0F, 0x9007, fun w _ => .elpmZInc (fieldD w)⟩,
    ⟨0xFFFF, 0x95F8, fun _ _ => .espm⟩ ]

/-- Rows 38 to 44: the multiplies, MOVW and SPM. -/
def rowsMultiply : List OpcodeRow :=
  [ ⟨0xFF88, 0x0308, fun w _ => .fmul (fieldD3 w) (fieldR3 w)⟩,
    ⟨0xFF88, 0x0380, fun w _ => .fmuls (fieldD3 w) (fieldR3 w)⟩,
    ⟨0xFF88, 0x0388, fun w _ => .fmulsu (fieldD3 w) (fieldR3 w)⟩,
    ⟨0xFF00, 0x0100, fun w _ => .movw (fieldDPair w) (fieldRPair w)⟩,
    ⟨0xFF00, 0x0200, fun w _ => .muls (fieldD4 w) (fieldR4 w)⟩,
    ⟨0xFF88, 0x0300, fun w _ => .mulsu (fieldD3 w) (fieldR3 w)⟩,
    ⟨0xFFFF, 0x95E8, fun _ _ => .spm⟩ ]

/-- The opcode table of rule R110 in its own order; the presence of ELPM decides the word 0x95D8. -/
def opcodeRows (hasElpm : Bool) : List OpcodeRow :=
  rowsDirectX ++ rowsY ++ rowsZ ++ rowsSystem hasElpm ++ rowsMultiply

/-! ### The decoder -/

/-- Why a sequence of words is no instruction. -/
inductive DecodeError where
  /-- The first word matches no row of the opcode table (rule R117). -/
  | unlisted (w : Word)
  /-- There is no first word, or the second word of LDS or STS is missing. -/
  | truncated
deriving DecidableEq, Repr

/-- The length of an instruction, from its first word alone (rule R100). -/
def isTwoWord (w : Word) : Bool := w &&& 0xFC0F == 0x9000

/-- The row a first word selects: the first of the table that matches (rules R110, R113). -/
def rowOf (hasElpm : Bool) (w : Word) : Option OpcodeRow :=
  (opcodeRows hasElpm).find? fun row => w &&& row.mask == row.pattern

/-- Decode the words of a program: the first instruction and the words after it. -/
def decodeWords (hasElpm : Bool) : List Word → Except DecodeError (Instr × List Word)
  | [] => .error .truncated
  | w :: rest =>
    match rowOf hasElpm w with
    | none => .error (.unlisted w)
    | some row =>
      if isTwoWord w then
        match rest with
        | [] => .error .truncated
        | k :: rest' => .ok (row.build w k, rest')
      else .ok (row.build w 0, rest)

/-- Decode bytes as program memory holds them, low byte of each word first. -/
def decodeBytes (hasElpm : Bool) (bytes : List Byte) : Except DecodeError (Instr × List Word) :=
  decodeWords hasElpm (wordsOfBytes bytes)

/-- The `n` lowest bytes of a number, lowest first. -/
def bytesOfNat : (n : Nat) → (w : Nat) → List Byte
  | 0, _ => []
  | n + 1, w => BitVec.ofNat 8 w :: bytesOfNat n (w / 256)

/-- The four bytes at which the longest instruction lies, for the instruction whose low `nbits` bits
are those of `w` and whose other bits are 0. -/
def tableBytes (nbits w : Nat) : List Byte := bytesOfNat 4 (w % 2 ^ nbits)

/-- The instruction the decoder reads from the bits of an opcode-table row, on a device that has
ELPM, as the device of `State.reset` does. -/
def decodeTableWord (nbits w : Nat) : Option Instr :=
  match decodeBytes true (tableBytes nbits w) with
  | .ok (i, _) => some i
  | .error _ => none

/-! ### The encoder -/

/-- RD5_RR5: `oooo oord dddd rrrr`. -/
def encodeRd5Rr5 (op : BitVec 6) (d r : Reg) : Word :=
  op ++ (bitsOfReg r).extractLsb' 4 1 ++ bitsOfReg d ++ (bitsOfReg r).extractLsb' 0 4

/-- RD4_K8: `oooo KKKK dddd KKKK`. -/
def encodeRd4K8 (op : BitVec 4) (d : Reg) (K : Byte) : Word :=
  op ++ K.extractLsb' 4 4 ++ (bitsOfReg d).extractLsb' 0 4 ++ K.extractLsb' 0 4

/-- REG5: `oooo oooR RRRR oooo`. -/
def encodeReg5 (op : BitVec 7) (d : Reg) (low : BitVec 4) : Word := op ++ bitsOfReg d ++ low

/-- REG5_Q6: `10q0 qqsR RRRR yqqq`, `s` 0 for a load and 1 for a store, `y` 1 for Y and 0 for Z. -/
def encodeReg5Q6 (s : BitVec 1) (y : BitVec 1) (d : Reg) (q : BitVec 6) : Word :=
  0b10#2 ++ q.extractLsb' 5 1 ++ 0#1 ++ q.extractLsb' 3 2 ++ s ++ bitsOfReg d ++ y ++
    q.extractLsb' 0 3

/-- REG5_P6: `1011 sPPR RRRR PPPP`, `s` 0 for IN and 1 for OUT. -/
def encodeReg5P6 (s : BitVec 1) (d : Reg) (p : IoAddr) : Word :=
  0b1011#4 ++ s ++ p.extractLsb' 4 2 ++ bitsOfReg d ++ p.extractLsb' 0 4

/-- RD4_RR4 with registers 16 to 31 (MULS): `0000 0010 dddd rrrr`. -/
def encodeRd4Rr4 (op : BitVec 8) (d r : Reg) : Word :=
  op ++ (bitsOfReg d).extractLsb' 0 4 ++ (bitsOfReg r).extractLsb' 0 4

/-- RD4_RR4 with even registers (MOVW): `0000 0001 dddd rrrr`, each field half the register number. -/
def encodeRd4Rr4Pair (op : BitVec 8) (d r : Reg) : Word :=
  op ++ (bitsOfReg d).extractLsb' 1 4 ++ (bitsOfReg r).extractLsb' 1 4

/-- RD3_RR3: `0000 0011 oddd orrr`. -/
def encodeRd3Rr3 (o7 o3 : BitVec 1) (d r : Reg) : Word :=
  0b00000011#8 ++ o7 ++ (bitsOfReg d).extractLsb' 0 3 ++ o3 ++ (bitsOfReg r).extractLsb' 0 3

/-- The words of a well-formed instruction (rule R110), the first word first. An operand outside its
range (rule R123) has no encoding; its excess bits are dropped here. -/
def encode : Instr → List Word
  | .mov d r => [encodeRd5Rr5 0b001011 d r]
  | .lds d k => [encodeReg5 0b1001000 d 0b0000, k]
  | .sts k r => [encodeReg5 0b1001001 r 0b0000, k]
  | .ldi d K => [encodeRd4K8 0b1110 d K]
  | .ldX d => [encodeReg5 0b1001000 d 0b1100]
  | .ldXInc d => [encodeReg5 0b1001000 d 0b1101]
  | .ldXDec d => [encodeReg5 0b1001000 d 0b1110]
  | .stX r => [encodeReg5 0b1001001 r 0b1100]
  | .stXInc r => [encodeReg5 0b1001001 r 0b1101]
  | .stXDec r => [encodeReg5 0b1001001 r 0b1110]
  | .ldY d => [encodeReg5 0b1000000 d 0b1000]
  | .ldYInc d => [encodeReg5 0b1001000 d 0b1001]
  | .ldYDec d => [encodeReg5 0b1001000 d 0b1010]
  | .lddY d q => [encodeReg5Q6 0 1 d q]
  | .stY r => [encodeReg5 0b1000001 r 0b1000]
  | .stYInc r => [encodeReg5 0b1001001 r 0b1001]
  | .stYDec r => [encodeReg5 0b1001001 r 0b1010]
  | .stdY q r => [encodeReg5Q6 1 1 r q]
  | .ldZ d => [encodeReg5 0b1000000 d 0b0000]
  | .ldZInc d => [encodeReg5 0b1001000 d 0b0001]
  | .ldZDec d => [encodeReg5 0b1001000 d 0b0010]
  | .lddZ d q => [encodeReg5Q6 0 0 d q]
  | .stZ r => [encodeReg5 0b1000001 r 0b0000]
  | .stZInc r => [encodeReg5 0b1001001 r 0b0001]
  | .stZDec r => [encodeReg5 0b1001001 r 0b0010]
  | .stdZ q r => [encodeReg5Q6 1 0 r q]
  | .lpm => [0b1001010111001000]
  | .inp d p => [encodeReg5P6 0 d p]
  | .out p r => [encodeReg5P6 1 r p]
  | .push r => [encodeReg5 0b1001001 r 0b1111]
  | .pop d => [encodeReg5 0b1001000 d 0b1111]
  | .eicall => [0b1001010100011001]
  | .eijmp => [0b1001010000011001]
  | .elpm => [0b1001010111011000]
  | .elpmZ d => [encodeReg5 0b1001000 d 0b0110]
  | .elpmZInc d => [encodeReg5 0b1001000 d 0b0111]
  | .espm => [0b1001010111111000]
  | .fmul d r => [encodeRd3Rr3 0 1 d r]
  | .fmuls d r => [encodeRd3Rr3 1 0 d r]
  | .fmulsu d r => [encodeRd3Rr3 1 1 d r]
  | .movw d r => [encodeRd4Rr4Pair 0b00000001 d r]
  | .muls d r => [encodeRd4Rr4 0b00000010 d r]
  | .mulsu d r => [encodeRd3Rr3 0 0 d r]
  | .spm => [0b1001010111101000]

/-- The one instruction the decoder answers where two rows share a word: the displacement forms with
q = 0 are the plain forms (rules R113, R122), every other instruction is itself. -/
def Instr.canonical : Instr → Instr
  | .lddY d q => if q = 0 then .ldY d else .lddY d q
  | .stdY q r => if q = 0 then .stY r else .stdY q r
  | .lddZ d q => if q = 0 then .ldZ d else .lddZ d q
  | .stdZ q r => if q = 0 then .stZ r else .stdZ q r
  | i => i

end Sys2Proof
end

