-- ==== Sys2Proof/Machine/DeviceMap.lean ====
section
/-! DEFINITION. What the parameters of a device settle: how wide PC and SP are, what lies at an I/O
address and at a data address, and which operation an SPMCR value selects. -/

namespace Sys2Proof

/-! ### Widths -/

/-- A program counter value: a word address modulo `2^PC_BITS` (R28, decision D8). -/
def Device.pcOf (d : Device) (n : Nat) : PcWord := BitVec.ofNat 22 (n % 2 ^ d.pcBits)

/-- A value of SP: modulo `2^SP_BITS` (R200). -/
def Device.spOf (d : Device) (v : Word) : Word :=
  match d.spBits with
  | .b8 => v &&& 0x00FF
  | .b16 => v

/-- EICALL and EIJMP exist on a device with a 22-bit PC that has them (R6, R9, R118). -/
def Device.hasExtendedJump (d : Device) : Bool := d.hasEicallEijmp && d.pcBits == 22

/-! ### The I/O space (rules R36, R66) -/

/-- The core registers that have an I/O address (R36). -/
inductive CoreReg where
  | sreg
  | spl
  | sph
  | rampx
  | rampy
  | rampz
  | eind
  | spmcr
deriving DecidableEq, Repr

/-- The core register at an I/O address, each only when the device has the register; `none` is a device
register (R66). -/
def Device.coreAt (d : Device) (p : IoAddr) : Option CoreReg :=
  if p = d.ioSreg then some .sreg
  else if p = d.ioSpl then some .spl
  else if p = d.ioSph ∧ d.spBits = .b16 then some .sph
  else if p = d.ioRampx ∧ d.hasRampx = true then some .rampx
  else if p = d.ioRampy ∧ d.hasRampy = true then some .rampy
  else if p = d.ioRampz ∧ d.hasRampz = true then some .rampz
  else if p = d.ioEind ∧ d.hasEind = true then some .eind
  else if p = d.ioSpmcr ∧ d.hasSpmcr = true then some .spmcr
  else none

/-! ### The data space (rules R62 to R64) -/

/-- What lies at a full data address. -/
inductive DataPlace where
  | reg (i : Reg)
  | io (p : IoAddr)
  | sram
  | absent
deriving DecidableEq, Repr

/-- `DATA_MAP` and the SRAM range applied to a full data address (R63, R64). -/
def Device.place (d : Device) (a : Nat) : DataPlace :=
  if h : a < 32 then
    match d.dataMap with
    | .registersAndIo => .reg ⟨a, h⟩
    | .refuseLow => .absent
  else if a < sramStart then
    match d.dataMap with
    | .registersAndIo => .io (BitVec.ofNat 6 (a - 32))
    | .refuseLow => .absent
  else if a ≤ d.ramend then .sram
  else .absent

/-- `DataAddr(page, a)` (R62): the page counts only on a device with `DATA_BITS = 24`. -/
def Device.dataAddr (d : Device) (page : Byte) (a : Word) : Nat :=
  match d.dataBits with
  | .b16 => a.toNat
  | .b24 => page.toNat * 0x10000 + a.toNat

/-! ### The program-memory programmer (rules R226, R227) -/

/-- The operation an SPMCR value selects, where the sources name one: 0x03 erases a page, 0x01 stores
R1:R0 (in the buffer where there is one), 0x05 writes the buffered page, and the device's own code sets
the lock bits (R227; 93_implementation_defined.md U3). DEDUCED (log entry 26). The value alone counts:
whether an arming survives the instructions between the OUT and the SPM or ESPM is not in source (R227,
R296), and here it does, for any number of them. DESIGN CHOICE (log entry 31). -/
def SpmDevice.select (p : SpmDevice) (spmcr : Byte) : Option SpmOperation :=
  if spmcr = 0x03 then some .erasePage
  else if spmcr = 0x01 then some (if p.buffered then .fillBuffer else .writeWord)
  else if spmcr = 0x05 ∧ p.buffered = true then some .writePage
  else if spmcr = p.lockCode then some .setLockBits
  else none

/-- The selected operation uses the address in program memory; filling the buffer and setting the lock
bits do not (R226). -/
def SpmDevice.addressesProgram (p : SpmDevice) (spmcr : Byte) : Bool :=
  match p.select spmcr with
  | some .fillBuffer => false
  | some .setLockBits => false
  | some .nothing => false
  | some .erasePage => true
  | some .writeWord => true
  | some .writePage => true
  | none => true

/-- The operation performed: the selected one, or a free choice where the sources name none. -/
def SpmDevice.operation (p : SpmDevice) (spmcr : Byte) (n : Nat) : SpmOperation :=
  match p.select spmcr with
  | some op => op
  | none => Config.spmSelect spmcr n

/-- The first word of the page that holds word `w`. -/
def SpmDevice.pageBase (p : SpmDevice) (w : Nat) : Nat := w / p.pageWords * p.pageWords

end Sys2Proof
end

