-- ==== Sys2Proof/Machine/State.lean ====
section
/-! DEFINITION. The state of the machine as plain data, the ways a step can stop, and the state after
reset. Every field's docstring names the rule of the spec that gives the machine that piece of state. -/

namespace Sys2Proof.Machine

/-- A memory: (byte address, byte) pairs, addresses strictly rising. An address that is not listed holds
no value that anything has written. -/
abbrev Memory := List Host.Cell

/-- The canonical form of a memory: its addresses rise strictly. An unlisted address holds no value, so
no entry can equal what an unlisted address holds, and equal memories are equal data. -/
abbrev Memory.wf (m : Memory) : Prop := m.Pairwise fun a b => a.1 < b.1

/-- A write to a device register, which rule R66 records as an event carrying `P` and `v`. -/
structure IoWrite where
  /-- The I/O address `P`. -/
  port : IoAddr
  /-- The byte written. -/
  value : Byte
deriving DecidableEq, Repr

/-- Everything the spec gives the machine, and three fields of the model's own (`device`, `ioWrites`,
`draws`), which their docstrings mark as such. -/
structure State where
  /-- THE MODEL'S OWN. The parameters of the device (rules R6 to R10), which no step changes. -/
  device : Device
  /-- R0 to R31 (R20). -/
  regs : Vector Byte 32
  /-- The program counter, a word address of `PC_BITS` bits (R26). -/
  pc : PcWord
  /-- SREG, the flags I T H S V N Z C from bit 7 to bit 0 (R29). -/
  sreg : Byte
  /-- SP, of `SP_BITS` bits (R33). -/
  sp : Word
  /-- RAMPX (R34). -/
  rampx : Byte
  /-- RAMPY (R34). -/
  rampy : Byte
  /-- RAMPZ (R34). -/
  rampz : Byte
  /-- EIND (R35). -/
  eind : Byte
  /-- SPMCR (R35). -/
  spmcr : Byte
  /-- The data memory, SRAM bytes by full data address (R39, R63). -/
  data : Memory
  /-- The program memory by byte address, the low byte of word `w` at `2 * w` (R39, R68). -/
  prog : Memory
  /-- TEMP, the temporary page buffer, by byte offset within the page (R40). -/
  temp : Memory
  /-- BLBITS, the boot-loader lock bits, as the word that set them (R40). -/
  blbits : Word
  /-- THE MODEL'S OWN. The device-register writes recorded so far, oldest first (R66). -/
  ioWrites : List IoWrite
  /-- THE MODEL'S OWN. How many free draws have been taken: the next one is this number. -/
  draws : Nat
deriving DecidableEq, Repr

/-- The sources call the result undefined, and the run ends (rules R13, R261). All are safe: the model
stops where the chip goes on to a state nobody can predict. -/
inductive Fault where
  /-- Raised by `ELPM r30,Z+` and `ELPM r31,Z+` (R224). Safe. -/
  | elpmPointerDestination
  /-- Raised by a post-increment or pre-decrement load or store whose data register is a half of the
  pointer it uses (R153). Safe. -/
  | pointerIsDataRegister
deriving DecidableEq, Repr

/-- The spec gives the situation no meaning, and the run ends (rules R13, R261). All are safe: the model
stops where the chip does something the spec does not say. -/
inductive Refusal where
  /-- Raised by an arm of `exec` for an instruction without a meaning; no arm does. Safe. -/
  | notModelled (mnemonic : String)
  /-- Raised by `step` when the word at the program counter matches no row of the opcode table (R117).
  Safe. -/
  | instructionNotSpecified (w : Word)
  /-- Raised by an optional instruction on a device that lacks it (R118). Safe. -/
  | instructionNotPresent
  /-- Raised by `step` when a word of the instruction lies at or above `PROG_WORDS` (R28). Safe. -/
  | fetchOutsideProgramMemory
  /-- Raised by `step` when a word of the instruction is one the program image does not give
  (R298, decision D8). Safe. -/
  | fetchUnwritten
  /-- Raised by LPM and ELPM at a program address at or above `PROG_WORDS`, and by an SPM or ESPM that
  addresses program memory there (R68). Safe. -/
  | programAddressNotImplemented
  /-- Raised by a load, store, PUSH, POP or EICALL at a data address that `DATA_MAP` gives no
  meaning (R64). Safe. -/
  | dataAddressNotImplemented
  /-- Raised by a post-increment or pre-decrement store whose target byte is a register of the pointer
  it uses (R176). Safe. -/
  | storeOntoOwnPointer
  /-- Raised by SPM and ESPM on a device that supplies no `SpmOp` (R228). Safe. -/
  | spmNotModelled
  /-- Raised by SPM and ESPM where the `SpmOp` that the device supplies refuses (R228, decision D20). Safe. -/
  | spmRefused
deriving DecidableEq, Repr

/-- The machine right after reset. The pc is 0 (rule R41); the spec gives no other value, and log entry 2
names the ones below. The memories list nothing, so no byte of them has a value (R42). -/
def State.reset : State where
  device := Device.full
  regs := Vector.replicate 32 0
  pc := 0
  sreg := 0
  sp := 0
  rampx := 0
  rampy := 0
  rampz := 0
  eind := 0
  spmcr := 0
  data := []
  prog := []
  temp := []
  blbits := 0
  ioWrites := []
  draws := 0

end Sys2Proof.Machine
end

