-- ==== Sys2Proof/Machine/Ops.lean ====
section
/-! DEFINITION. The named operations over registers, the I/O space, the data space, the stack, program
memory and the program-memory programmer. The spec defines no exception, no trap entry and no return
from one (rules R260, R266, R267), so there is no operation that takes one. -/

namespace Sys2Proof.Machine

/-! ### Memories as sorted lists -/

/-- The byte a memory lists at an address. -/
def Memory.read : Memory → Nat → Option Byte
  | [], _ => none
  | (b, v) :: m, a => if b = a then some v else Memory.read m a

/-- Write one byte, keeping the addresses strictly rising. -/
def Memory.write : Memory → Nat → Byte → Memory
  | [], a, v => [(a, v)]
  | (b, u) :: m, a, v =>
    if a < b then (a, v) :: (b, u) :: m
    else if a = b then (a, v) :: m
    else (b, u) :: Memory.write m a v

/-- The memory that holds the listed cells; where an address stands twice the first counts. -/
def Memory.ofCells : List Host.Cell → Memory
  | [] => []
  | c :: cs => Memory.write (Memory.ofCells cs) c.1 c.2

/-- The 16-bit word a memory lists at word address `w`: both its bytes, low byte at `2 * w` (R68). -/
def Memory.readWord (m : Memory) (w : Nat) : Option Word :=
  match Memory.read m (2 * w), Memory.read m (2 * w + 1) with
  | some lo, some hi => some (joinBytes hi lo)
  | _, _ => none

/-- Write one 16-bit word at word address `w`, low byte first (R68). -/
def Memory.writeWord (m : Memory) (w : Nat) (v : Word) : Memory :=
  Memory.write (Memory.write m (2 * w) (loByte v)) (2 * w + 1) (hiByte v)

/-! ### General registers and the program counter -/

/-- `x[i]`, the value of a general register (R13, R20). -/
def State.reg (s : State) (i : Reg) : Byte := s.regs[i]

/-- `x[i] <- v` (R13). No register is hard-wired or read-only (R25). -/
def State.setReg (s : State) (i : Reg) (v : Byte) : State := { s with regs := s.regs.set i v }

/-- `x[i+1]:x[i] <- v`, the high byte in the odd register (R24). -/
def State.setPair (s : State) (i : Reg) (v : Word) : State :=
  (s.setReg (i + 1) (hiByte v)).setReg i (loByte v)

/-- `x[i+1]:x[i]` (R24). -/
def State.pair (s : State) (i : Reg) : Word := joinBytes (s.reg (i + 1)) (s.reg i)

/-- The word address `n` words after the current instruction's first (R27, R28). -/
def State.pcAfter (s : State) (n : Nat) : PcWord := s.device.pcOf (s.pc.toNat + n)

/-- `pc <- pc + n` (R27). -/
def State.advance (s : State) (n : Nat) : State := { s with pc := s.pcAfter n }

/-! ### The stack pointer -/

/-- `SP <- v`. -/
def State.setSp (s : State) (v : Word) : State := { s with sp := s.device.spOf v }

/-! ### The I/O space (rules R36, R65, R66) -/

/-- The byte a core register reads as (R36). -/
def State.coreReg (s : State) : CoreReg → Byte
  | .sreg => s.sreg
  | .spl => loByte s.sp
  | .sph => hiByte s.sp
  | .rampx => s.rampx
  | .rampy => s.rampy
  | .rampz => s.rampz
  | .eind => s.eind
  | .spmcr => s.spmcr

/-- Write a byte to a core register (R36): SREG takes all eight flags, SPL and SPH one half of SP. -/
def State.setCoreReg (s : State) (c : CoreReg) (v : Byte) : State :=
  match c with
  | .sreg => { s with sreg := v }
  | .spl => s.setSp (joinBytes (hiByte s.sp) v)
  | .sph => s.setSp (joinBytes v (loByte s.sp))
  | .rampx => { s with rampx := v }
  | .rampy => { s with rampy := v }
  | .rampz => { s with rampz := v }
  | .eind => { s with eind := v }
  | .spmcr => { s with spmcr := v }

/-- `IoRead(P)`: the byte and the state after. A device register yields a free draw (R66, D18). -/
def State.ioRead (s : State) (p : IoAddr) : Byte × State :=
  match s.device.coreAt p with
  | some c => (s.coreReg c, s)
  | none => (Config.deviceByte p s.draws, { s with draws := s.draws + 1 })

/-- `IoWrite(P, v)`. A write to a device register is recorded as an event and changes no core state
(R66, D18). -/
def State.ioWrite (s : State) (p : IoAddr) (v : Byte) : State :=
  match s.device.coreAt p with
  | some c => s.setCoreReg c v
  | none => { s with ioWrites := s.ioWrites ++ [{ port := p, value := v }] }

/-! ### The data space (rules R62 to R64) -/

/-- What the SRAM byte at a full data address holds: the last value written there, or the free value of a
byte that nothing has written (R63, R42). -/
def State.sramByte (s : State) (a : Nat) : Byte :=
  match Memory.read s.data a with
  | some v => v
  | none => Config.sramPowerOn a

/-- `MemRead(a, 1)`: the byte and the state after, or nothing where the address is not implemented
(R63, R64). -/
def State.dataRead (s : State) (a : Nat) : Option (Byte × State) :=
  match s.device.place a with
  | .reg i => some (s.reg i, s)
  | .io p => some (s.ioRead p)
  | .sram => some (s.sramByte a, s)
  | .absent => none

/-- `MemWrite(a, 1, v)`, or nothing where the address is not implemented (R63, R64). -/
def State.dataWrite (s : State) (a : Nat) (v : Byte) : Option State :=
  match s.device.place a with
  | .reg i => some (s.setReg i v)
  | .io p => some (s.ioWrite p v)
  | .sram => some { s with data := Memory.write s.data a v }
  | .absent => none

/-! ### The stack (rule R200) -/

/-- Push one byte: `MemWrite(zext(SP), 1, v); SP <- SP - 1`. -/
def State.pushByte (s : State) (v : Byte) : Option State :=
  match s.dataWrite s.sp.toNat v with
  | some s' => some (s'.setSp (s'.sp - 1))
  | none => none

/-- Pop one byte: `SP <- SP + 1; MemRead(zext(SP), 1)`. -/
def State.popByte (s : State) : Option (Byte × State) :=
  (s.setSp (s.sp + 1)).dataRead (s.setSp (s.sp + 1)).sp.toNat

/-- The three writes of rule R212 and `SP <- SP - 3`: low byte at SP, middle byte at SP - 1, high byte at
SP - 2. Nothing is written if any of the three addresses is not implemented (R265, D30). -/
def State.pushReturn (s : State) (ret : BitVec 24) : Option State :=
  match s.dataWrite s.sp.toNat (ret.extractLsb' 0 8) with
  | none => none
  | some s1 =>
    match s1.dataWrite (s1.device.spOf (s1.sp - 1)).toNat (ret.extractLsb' 8 8) with
    | none => none
    | some s2 =>
      match s2.dataWrite (s2.device.spOf (s2.sp - 2)).toNat (ret.extractLsb' 16 8) with
      | none => none
      | some s3 => some (s3.setSp (s3.sp - 3))

/-! ### Program memory (rules R28, R67, R68) -/

/-- `ProgByte(b)`, or nothing where the program address is not implemented (R68). A byte the program
image does not give is a free value (R42). -/
def State.progByte (s : State) (b : Nat) : Option Byte :=
  if b / 2 < s.device.progWords then
    match Memory.read s.prog b with
    | some v => some v
    | none => some (Config.progPowerOn b)
  else none

/-- Fetch one word of an instruction (R28, R298). -/
def State.fetchWord (s : State) (w : Nat) : Except Refusal Word :=
  if w < s.device.progWords then
    match Memory.readWord s.prog w with
    | some v => .ok v
    | none => .error .fetchUnwritten
  else .error .fetchOutsideProgramMemory

/-- Fetch the words of the instruction at the program counter: one, or two for LDS and STS (R67, R100). -/
def State.fetch (s : State) : Except Refusal (List Word) :=
  match s.fetchWord s.pc.toNat with
  | .error r => .error r
  | .ok w =>
    if isTwoWord w then
      match s.fetchWord (s.pcAfter 1).toNat with
      | .error r => .error r
      | .ok k => .ok [w, k]
    else .ok [w]

/-- Store bytes at rising program byte addresses from word address `w` on, one word at a time, the word
after the last address being word 0. -/
def State.storeWords (s : State) : (w : PcWord) → List Word → State
  | _, [] => s
  | w, v :: vs =>
    State.storeWords { s with prog := Memory.writeWord s.prog w.toNat v }
      (s.device.pcOf (w.toNat + 1)) vs

/-- The 24-bit program byte address RAMPZ:Z of ELPM and ESPM (R220, R230). -/
def extendedAddr (page : Byte) (z : Word) : BitVec 24 := page ++ z

/-! ### The program-memory programmer (rules R226 to R231) -/

/-- The word TEMP holds at word offset `i` of the page. -/
def State.tempWord (s : State) (i : Nat) : Word :=
  joinBytes ((Memory.read s.temp (2 * i + 1)).getD (Config.tempPowerOn (2 * i + 1)))
    ((Memory.read s.temp (2 * i)).getD (Config.tempPowerOn (2 * i)))

/-- What word `w` holds after it is programmed with `v`: `v` where the word is erased, a free value
elsewhere, since a write may only be applied to erased locations (R226, R228). -/
def State.programmed (s : State) (w : Nat) (v : Word) : Word :=
  if Memory.readWord s.prog w = some 0xFFFF then v else Config.unerasedWord s.draws w

/-- Program memory with the `n` words from `base` on, those of them that the device implements, set to
the values `value` gives their offsets. -/
def State.writePageWords (s : State) (base : Nat) (value : Nat → Word) : (n : Nat) → Memory
  | 0 => s.prog
  | n + 1 =>
    if base + n < s.device.progWords then
      Memory.writeWord (State.writePageWords s base value n) (base + n) (value n)
    else State.writePageWords s base value n

/-- Program memory after operation i: every word of the page is 0xFFFF (R226, R228). -/
def State.erasedPage (s : State) (p : SpmDevice) (w : Nat) : Memory :=
  s.writePageWords (p.pageBase w) (fun _ => 0xFFFF) p.pageWords

/-- Program memory after operation iv: every word of the page is programmed from TEMP (R226). -/
def State.writtenPage (s : State) (p : SpmDevice) (w : Nat) : Memory :=
  s.writePageWords (p.pageBase w) (fun i => s.programmed (p.pageBase w + i) (s.tempWord i)) p.pageWords

/-- The effect of one operation of rule R226 on program memory, TEMP and BLBITS; `w` is the word
address, `v` the data word R1:R0. -/
def State.spmApply (s : State) (p : SpmDevice) (op : SpmOperation) (w : Nat) (v : Word) : State :=
  match op with
  | .erasePage => { s with prog := s.erasedPage p w }
  | .writeWord => { s with prog := Memory.writeWord s.prog w (s.programmed w v) }
  | .fillBuffer => { s with temp := Memory.writeWord s.temp (w % p.pageWords) v }
  | .writePage => { s with prog := s.writtenPage p w }
  | .setLockBits => { s with blbits := v }
  | .nothing => s

/-- `SpmOp(SPMCR, addr, R1:R0, prog, hidden)` (R228) of a device that describes its programmer: the state
with the new program memory, TEMP, BLBITS and SPMCR, or nothing where the operation addresses program memory
that the device does not implement (R68). SPMCR after it is a free value (R227, log entry 9). SPMCR counts as
it stands, however many instructions lie between the OUT and this one, and no wait for an earlier SPM or ESPM
is asked for; the sources leave both open (R227, R296). DESIGN CHOICE (log entry 31). -/
def State.spmOp (s : State) (p : SpmDevice) (addr : BitVec 24) (v : Word) : Option State :=
  if p.addressesProgram s.spmcr = true ∧ s.device.progWords ≤ addr.toNat / 2 then none
  else
    some { s.spmApply p (p.operation s.spmcr s.draws) (addr.toNat / 2) v with
      spmcr := Config.spmcrAfter s.draws
      draws := s.draws + 1 }

/-- Program memory with the listed words, those of them that the device implements, set to what `value`
makes of each; where a word stands twice the first counts. -/
def State.writeWords (s : State) (value : Nat → Word → Word) : List (Nat × Word) → Memory
  | [] => s.prog
  | (w, v) :: us =>
    if w < s.device.progWords then Memory.writeWord (State.writeWords s value us) w (value w v)
    else State.writeWords s value us

/-- What word `w` holds after a device's own `SpmOp` sets it to `v`, as rule R228 binds every `SpmOp`: an
erase (SPMCR 0x03) leaves 0xFFFF, and a word or page write (0x01, 0x05) programs an erased word. -/
def State.suppliedWord (s : State) (w : Nat) (v : Word) : Word :=
  if s.spmcr = 0x03 then 0xFFFF
  else if s.spmcr = 0x01 ∨ s.spmcr = 0x05 then s.programmed w v
  else v

/-- The words the answer sets, and the addressed word where the operation is an erase (R228). -/
def State.suppliedWords (s : State) (addr : BitVec 24) (r : SpmAnswer) : List (Nat × Word) :=
  if s.spmcr = 0x03 then (addr.toNat / 2, 0xFFFF) :: r.prog else r.prog

/-- The state after a device's own `SpmOp` has answered (R228): nothing outside program memory, TEMP,
BLBITS and SPMCR changes. -/
def State.suppliedAnswer (s : State) (addr : BitVec 24) (r : SpmAnswer) : State :=
  { s with
    prog := s.writeWords s.suppliedWord (s.suppliedWords addr r)
    temp := Memory.ofCells r.temp
    blbits := r.blbits
    spmcr := r.spmcr
    draws := s.draws + 1 }

/-- `SpmOp` of a device that supplies its own (R228, decisions D16, D20). An erase or a page write (SPMCR
0x03, 0x05; 93_implementation_defined.md U3) of a word that is not implemented is refused (R68). -/
def State.suppliedOp (s : State) (device : Nat) (addr : BitVec 24) (v : Word) : Except Refusal State :=
  if (s.spmcr = 0x03 ∨ s.spmcr = 0x05) ∧ s.device.progWords ≤ addr.toNat / 2 then
    .error .programAddressNotImplemented
  else
    match Config.spmOp device s.spmcr addr v s.prog s.temp s.blbits with
    | some r => .ok (s.suppliedAnswer addr r)
    | none => .error .spmRefused

/-- What SPM and ESPM call (R228): the device's `SpmOp`, from wherever it comes. -/
def State.runSpmOp (s : State) (addr : BitVec 24) (v : Word) : Except Refusal State :=
  match s.device.spm with
  | .absent => .error .spmNotModelled
  | .facts p =>
    match s.spmOp p addr v with
    | some s' => .ok s'
    | none => .error .programAddressNotImplemented
  | .supplied n => s.suppliedOp n addr v

end Sys2Proof.Machine
end

