-- ==== Sys2Proof/Machine/Operands.lean ====
section
/-! DEFINITION. The operand forms: the pointers X, Y, Z and their four addressing modes (rules R150 to
R153, R176), as loads and stores shared by the 22 indirect forms, and the direct forms of LDS and STS. -/

namespace Sys2Proof.Machine

/-- What a step answers. -/
abbrev Result := Host.Outcome State Fault Refusal

/-! ### Pointers (rules R22, R23, R34) -/

/-- The three pointer registers. -/
inductive Pointer where
  | x
  | y
  | z
deriving DecidableEq, Repr

/-- The register that is the low half of a pointer (R22). -/
def Pointer.lo : Pointer → Reg
  | .x => 26
  | .y => 28
  | .z => 30

/-- The register that is the high half of a pointer (R22). -/
def Pointer.hi : Pointer → Reg
  | .x => 27
  | .y => 29
  | .z => 31

/-- The register is one of the pointer's two. -/
def Pointer.owns (p : Pointer) (d : Reg) : Bool := d == p.lo || d == p.hi

/-- The pointer view `x[hi]:x[lo]` (R22). -/
def State.ptr (s : State) (p : Pointer) : Word := joinBytes (s.reg p.hi) (s.reg p.lo)

/-- A write to the pointer view writes both halves (R23). -/
def State.setPtr (s : State) (p : Pointer) (v : Word) : State :=
  (s.setReg p.hi (hiByte v)).setReg p.lo (loByte v)

/-- The page register of a pointer (R34, R62). -/
def State.page (s : State) : Pointer → Byte
  | .x => s.rampx
  | .y => s.rampy
  | .z => s.rampz

/-- The full data address of in-page address `a` through a pointer (R62, R151). -/
def State.ptrAddr (s : State) (p : Pointer) (a : Word) : Nat := s.device.dataAddr (s.page p) a

/-- The full data address of the direct address of LDS and STS, whose page is RAMPZ (R62, R141). -/
def State.directAddr (s : State) (k : Word) : Nat := s.device.dataAddr s.rampz k

/-- The effective address of the unchanged (`q = 0`) and displacement modes: `P + zext_16(q)` modulo
2^16 (R151, R152). -/
def State.displaced (s : State) (p : Pointer) (q : BitVec 6) : Word := s.ptr p + q.setWidth 16

/-- The full address is one of the pointer's own registers (R176). -/
def ownTarget (d : Device) (p : Pointer) (a : Nat) : Bool :=
  d.place a == .reg p.lo || d.place a == .reg p.hi

/-! ### Loads -/

/-- `x[d] <- MemRead(a, 1); pc <- pc + n`, refused where the address is not implemented. -/
def loadFrom (a : Nat) (n : Nat) (d : Reg) (s : State) : Result :=
  match s.dataRead a with
  | some (v, s') => .next ((s'.setReg d v).advance n)
  | none => .refused .dataAddressNotImplemented

/-- A load through a pointer that it leaves unchanged, with displacement `q` (R151). -/
def loadDisp (p : Pointer) (q : BitVec 6) (d : Reg) (s : State) : Result :=
  loadFrom (s.ptrAddr p (s.displaced p q)) 1 d s

/-- `a <- P; x[d] <- MemRead(DataAddr(RAMPP, a), 1); P <- a + 1; pc <- pc + 1`, with the fault of rule
R153. -/
def loadInc (p : Pointer) (d : Reg) (s : State) : Result :=
  if p.owns d then .fault .pointerIsDataRegister
  else
    match s.dataRead (s.ptrAddr p (s.ptr p)) with
    | some (v, s') => .next (((s'.setReg d v).setPtr p (s.ptr p + 1)).advance 1)
    | none => .refused .dataAddressNotImplemented

/-- `a <- P - 1; P <- a; x[d] <- MemRead(DataAddr(RAMPP, a), 1); pc <- pc + 1`, with the fault of rule
R153. -/
def loadDec (p : Pointer) (d : Reg) (s : State) : Result :=
  if p.owns d then .fault .pointerIsDataRegister
  else loadFrom (s.ptrAddr p (s.ptr p - 1)) 1 d (s.setPtr p (s.ptr p - 1))

/-! ### Stores -/

/-- `MemWrite(a, 1, x[r]); pc <- pc + n`, refused where the address is not implemented. -/
def storeTo (a : Nat) (n : Nat) (r : Reg) (s : State) : Result :=
  match s.dataWrite a (s.reg r) with
  | some s' => .next (s'.advance n)
  | none => .refused .dataAddressNotImplemented

/-- A store through a pointer that it leaves unchanged, with displacement `q` (R151). -/
def storeDisp (p : Pointer) (q : BitVec 6) (r : Reg) (s : State) : Result :=
  storeTo (s.ptrAddr p (s.displaced p q)) 1 r s

/-- `a <- P; MemWrite(DataAddr(RAMPP, a), 1, x[r]); P <- a + 1; pc <- pc + 1`, with the fault of rule R153
and the refusal of rule R176. -/
def storeInc (p : Pointer) (r : Reg) (s : State) : Result :=
  if p.owns r then .fault .pointerIsDataRegister
  else if ownTarget s.device p (s.ptrAddr p (s.ptr p)) then .refused .storeOntoOwnPointer
  else
    match s.dataWrite (s.ptrAddr p (s.ptr p)) (s.reg r) with
    | some s' => .next ((s'.setPtr p (s.ptr p + 1)).advance 1)
    | none => .refused .dataAddressNotImplemented

/-- `a <- P - 1; P <- a; MemWrite(DataAddr(RAMPP, a), 1, x[r]); pc <- pc + 1`, with the fault of rule R153
and the refusal of rule R176. -/
def storeDec (p : Pointer) (r : Reg) (s : State) : Result :=
  if p.owns r then .fault .pointerIsDataRegister
  else if ownTarget s.device p (s.ptrAddr p (s.ptr p - 1)) then .refused .storeOntoOwnPointer
  else storeTo (s.ptrAddr p (s.ptr p - 1)) 1 r (s.setPtr p (s.ptr p - 1))

/-! ### Optional instructions (rules R9, R118) -/

/-- An instruction of an optional group: refused on a device that lacks it. -/
def ifPresent (present : Bool) (effect : Result) : Result :=
  if present then effect else .refused .instructionNotPresent

end Sys2Proof.Machine
end

