-- ==== Sys2Proof/Machine/Direct.lean ====
section
/-! DEFINITION. Direct data transfer: MOV, LDS, STS, LDI (40_direct_transfer.md). -/

namespace Sys2Proof.Machine

/-- R140: `x[d] <- x[r]; pc <- pc + 1`. -/
def execMov (d r : Reg) (s : State) : Result := .next ((s.setReg d (s.reg r)).advance 1)

/-- R141: `a <- DataAddr(RAMPZ, k); x[d] <- MemRead(a, 1); pc <- pc + 2`. -/
def execLds (d : Reg) (k : Word) (s : State) : Result := loadFrom (s.directAddr k) 2 d s

/-- R142: `a <- DataAddr(RAMPZ, k); MemWrite(a, 1, x[r]); pc <- pc + 2`. -/
def execSts (k : Word) (r : Reg) (s : State) : Result := storeTo (s.directAddr k) 2 r s

/-- R143: `x[d] <- K; pc <- pc + 1`. -/
def execLdi (d : Reg) (K : Byte) (s : State) : Result := .next ((s.setReg d K).advance 1)

end Sys2Proof.Machine
end

