-- ==== Sys2Proof/Machine/Indirect.lean ====
section
/-! DEFINITION. Indirect data transfer: LD, LDD, ST, STD through X, Y and Z (41_indirect_transfer.md). -/

namespace Sys2Proof.Machine

/-- R154, `LD Rd,X`. -/
def execLdX (d : Reg) (s : State) : Result := loadDisp .x 0 d s

/-- R155, `LD Rd,X+`. -/
def execLdXInc (d : Reg) (s : State) : Result := loadInc .x d s

/-- R156, `LD Rd,-X`. -/
def execLdXDec (d : Reg) (s : State) : Result := loadDec .x d s

/-- R157, `ST X,Rr`. -/
def execStX (r : Reg) (s : State) : Result := storeDisp .x 0 r s

/-- R158, `ST X+,Rr`. -/
def execStXInc (r : Reg) (s : State) : Result := storeInc .x r s

/-- R159, `ST -X,Rr`. -/
def execStXDec (r : Reg) (s : State) : Result := storeDec .x r s

/-- R160, `LD Rd,Y`. -/
def execLdY (d : Reg) (s : State) : Result := loadDisp .y 0 d s

/-- R161, `LD Rd,Y+`. -/
def execLdYInc (d : Reg) (s : State) : Result := loadInc .y d s

/-- R162, `LD Rd,-Y`. -/
def execLdYDec (d : Reg) (s : State) : Result := loadDec .y d s

/-- R163, `LDD Rd,Y+q`. -/
def execLddY (d : Reg) (q : BitVec 6) (s : State) : Result := loadDisp .y q d s

/-- R164, `ST Y,Rr`. -/
def execStY (r : Reg) (s : State) : Result := storeDisp .y 0 r s

/-- R165, `ST Y+,Rr`. -/
def execStYInc (r : Reg) (s : State) : Result := storeInc .y r s

/-- R166, `ST -Y,Rr`. -/
def execStYDec (r : Reg) (s : State) : Result := storeDec .y r s

/-- R167, `STD Y+q,Rr`. -/
def execStdY (q : BitVec 6) (r : Reg) (s : State) : Result := storeDisp .y q r s

/-- R168, `LD Rd,Z`. -/
def execLdZ (d : Reg) (s : State) : Result := loadDisp .z 0 d s

/-- R169, `LD Rd,Z+`. -/
def execLdZInc (d : Reg) (s : State) : Result := loadInc .z d s

/-- R170, `LD Rd,-Z`. -/
def execLdZDec (d : Reg) (s : State) : Result := loadDec .z d s

/-- R171, `LDD Rd,Z+q`. -/
def execLddZ (d : Reg) (q : BitVec 6) (s : State) : Result := loadDisp .z q d s

/-- R172, `ST Z,Rr`. -/
def execStZ (r : Reg) (s : State) : Result := storeDisp .z 0 r s

/-- R173, `ST Z+,Rr`. -/
def execStZInc (r : Reg) (s : State) : Result := storeInc .z r s

/-- R174, `ST -Z,Rr`. -/
def execStZDec (r : Reg) (s : State) : Result := storeDec .z r s

/-- R175, `STD Z+q,Rr`. -/
def execStdZ (q : BitVec 6) (r : Reg) (s : State) : Result := storeDisp .z q r s

end Sys2Proof.Machine
end

