-- ==== Sys2Proof/Machine/InputOutput.lean ====
section
/-! DEFINITION. I/O transfer: IN and OUT (43_io_transfer.md). -/

namespace Sys2Proof.Machine

/-- R195: `x[d] <- IoRead(P); pc <- pc + 1`. -/
def execIn (d : Reg) (p : IoAddr) (s : State) : Result :=
  .next (((s.ioRead p).2.setReg d (s.ioRead p).1).advance 1)

/-- R196: `IoWrite(P, x[r]); pc <- pc + 1`. -/
def execOut (p : IoAddr) (r : Reg) (s : State) : Result :=
  .next ((s.ioWrite p (s.reg r)).advance 1)

end Sys2Proof.Machine
end

