-- ==== Sys2Proof/Machine/Flags.lean ====
section
/-! DEFINITION. The status register's flags (rules R29 to R32) and the products of the multiplies
with their C and Z (rule R240). -/

namespace Sys2Proof.Machine

/-- The eight flags, in the order the sources list them (R29). -/
inductive Flag where
  | i
  | t
  | h
  | s
  | v
  | n
  | z
  | c
deriving DecidableEq, Repr

/-- The bit of SREG that holds a flag (R29, decision D3). -/
def Flag.bit : Flag → Nat
  | .i => 7
  | .t => 6
  | .h => 5
  | .s => 4
  | .v => 3
  | .n => 2
  | .z => 1
  | .c => 0

/-- The value of a flag. -/
def State.flag (s : State) (f : Flag) : Bool := s.sreg.getLsbD f.bit

/-- A status byte with one flag set to `b` and the others as they were. -/
def withFlag (r : Byte) (f : Flag) (b : Bool) : Byte :=
  if b then r ||| (1#8 <<< f.bit) else r &&& ~~~(1#8 <<< f.bit)

/-- `s(a) * s(b)` modulo 2^16: the product of MULS and FMULS (R240). -/
def productSigned (a b : Byte) : Word := BitVec.ofInt 16 (a.toInt * b.toInt)

/-- `s(a) * u(b)` modulo 2^16: the product of MULSU and FMULSU (R240). -/
def productSignedUnsigned (a b : Byte) : Word := BitVec.ofInt 16 (a.toInt * (b.toNat : Int))

/-- `u(a) * u(b)`: the product of FMUL (R240). -/
def productUnsigned (a b : Byte) : Word := BitVec.ofNat 16 (a.toNat * b.toNat)

/-- The status byte after a multiply with product `prod` and result `res`: C is bit 15 of the product,
Z says that the result is zero, the other six flags stay (R32, R240). -/
def multiplyFlags (r : Byte) (prod res : Word) : Byte :=
  withFlag (withFlag r .c (prod.getLsbD 15)) .z (res == 0)

/-- `x[1] <- res[15:8]; x[0] <- res[7:0]`, C from the product, Z from the result, `pc <- pc + 1` (R240). -/
def multiplyWrite (prod res : Word) (s : State) : State :=
  ({ s.setPair 0 res with sreg := multiplyFlags s.sreg prod res }).advance 1

end Sys2Proof.Machine
end

