-- ==== Sys2Proof/Machine/Multiply.lean ====
section
/-! DEFINITION. The multiplies and MOVW (47_multiply_movw.md). -/

namespace Sys2Proof.Machine

/-- An integer multiply: the result is the product (R240). -/
def multiplyInteger (prod : Word) (s : State) : Result :=
  ifPresent s.device.hasMul (.next (multiplyWrite prod prod s))

/-- A fractional multiply: the result is the product shifted left by one bit (R240). -/
def multiplyFraction (prod : Word) (s : State) : Result :=
  ifPresent s.device.hasMul (.next (multiplyWrite prod (prod <<< 1) s))

/-- R241, FMUL: unsigned times unsigned, shifted. -/
def execFmul (d r : Reg) (s : State) : Result :=
  multiplyFraction (productUnsigned (s.reg d) (s.reg r)) s

/-- R242, FMULS: signed times signed, shifted. -/
def execFmuls (d r : Reg) (s : State) : Result :=
  multiplyFraction (productSigned (s.reg d) (s.reg r)) s

/-- R243, FMULSU: signed times unsigned, shifted. -/
def execFmulsu (d r : Reg) (s : State) : Result :=
  multiplyFraction (productSignedUnsigned (s.reg d) (s.reg r)) s

/-- R244, MOVW: `x[d+1]:x[d] <- x[r+1]:x[r]; pc <- pc + 1`. -/
def execMovw (d r : Reg) (s : State) : Result :=
  ifPresent s.device.hasMovw (.next ((s.setPair d (s.pair r)).advance 1))

/-- R245, MULS: signed times signed. -/
def execMuls (d r : Reg) (s : State) : Result :=
  multiplyInteger (productSigned (s.reg d) (s.reg r)) s

/-- R246, MULSU: signed times unsigned. -/
def execMulsu (d r : Reg) (s : State) : Result :=
  multiplyInteger (productSignedUnsigned (s.reg d) (s.reg r)) s

end Sys2Proof.Machine
end

