-- ==== Sys2Proof/Machine/ProgramMemory.lean ====
section
/-! DEFINITION. Program memory as data: LPM (42_program_memory_load.md), ELPM, SPM and ESPM
(46_extended_program_memory.md). -/

namespace Sys2Proof.Machine

/-- The program byte address of the extended forms, RAMPZ:Z (R220). -/
def State.rampzZ (s : State) : BitVec 24 := extendedAddr s.rampz (s.ptr .z)

/-- `x[d] <- ProgByte(b); pc <- pc + 1`, refused where the program address is not implemented. -/
def loadProgram (b : Nat) (d : Reg) (s : State) : Result :=
  match s.progByte b with
  | some v => .next ((s.setReg d v).advance 1)
  | none => .refused .programAddressNotImplemented

/-- `SpmOp` at a program byte address with the data word R1:R0, then `pc <- pc + 1` (R228). -/
def storeProgram (addr : BitVec 24) (s : State) : Result :=
  match s.runSpmOp addr (s.pair 0) with
  | .ok s' => .next (s'.advance 1)
  | .error r => .refused r

/-- R190: `x[0] <- ProgByte(zext(Z)); pc <- pc + 1`. -/
def execLpm (s : State) : Result := loadProgram (s.ptr .z).toNat 0 s

/-- R221, form i: `x[0] <- ProgByte(RAMPZ:Z); pc <- pc + 1`. -/
def execElpm (s : State) : Result := ifPresent s.device.hasElpm (loadProgram s.rampzZ.toNat 0 s)

/-- R222, form ii: `x[d] <- ProgByte(RAMPZ:Z); pc <- pc + 1`. -/
def execElpmZ (d : Reg) (s : State) : Result :=
  ifPresent s.device.hasElpm (loadProgram s.rampzZ.toNat d s)

/-- R223, form iii: `A <- RAMPZ:Z; x[d] <- ProgByte(A); RAMPZ:Z <- A + 1 modulo 2^24; pc <- pc + 1`,
with the fault of rule R224. -/
def elpmIncrement (d : Reg) (s : State) : Result :=
  if Pointer.z.owns d then .fault .elpmPointerDestination
  else
    match s.progByte s.rampzZ.toNat with
    | some v =>
      .next (({ (s.setReg d v).setPtr .z ((s.rampzZ + 1).extractLsb' 0 16) with
        rampz := (s.rampzZ + 1).extractLsb' 16 8 }).advance 1)
    | none => .refused .programAddressNotImplemented

/-- R223, `ELPM Rd,Z+`. -/
def execElpmZInc (d : Reg) (s : State) : Result := ifPresent s.device.hasElpm (elpmIncrement d s)

/-- R229: `SpmOp` at `zext_24(Z)`. -/
def execSpm (s : State) : Result :=
  ifPresent s.device.hasSpm (storeProgram (extendedAddr 0 (s.ptr .z)) s)

/-- R230: `SpmOp` at RAMPZ:Z. -/
def execEspm (s : State) : Result := ifPresent s.device.hasEspm (storeProgram s.rampzZ s)

end Sys2Proof.Machine
end

