-- ==== Sys2Proof/Machine/Stack.lean ====
section
/-! DEFINITION. The stack instructions PUSH and POP (44_stack.md). -/

namespace Sys2Proof.Machine

/-- R201: `MemWrite(zext(SP), 1, x[r]); SP <- SP - 1; pc <- pc + 1`. -/
def execPush (r : Reg) (s : State) : Result :=
  match s.pushByte (s.reg r) with
  | some s' => .next (s'.advance 1)
  | none => .refused .dataAddressNotImplemented

/-- R202: `SP <- SP + 1; x[d] <- MemRead(zext(SP), 1); pc <- pc + 1`. -/
def execPop (d : Reg) (s : State) : Result :=
  match s.popByte with
  | some (v, s') => .next ((s'.setReg d v).advance 1)
  | none => .refused .dataAddressNotImplemented

end Sys2Proof.Machine
end

