-- ==== Sys2Proof/Machine/Transfer.lean ====
section
/-! DEFINITION. Control transfer: EICALL and EIJMP (45_extended_indirect_jump_call.md). -/

namespace Sys2Proof.Machine

/-- The target of both, `EIND[5:0]:Z` (R210). -/
def State.extendedTarget (s : State) : PcWord := s.eind.extractLsb' 0 6 ++ s.ptr .z

/-- R211, R212: push the three bytes of `zext_24(pc + 1)`, then `pc <- EIND[5:0]:Z`. -/
def callExtended (s : State) : Result :=
  match s.pushReturn ((s.pcAfter 1).setWidth 24) with
  | some s' => .next { s' with pc := s'.extendedTarget }
  | none => .refused .dataAddressNotImplemented

/-- R211, EICALL. -/
def execEicall (s : State) : Result := ifPresent s.device.hasExtendedJump (callExtended s)

/-- R213, EIJMP: `pc <- EIND[5:0]:Z`. -/
def execEijmp (s : State) : Result :=
  ifPresent s.device.hasExtendedJump (.next { s with pc := s.extendedTarget })

end Sys2Proof.Machine
end

