-- ==== Sys2Proof/Machine/Step.lean ====
section
/-! DEFINITION. One step: fetch, decode, execute, in the order of rule R265. -/

namespace Sys2Proof.Machine

/-- What the step answers for words that are no instruction (R117). -/
def refuseDecode : DecodeError → Refusal
  | .unlisted w => .instructionNotSpecified w
  | .truncated => .fetchOutsideProgramMemory

/-- One instruction: fetch its words at `pc`, decode them, and execute. No interrupt is taken between
two steps (R264, decision D10). -/
def step (s : State) : Host.Outcome State Fault Refusal :=
  match s.fetch with
  | .error r => .refused r
  | .ok words =>
    match decodeWords s.device.hasElpm words with
    | .ok (i, _) => exec i s
    | .error e => .refused (refuseDecode e)

/-- The state with an instruction placed in program memory at `pc`, in the four bytes of the longest
instruction, and nothing else changed. -/
def State.withFetchWord (s : State) (nbits w : Nat) : State :=
  s.storeWords s.pc (wordsOfBytes (tableBytes nbits w))

end Sys2Proof.Machine
end

