-- ==== Sys2Proof/Safety.lean ====
section
/-! DEFINITION. The terms claims are stated in: the pieces of the state and what it means that all but
some are unchanged, what a data address reads as and what a store to it changes, where an instruction
stores, and the invariant of the machine. -/

namespace Sys2Proof.Machine

/-! ### Pieces of state -/

/-- The pieces of the state a claim can name: a register, an SRAM byte, a program byte, or a whole field. -/
inductive Piece where
  | reg (i : Reg)
  | pc
  | sreg
  | sp
  | rampx
  | rampy
  | rampz
  | eind
  | spmcr
  | sram (a : Nat)
  | prog (b : Nat)
  | temp
  | blbits
  | ioWrites
  | draws
deriving DecidableEq, Repr

/-- The piece is the same in `t` as in `s`. SRAM is compared through the model's read of one byte. -/
def State.same (s t : State) : Piece → Prop
  | .reg i => t.reg i = s.reg i
  | .pc => t.pc = s.pc
  | .sreg => t.sreg = s.sreg
  | .sp => t.sp = s.sp
  | .rampx => t.rampx = s.rampx
  | .rampy => t.rampy = s.rampy
  | .rampz => t.rampz = s.rampz
  | .eind => t.eind = s.eind
  | .spmcr => t.spmcr = s.spmcr
  | .sram a => t.sramByte a = s.sramByte a
  | .prog b => Memory.read t.prog b = Memory.read s.prog b
  | .temp => t.temp = s.temp
  | .blbits => t.blbits = s.blbits
  | .ioWrites => t.ioWrites = s.ioWrites
  | .draws => t.draws = s.draws

/-- The device is the same, and so is every piece outside `changed`: the frame of an instruction. -/
def State.sameBut (s t : State) (changed : Set Piece) : Prop :=
  t.device = s.device ∧ ∀ p, p ∉ changed → s.same t p

/-! ### What a data address reads as, and what a store to it changes -/

/-- The byte a read of full data address `a` yields and how many free draws it takes, where the address is
implemented (rules R36, R63, R64, R66). -/
def State.peek (s : State) (a : Nat) : Option (Byte × Nat) :=
  match s.device.place a with
  | .reg i => some (s.reg i, 0)
  | .sram => some (s.sramByte a, 0)
  | .absent => none
  | .io p =>
    match s.device.coreAt p with
    | some c => some (s.coreReg c, 0)
    | none => some (Config.deviceByte p s.draws, 1)

/-- The piece of the state that holds a core register. -/
def corePiece : CoreReg → Piece
  | .sreg => .sreg
  | .spl => .sp
  | .sph => .sp
  | .rampx => .rampx
  | .rampy => .rampy
  | .rampz => .rampz
  | .eind => .eind
  | .spmcr => .spmcr

/-- The piece of the state that a write to an I/O address changes: the core register there, or the record
of device writes (rule R66). -/
def State.ioPiece (s : State) (p : IoAddr) : Piece :=
  match s.device.coreAt p with
  | some c => corePiece c
  | none => .ioWrites

/-- The piece of the state that a store to full data address `a` changes, where it is implemented. -/
def State.storePiece (s : State) (a : Nat) : Option Piece :=
  match s.device.place a with
  | .reg i => some (.reg i)
  | .io p => some (s.ioPiece p)
  | .sram => some (.sram a)
  | .absent => none

/-- The write of `v` to I/O address `p` has taken effect in `t`: the core register reads `v` (and the
other half of SP is as it was), or the event is recorded (rules R36, R66). -/
def State.ioWritten (s t : State) (p : IoAddr) (v : Byte) : Prop :=
  match s.device.coreAt p with
  | some .spl => t.sp = s.device.spOf (joinBytes (hiByte s.sp) v)
  | some .sph => t.sp = joinBytes v (loByte s.sp)
  | some c => t.coreReg c = v
  | none => t.ioWrites = s.ioWrites ++ [{ port := p, value := v }]

/-- The store of `v` to full data address `a` has taken effect in `t`. -/
def State.stored (s t : State) (a : Nat) (v : Byte) : Prop :=
  match s.device.place a with
  | .reg i => t.reg i = v
  | .io p => s.ioWritten t p v
  | .sram => t.sramByte a = v
  | .absent => False

/-- The full data addresses the three pushes of EICALL store to, each computed from the SP that the pushes
before it leave, up to the first that is not implemented (rule R212). -/
def State.returnAddrs (s : State) (ret : BitVec 24) : List Nat :=
  s.sp.toNat ::
    match s.dataWrite s.sp.toNat (ret.extractLsb' 0 8) with
    | none => []
    | some u =>
      (u.device.spOf (u.sp - 1)).toNat ::
        match u.dataWrite (u.device.spOf (u.sp - 1)).toNat (ret.extractLsb' 8 8) with
        | none => []
        | some w => [(w.device.spOf (w.sp - 2)).toNat]

/-- The pieces of the state an instruction writes as data: where OUT, a store, PUSH and the three pushes of
EICALL go, `none` for an address that is not implemented. Every other instruction writes none. -/
def State.storePieces (s : State) : Instr → List (Option Piece)
  | .out p _ => [some (s.ioPiece p)]
  | .sts k _ => [s.storePiece (s.directAddr k)]
  | .stX _ => [s.storePiece (s.ptrAddr .x (s.ptr .x))]
  | .stXInc _ => [s.storePiece (s.ptrAddr .x (s.ptr .x))]
  | .stXDec _ => [s.storePiece (s.ptrAddr .x (s.ptr .x - 1))]
  | .stY _ => [s.storePiece (s.ptrAddr .y (s.ptr .y))]
  | .stYInc _ => [s.storePiece (s.ptrAddr .y (s.ptr .y))]
  | .stYDec _ => [s.storePiece (s.ptrAddr .y (s.ptr .y - 1))]
  | .stdY q _ => [s.storePiece (s.ptrAddr .y (s.ptr .y + q.setWidth 16))]
  | .stZ _ => [s.storePiece (s.ptrAddr .z (s.ptr .z))]
  | .stZInc _ => [s.storePiece (s.ptrAddr .z (s.ptr .z))]
  | .stZDec _ => [s.storePiece (s.ptrAddr .z (s.ptr .z - 1))]
  | .stdZ q _ => [s.storePiece (s.ptrAddr .z (s.ptr .z + q.setWidth 16))]
  | .push _ => [s.storePiece s.sp.toNat]
  | .eicall => (s.returnAddrs ((s.pcAfter 1).setWidth 24)).map s.storePiece
  | _ => []

/-! ### Families of instructions -/

/-- `LD Rd,P`, the pointer unchanged. -/
def ldPlain : Pointer → Reg → Instr
  | .x, d => .ldX d
  | .y, d => .ldY d
  | .z, d => .ldZ d

/-- `LD Rd,P+`. -/
def ldInc : Pointer → Reg → Instr
  | .x, d => .ldXInc d
  | .y, d => .ldYInc d
  | .z, d => .ldZInc d

/-- `LD Rd,-P`. -/
def ldDec : Pointer → Reg → Instr
  | .x, d => .ldXDec d
  | .y, d => .ldYDec d
  | .z, d => .ldZDec d

/-- `ST P,Rr`, the pointer unchanged. -/
def stPlain : Pointer → Reg → Instr
  | .x, r => .stX r
  | .y, r => .stY r
  | .z, r => .stZ r

/-- `ST P+,Rr`. -/
def stInc : Pointer → Reg → Instr
  | .x, r => .stXInc r
  | .y, r => .stYInc r
  | .z, r => .stZInc r

/-- `ST -P,Rr`. -/
def stDec : Pointer → Reg → Instr
  | .x, r => .stXDec r
  | .y, r => .stYDec r
  | .z, r => .stZDec r

/-- MULS, MULSU, FMUL, FMULS or FMULSU. -/
def isMultiply : Instr → Bool
  | .muls _ _ | .mulsu _ _ | .fmul _ _ | .fmuls _ _ | .fmulsu _ _ => true
  | _ => false

/-- The optional group of an instruction is missing on the device (rules R9, R118). -/
def lacks (d : Device) : Instr → Bool
  | .eicall | .eijmp => !d.hasEicallEijmp || d.pcBits != 22
  | .elpm | .elpmZ _ | .elpmZInc _ => !d.hasElpm
  | .espm => !d.hasEspm
  | .spm => !d.hasSpm
  | .movw _ _ => !d.hasMovw
  | .muls _ _ | .mulsu _ _ | .fmul _ _ | .fmuls _ _ | .fmulsu _ _ => !d.hasMul
  | _ => false

/-- SPM and ESPM with the presence of each and the program byte address each uses (rules R229, R230). -/
def State.spmForms (s : State) : List (Instr × Bool × BitVec 24) :=
  [(.spm, s.device.hasSpm, extendedAddr 0 (s.ptr .z)), (.espm, s.device.hasEspm, s.rampzZ)]

/-! ### What a load, a store and a multiply do -/

/-- The instruction completes with the byte read at full data address `a` of `m` in `x[d]` and `pc` moved
on by `n` words, and changes nothing else but the count of draws, by the draws the read takes. `m` is the
state the rule's memory read sees. -/
def loads (i : Instr) (s m : State) (a : Nat) (d : Reg) (n : Nat) : Prop :=
  ∀ v k, m.peek a = some (v, k) → ∃ t, exec i s = .next t ∧ t.reg d = v ∧ t.pc = s.pcAfter n ∧
    t.draws = s.draws + k ∧ s.sameBut t {.reg d, .pc, .draws}

/-- The instruction completes with the store of `x[r]` to full data address `a` in effect and `pc` moved on
by `n` words, and changes nothing else. -/
def stores (i : Instr) (s : State) (a : Nat) (r : Reg) (n : Nat) : Prop :=
  ∀ p, s.storePiece a = some p → ∃ t, exec i s = .next t ∧ s.stored t a (s.reg r) ∧
    t.pc = s.pcAfter n ∧ s.sameBut t {p, .pc}

/-- The instruction completes with the 16-bit result in R1:R0, C from bit 15 of the product, Z from the
result, and nothing else changed but `pc`. -/
def multiplies (i : Instr) (s : State) (prod res : Word) : Prop :=
  ∃ t, exec i s = .next t ∧ t.reg 1 = hiByte res ∧ t.reg 0 = loByte res ∧
    t.flag .c = prod.getLsbD 15 ∧ t.flag .z = decide (res = 0) ∧
    (∀ f, f ≠ .c → f ≠ .z → t.flag f = s.flag f) ∧ t.pc = s.pcAfter 1 ∧
    s.sameBut t {.reg 0, .reg 1, .sreg, .pc}

/-! ### The invariant -/

/-- What holds of the state in every run: the device's parameters agree, PC and SP lie in their widths,
the memories are in canonical form, and they list only addresses the device implements. -/
structure State.Inv (s : State) : Prop where
  device_valid : s.device.Valid
  pc_lt : s.pc.toNat < 2 ^ s.device.pcBits
  sp_of : s.device.spOf s.sp = s.sp
  data_wf : Memory.wf s.data
  data_range : ∀ c ∈ s.data, sramStart ≤ c.1 ∧ c.1 ≤ s.device.ramend
  prog_wf : Memory.wf s.prog
  prog_range : ∀ c ∈ s.prog, c.1 < 2 * s.device.progWords
  temp_wf : Memory.wf s.temp
  temp_range : ∀ p ∈ s.device.spm.described, ∀ c ∈ s.temp, c.1 < 2 * p.pageWords

end Sys2Proof.Machine
end

