-- ==== Sys2Proof/WellFormed.lean ====
section
/-! DEFINITION. Which operand combinations are instructions: the operand ranges of rule R123 that the
types of the operands do not already say. -/

namespace Sys2Proof

/-- R16 to R31, what LDI and MULS can name (rules R21, R123). -/
def Reg.isHigh (d : Reg) : Bool := decide (16 ≤ d.val)

/-- R16 to R23, what MULSU, FMUL, FMULS and FMULSU can name (rules R21, R123). -/
def Reg.isMiddle (d : Reg) : Bool := decide (16 ≤ d.val) && decide (d.val ≤ 23)

/-- An even register, the low half of a pair that MOVW can name (rules R21, R123). -/
def Reg.isEven (d : Reg) : Bool := d.val % 2 == 0

/-- The operands of the instruction lie in the ranges of rule R123, so the instruction has an encoding. -/
def Instr.wellFormed : Instr → Bool
  | .mov _ _ => true
  | .lds _ _ => true
  | .sts _ _ => true
  | .ldi d _ => d.isHigh
  | .ldX _ => true
  | .ldXInc _ => true
  | .ldXDec _ => true
  | .stX _ => true
  | .stXInc _ => true
  | .stXDec _ => true
  | .ldY _ => true
  | .ldYInc _ => true
  | .ldYDec _ => true
  | .lddY _ _ => true
  | .stY _ => true
  | .stYInc _ => true
  | .stYDec _ => true
  | .stdY _ _ => true
  | .ldZ _ => true
  | .ldZInc _ => true
  | .ldZDec _ => true
  | .lddZ _ _ => true
  | .stZ _ => true
  | .stZInc _ => true
  | .stZDec _ => true
  | .stdZ _ _ => true
  | .lpm => true
  | .inp _ _ => true
  | .out _ _ => true
  | .push _ => true
  | .pop _ => true
  | .eicall => true
  | .eijmp => true
  | .elpm => true
  | .elpmZ _ => true
  | .elpmZInc _ => true
  | .espm => true
  | .fmul d r => d.isMiddle && r.isMiddle
  | .fmuls d r => d.isMiddle && r.isMiddle
  | .fmulsu d r => d.isMiddle && r.isMiddle
  | .movw d r => d.isEven && r.isEven
  | .muls d r => d.isHigh && r.isHigh
  | .mulsu d r => d.isMiddle && r.isMiddle
  | .spm => true

end Sys2Proof
end

