-- ==== Sys2Proof/Certificates/Slice0/Obligations.lean ====
section
/-! DEFINITION. The statements for the provers, from the numbered rules of the spec. Where one rests on a
choice of the model's or on a decision the spec marks as its own, its docstring says so and names the log
entry or the decision. -/

open Sys2Proof Sys2Proof.Machine

/-! ### Encoding -/

/-- Decode and encode agree, from bytes in program memory's order: decoding the bytes of a well-formed
instruction's words gives the instruction back and leaves the words after it. Where two rows share a word
(rule R113: q = 0) the answer is the plain form; on a device without ELPM the word of `ELPM` is LPM's
(rule R116), so that instruction is left out there. -/
def Obligations.DecodingTheEncodingGivesTheInstruction : Prop :=
  ∀ (hasElpm : Bool) (i : Instr) (rest : List Word), i.wellFormed = true →
    (hasElpm = true ∨ i ≠ .elpm) →
    decodeBytes hasElpm ((encode i ++ rest).flatMap bytesOfWord) = .ok (i.canonical, rest)

/-- Each word has one meaning: what the decoder reads from a sequence of words is a well-formed instruction,
and encoding it gives those words back, on every device. Left out is 0x95D8 on a device without ELPM, where
it is a second word of LPM (rule R116, the spec's decision D17, log entry 28) and LPM is encoded as 0x95C8. -/
def Obligations.EncodingTheDecodedGivesTheWords : Prop :=
  ∀ (hasElpm : Bool) (words rest : List Word) (i : Instr), decodeWords hasElpm words = .ok (i, rest) →
    (hasElpm = true ∨ words.head? ≠ some 0x95D8) →
    i.wellFormed = true ∧ encode i ++ rest = words

/-- Words written out from the spec's encodings, one or more of each family, decode to the instructions they
stand for; 0x95D8 is LPM on a device without ELPM and `ELPM` on a device with it, and 0x95C8 is LPM on both
(rule R116, the spec's decision D17, log entry 28). The words of MOVW, FMUL and MULS rest on opcodes that the
spec takes from general knowledge (rule R112, G1), and so does the model (log entry 24, PRESUMED). -/
def Obligations.PrintedWordsDecode : Prop :=
  decodeWords true [0x2D00] = .ok (.mov 16 0, []) ∧
  decodeWords true [0x9020, 0x0200] = .ok (.lds 2 0x0200, []) ∧
  decodeWords true [0x9220, 0x0200] = .ok (.sts 0x0200 2, []) ∧
  decodeWords true [0xEFE0] = .ok (.ldi 30 0xF0, []) ∧
  decodeWords true [0x903E] = .ok (.ldXDec 3, []) ∧
  decodeWords true [0x804A] = .ok (.lddY 4 2, []) ∧
  decodeWords true [0x8242] = .ok (.stdZ 2 4, []) ∧
  decodeWords true [0xB39B] = .ok (.inp 25 0x1B, []) ∧
  decodeWords true [0xBB47] = .ok (.out 0x17 20, []) ∧
  decodeWords true [0x92DF] = .ok (.push 13, []) ∧
  decodeWords true [0x9519] = .ok (.eicall, []) ∧
  decodeWords true [0x9419] = .ok (.eijmp, []) ∧
  decodeWords true [0x9107] = .ok (.elpmZInc 16, []) ∧
  decodeWords true [0x0180] = .ok (.movw 16 0, []) ∧
  decodeWords true [0x037E] = .ok (.fmul 23 22, []) ∧
  decodeWords true [0x0254] = .ok (.muls 21 20, []) ∧
  decodeWords false [0x95C8] = .ok (.lpm, []) ∧ decodeWords false [0x95D8] = .ok (.lpm, []) ∧
  decodeWords true [0x95C8] = .ok (.lpm, []) ∧ decodeWords true [0x95D8] = .ok (.elpm, [])

/-- The rows of the opcode table are pairwise disjoint except for the overlaps of rule R113: the four
q = 0 rows (numbered here from 0) and, on a device without ELPM, LPM over the word of `ELPM`. -/
def Obligations.OpcodeRowsOverlapOnlyAsListed : Prop :=
  ∀ (hasElpm : Bool) (j k : Nat) (a b : OpcodeRow) (w : Word), j < k →
    (opcodeRows hasElpm)[j]? = some a → (opcodeRows hasElpm)[k]? = some b →
    w &&& a.mask = a.pattern → w &&& b.mask = b.pattern →
    (j, k) ∈ [(10, 13), (14, 17), (18, 21), (22, 25)] ∨ (hasElpm = false ∧ (j, k) = (26, 33))

/-- The displacement forms with q = 0 mean what the plain forms mean (rules R113, R122), so it does not
matter which row a decoder takes. -/
def Obligations.CanonicalFormMeansTheSame : Prop :=
  ∀ (i : Instr) (s : State), exec i.canonical s = exec i s

/-! ### The step -/

/-- A step runs the instruction its fetched words decode to: `step` adds nothing around `exec`. That it
never takes an interrupt, whatever SREG.I holds, is the spec's decision D10 (rule R264) and the model's choice
(log entry 16, unsafe). -/
def Obligations.StepRunsTheDecodedInstruction : Prop :=
  ∀ (s : State) (words rest : List Word) (i : Instr), s.fetch = .ok words →
    decodeWords s.device.hasElpm words = .ok (i, rest) → step s = exec i s

/-- Where the words of a well-formed instruction lie in program memory at `pc`, low byte of each first, the
step is that instruction's. That no interrupt comes before it is the spec's decision D10 (log entry 16); that
the second word of an instruction at the last word of the PC's range is word 0 is its decision D8 (the wrap of
the PC, log entry 25). -/
def Obligations.StepRunsTheInstructionInMemory : Prop :=
  ∀ (s : State) (i : Instr), s.pc.toNat < 2 ^ s.device.pcBits → i.wellFormed = true →
    (s.device.hasElpm = true ∨ i ≠ .elpm) →
    (∀ (k : Nat) (w : Word), (encode i)[k]? = some w →
      (s.pcAfter k).toNat < s.device.progWords ∧
        Memory.readWord s.prog (s.pcAfter k).toNat = some w) →
    step s = exec i s

/-- A fetch outside program memory is refused, of the first word and of the second word of LDS and STS (rule
R28, the spec's decision D8), and so is the fetch of either word where it lies in program memory but the
program image does not give it (rule R298, log entry 29). -/
def Obligations.FetchStopsOutsideTheProgram : Prop :=
  (∀ s : State, s.device.progWords ≤ s.pc.toNat → step s = .refused .fetchOutsideProgramMemory) ∧
  (∀ (s : State) (w : Word), s.pc.toNat < s.device.progWords →
    Memory.readWord s.prog s.pc.toNat = some w → isTwoWord w = true →
    s.device.progWords ≤ (s.pcAfter 1).toNat → step s = .refused .fetchOutsideProgramMemory) ∧
  (∀ s : State, s.pc.toNat < s.device.progWords → Memory.readWord s.prog s.pc.toNat = none →
    step s = .refused .fetchUnwritten) ∧
  (∀ (s : State) (w : Word), s.pc.toNat < s.device.progWords →
    Memory.readWord s.prog s.pc.toNat = some w → isTwoWord w = true →
    (s.pcAfter 1).toNat < s.device.progWords → Memory.readWord s.prog (s.pcAfter 1).toNat = none →
    step s = .refused .fetchUnwritten)

/-- A word that matches no row of the opcode table is refused by the step: the spec's decision D9, which the
model follows (log entry 19). The words rule R117 lists match none: the free low nibbles of
`1001 000d dddd nnnn` and `1001 001r rrrr nnnn`, everything in `1001 010x xxxx xxxx` but the six NONE-format
words, and `0000 0000`. -/
def Obligations.UnlistedWordsAreRefused : Prop :=
  (∀ (s : State) (w : Word), s.pc.toNat < s.device.progWords →
    Memory.readWord s.prog s.pc.toNat = some w →
    (∀ row ∈ opcodeRows s.device.hasElpm, ¬ (w &&& row.mask = row.pattern)) →
    step s = .refused (.instructionNotSpecified w)) ∧
  (∀ (hasElpm : Bool) (d : Reg) (n : BitVec 4), n ∈ [3, 4, 5, 8, 11] →
    ∀ row ∈ opcodeRows hasElpm, ¬ (encodeReg5 0b1001000 d n &&& row.mask = row.pattern)) ∧
  (∀ (hasElpm : Bool) (d : Reg) (n : BitVec 4), n ∈ [3, 4, 5, 6, 7, 8, 11] →
    ∀ row ∈ opcodeRows hasElpm, ¬ (encodeReg5 0b1001001 d n &&& row.mask = row.pattern)) ∧
  (∀ (hasElpm : Bool) (w : Word), w &&& 0xFE00 = 0x9400 →
    w ∉ [0x95C8, 0x9519, 0x9419, 0x95D8, 0x95F8, 0x95E8] →
    ∀ row ∈ opcodeRows hasElpm, ¬ (w &&& row.mask = row.pattern)) ∧
  (∀ (hasElpm : Bool) (b : Byte),
    ∀ row ∈ opcodeRows hasElpm, ¬ (joinBytes 0 b &&& row.mask = row.pattern))

/-- An optional instruction is refused on a device that lacks it, by its meaning and by the step that
decodes its words: EICALL, EIJMP, the three forms of ELPM, ESPM, SPM, MOVW and the five multiplies,
whatever the operands and the rest of the state. -/
def Obligations.MissingOptionalInstructionsAreRefused : Prop :=
  ∀ (i : Instr) (s : State), lacks s.device i = true →
    exec i s = .refused .instructionNotPresent ∧
    ∀ words rest, s.fetch = .ok words → decodeWords s.device.hasElpm words = .ok (i, rest) →
      step s = .refused .instructionNotPresent

/-- The next `pc` of every instruction that completes: two words on for LDS and STS, EIND[5:0]:Z for EIJMP and
EICALL, one word on for every other; counted modulo `2^PC_BITS` (the spec's decision D8, log entry 25). That
EICALL takes EIND and Z after its pushes, which may land on them, is the order of its pseudocode (log entry
14, DEDUCED). -/
def Obligations.NextPcOfEveryInstruction : Prop :=
  ∀ (i : Instr) (s t : State), exec i s = .next t →
    match i with
    | .lds _ _ => t.pc = s.pcAfter 2
    | .sts _ _ => t.pc = s.pcAfter 2
    | .eijmp => t.pc = s.eind.extractLsb' 0 6 ++ s.ptr .z
    | .eicall => t.pc = t.eind.extractLsb' 0 6 ++ t.ptr .z
    | _ => t.pc = s.pcAfter 1

/-! ### Direct transfer -/

/-- MOV: the destination receives a copy of the source, and nothing else but `pc` changes; the spec's
example word is 0x2D00. -/
def Obligations.MovCopiesTheSource : Prop :=
  decodeWords false [0x2D00] = .ok (.mov 16 0, []) ∧
  ∀ (d r : Reg) (s : State), ∃ t, exec (.mov d r) s = .next t ∧ t.reg d = s.reg r ∧
    t.pc = s.pcAfter 1 ∧ s.sameBut t {.reg d, .pc}

/-- LDI: the destination, one of R16 to R31 in every encodable form, receives the immediate, one word
long; the spec's example word is 0xEFE0. -/
def Obligations.LdiLoadsTheImmediate : Prop :=
  decodeWords false [0xEFE0] = .ok (.ldi 30 0xF0, []) ∧
  (∀ (d : Reg) (K : Byte), (Instr.ldi d K).wellFormed = true ↔ 16 ≤ d.val) ∧
  ∀ (d : Reg) (K : Byte) (s : State), ∃ t, exec (.ldi d K) s = .next t ∧ t.reg d = K ∧
    t.pc = s.pcAfter 1 ∧ s.sameBut t {.reg d, .pc}

/-- LDS loads the byte at `DataAddr(RAMPZ, k)` and is two words long; where the address is not implemented
it is refused. -/
def Obligations.LdsLoadsTheDirectByte : Prop :=
  ∀ (d : Reg) (k : Word) (s : State),
    loads (.lds d k) s s (s.directAddr k) d 2 ∧
    (s.peek (s.directAddr k) = none → exec (.lds d k) s = .refused .dataAddressNotImplemented)

/-- STS stores the source at `DataAddr(RAMPZ, k)` and is two words long; where the address is not
implemented it is refused. -/
def Obligations.StsStoresTheDirectByte : Prop :=
  ∀ (k : Word) (r : Reg) (s : State),
    stores (.sts k r) s (s.directAddr k) r 2 ∧
    (s.storePiece (s.directAddr k) = none → exec (.sts k r) s = .refused .dataAddressNotImplemented)

/-- The direct data address is `k` on a device with 16-bit data addresses, and RAMPZ:k on one with 24;
the address through a pointer takes that pointer's own page register. -/
def Obligations.DataAddressesTakeTheirPage : Prop :=
  ∀ (s : State) (a : Word),
    (s.device.dataBits = .b16 → s.directAddr a = a.toNat ∧ ∀ p, s.ptrAddr p a = a.toNat) ∧
    (s.device.dataBits = .b24 → s.directAddr a = (s.rampz ++ a).toNat ∧
      s.ptrAddr .x a = (s.rampx ++ a).toNat ∧ s.ptrAddr .y a = (s.rampy ++ a).toNat ∧
      s.ptrAddr .z a = (s.rampz ++ a).toNat)

/-! ### Indirect transfer -/

/-- LD Rd,X, LD Rd,Y and LD Rd,Z load the byte the pointer names and leave the pointer as it is (unless the
destination is one of its halves). -/
def Obligations.LdPlainLoadsThroughThePointer : Prop :=
  ∀ (p : Pointer) (d : Reg) (s : State), loads (ldPlain p d) s s (s.ptrAddr p (s.ptr p)) d 1

/-- LDD Rd,Y+q and LDD Rd,Z+q load the byte at the pointer plus q, modulo 2^16 (the spec's decision D14),
in the pointer's page, and write no pointer. -/
def Obligations.LddLoadsWithDisplacement : Prop :=
  ∀ (d : Reg) (q : BitVec 6) (s : State),
    loads (.lddY d q) s s (s.ptrAddr .y (s.ptr .y + q.setWidth 16)) d 1 ∧
    loads (.lddZ d q) s s (s.ptrAddr .z (s.ptr .z + q.setWidth 16)) d 1

/-- LD Rd,X+, LD Rd,Y+ and LD Rd,Z+ with a destination outside the pointer load the byte the pointer names
and then add 1 to the pointer, modulo 2^16 (the spec's decision D14); no page register changes. -/
def Obligations.LdPostIncrementLoadsThenAdvances : Prop :=
  ∀ (p : Pointer) (d : Reg) (s : State) (v : Byte) (k : Nat), p.owns d = false →
    s.peek (s.ptrAddr p (s.ptr p)) = some (v, k) →
    ∃ t, exec (ldInc p d) s = .next t ∧ t.reg d = v ∧ t.ptr p = s.ptr p + 1 ∧ t.pc = s.pcAfter 1 ∧
      t.draws = s.draws + k ∧ s.sameBut t {.reg d, .reg p.lo, .reg p.hi, .pc, .draws}

/-- LD Rd,-X, LD Rd,-Y and LD Rd,-Z with a destination outside the pointer subtract 1 from the pointer,
modulo 2^16 (the spec's decision D14), and then load the byte it names; a read that meets one of the
pointer's own registers sees the new value, as the order of the rule's operation says (log entry 14). -/
def Obligations.LdPreDecrementStepsBackThenLoads : Prop :=
  ∀ (p : Pointer) (d : Reg) (s : State) (v : Byte) (k : Nat), p.owns d = false →
    (s.setPtr p (s.ptr p - 1)).peek (s.ptrAddr p (s.ptr p - 1)) = some (v, k) →
    ∃ t, exec (ldDec p d) s = .next t ∧ t.reg d = v ∧ t.ptr p = s.ptr p - 1 ∧ t.pc = s.pcAfter 1 ∧
      t.draws = s.draws + k ∧ s.sameBut t {.reg d, .reg p.lo, .reg p.hi, .pc, .draws}

/-- ST X,Rr, ST Y,Rr and ST Z,Rr store the source at the address the pointer names, as it was before the
instruction. -/
def Obligations.StPlainStoresThroughThePointer : Prop :=
  ∀ (p : Pointer) (r : Reg) (s : State), stores (stPlain p r) s (s.ptrAddr p (s.ptr p)) r 1

/-- STD Y+q,Rr and STD Z+q,Rr store the source at the pointer plus q, modulo 2^16 (the spec's decision
D14), in the pointer's page. -/
def Obligations.StdStoresWithDisplacement : Prop :=
  ∀ (q : BitVec 6) (r : Reg) (s : State),
    stores (.stdY q r) s (s.ptrAddr .y (s.ptr .y + q.setWidth 16)) r 1 ∧
    stores (.stdZ q r) s (s.ptrAddr .z (s.ptr .z + q.setWidth 16)) r 1

/-- ST X+,Rr, ST Y+,Rr and ST Z+,Rr, with a source and a target outside the pointer's registers, store the
source at the address the pointer names and then add 1 to the pointer, modulo 2^16 (the spec's decision
D14). -/
def Obligations.StPostIncrementStoresThenAdvances : Prop :=
  ∀ (p : Pointer) (r : Reg) (s : State) (c : Piece), p.owns r = false →
    s.storePiece (s.ptrAddr p (s.ptr p)) = some c → c ≠ .reg p.lo → c ≠ .reg p.hi →
    ∃ t, exec (stInc p r) s = .next t ∧ s.stored t (s.ptrAddr p (s.ptr p)) (s.reg r) ∧
      t.ptr p = s.ptr p + 1 ∧ t.pc = s.pcAfter 1 ∧ s.sameBut t {c, .reg p.lo, .reg p.hi, .pc}

/-- ST -X,Rr, ST -Y,Rr and ST -Z,Rr, with a source and a target outside the pointer's registers, subtract 1
from the pointer, modulo 2^16 (the spec's decision D14), and store the source at the address it then
names. -/
def Obligations.StPreDecrementStepsBackThenStores : Prop :=
  ∀ (p : Pointer) (r : Reg) (s : State) (c : Piece), p.owns r = false →
    s.storePiece (s.ptrAddr p (s.ptr p - 1)) = some c → c ≠ .reg p.lo → c ≠ .reg p.hi →
    ∃ t, exec (stDec p r) s = .next t ∧ s.stored t (s.ptrAddr p (s.ptr p - 1)) (s.reg r) ∧
      t.ptr p = s.ptr p - 1 ∧ t.pc = s.pcAfter 1 ∧ s.sameBut t {c, .reg p.lo, .reg p.hi, .pc}

/-- A post-increment or pre-decrement load or store whose data register is a half of its pointer faults
(rule R153, the spec's decision D13), in all twelve forms and whatever else the state holds. -/
def Obligations.PointerAsDataRegisterFaults : Prop :=
  ∀ (p : Pointer) (d : Reg) (s : State), p.owns d = true →
    exec (ldInc p d) s = .fault .pointerIsDataRegister ∧
    exec (ldDec p d) s = .fault .pointerIsDataRegister ∧
    exec (stInc p d) s = .fault .pointerIsDataRegister ∧
    exec (stDec p d) s = .fault .pointerIsDataRegister

/-- A post-increment or pre-decrement store whose target byte is one of its pointer's two registers is
refused (rule R176, the spec's decision D13). -/
def Obligations.StoreOntoItsOwnPointerIsRefused : Prop :=
  ∀ (p : Pointer) (r : Reg) (s : State) (i : Reg), p.owns r = false → p.owns i = true →
    (s.device.place (s.ptrAddr p (s.ptr p)) = .reg i →
      exec (stInc p r) s = .refused .storeOntoOwnPointer) ∧
    (s.device.place (s.ptrAddr p (s.ptr p - 1)) = .reg i →
      exec (stDec p r) s = .refused .storeOntoOwnPointer)

/-- A load or store through a pointer at a data address that is not implemented is refused and changes
nothing (rule R64). -/
def Obligations.AbsentDataAddressesAreRefused : Prop :=
  ∀ (p : Pointer) (d : Reg) (q : BitVec 6) (s : State),
    (s.device.place (s.ptrAddr p (s.ptr p)) = .absent →
      exec (ldPlain p d) s = .refused .dataAddressNotImplemented ∧
      exec (stPlain p d) s = .refused .dataAddressNotImplemented ∧
      (p.owns d = false → exec (ldInc p d) s = .refused .dataAddressNotImplemented ∧
        exec (stInc p d) s = .refused .dataAddressNotImplemented)) ∧
    (s.device.place (s.ptrAddr p (s.ptr p - 1)) = .absent → p.owns d = false →
      exec (ldDec p d) s = .refused .dataAddressNotImplemented ∧
      exec (stDec p d) s = .refused .dataAddressNotImplemented) ∧
    (s.device.place (s.ptrAddr .y (s.ptr .y + q.setWidth 16)) = .absent →
      exec (.lddY d q) s = .refused .dataAddressNotImplemented ∧
      exec (.stdY q d) s = .refused .dataAddressNotImplemented) ∧
    (s.device.place (s.ptrAddr .z (s.ptr .z + q.setWidth 16)) = .absent →
      exec (.lddZ d q) s = .refused .dataAddressNotImplemented ∧
      exec (.stdZ q d) s = .refused .dataAddressNotImplemented)

/-- From SRAM_START to RAMEND a read returns the last value written there and has no other effect, and a
write changes that byte and nothing else (rule R63). That a read also completes where nothing has written,
with a free value, is the model's choice of the two that rule R42 allows (log entry 4, DESIGN CHOICE). -/
def Obligations.SramReadsBackWhatWasWritten : Prop :=
  ∀ (s : State) (a : Nat) (v : Byte), sramStart ≤ a → a ≤ s.device.ramend →
    (∃ u, s.dataRead a = some (u, s)) ∧
    ∃ t, s.dataWrite a v = some t ∧ t.dataRead a = some (v, t) ∧
      (∀ b, b ≠ a → t.sramByte b = s.sramByte b) ∧ s.sameBut t {.sram a}

/-! ### Program memory -/

/-- LPM loads into R0 the byte of program memory Z names, bit 0 of Z choosing the low byte when 0 and the
high byte when 1, without RAMPZ; Z is not changed. At or above PROG_WORDS it is refused. -/
def Obligations.LpmLoadsTheProgramByte : Prop :=
  ∀ s : State,
    ((s.ptr .z).toNat / 2 < s.device.progWords →
      ∃ t, exec .lpm s = .next t ∧ t.pc = s.pcAfter 1 ∧ s.sameBut t {.reg 0, .pc} ∧
        ∀ v, Memory.readWord s.prog ((s.ptr .z).toNat / 2) = some v →
          t.reg 0 = if (s.ptr .z).getLsbD 0 then hiByte v else loByte v) ∧
    (s.device.progWords ≤ (s.ptr .z).toNat / 2 →
      exec .lpm s = .refused .programAddressNotImplemented)

/-- ELPM and ELPM Rd,Z load into R0 or Rd the byte of program memory RAMPZ:Z names, bit 0 of Z choosing
the byte; neither Z (unless Rd is a half of it) nor RAMPZ is changed. At or above PROG_WORDS both are
refused. -/
def Obligations.ElpmLoadsTheProgramByte : Prop :=
  ∀ (d : Reg) (s : State), s.device.hasElpm = true →
    ((s.rampz ++ s.ptr .z).toNat / 2 < s.device.progWords →
      ∀ f ∈ [(Instr.elpm, (0 : Reg)), (Instr.elpmZ d, d)],
        ∃ t, exec f.1 s = .next t ∧ t.pc = s.pcAfter 1 ∧ s.sameBut t {.reg f.2, .pc} ∧
          ∀ v, Memory.readWord s.prog ((s.rampz ++ s.ptr .z).toNat / 2) = some v →
            t.reg f.2 = if (s.ptr .z).getLsbD 0 then hiByte v else loByte v) ∧
    (s.device.progWords ≤ (s.rampz ++ s.ptr .z).toNat / 2 →
      exec .elpm s = .refused .programAddressNotImplemented ∧
      exec (.elpmZ d) s = .refused .programAddressNotImplemented)

/-- ELPM Rd,Z+ with Rd outside Z loads the byte of program memory RAMPZ:Z names and then adds 1 to the whole
24-bit RAMPZ:Z, modulo 2^24 (the spec's decision D28). At or above PROG_WORDS it is refused. -/
def Obligations.ElpmPostIncrementCountsTwentyFourBits : Prop :=
  ∀ (d : Reg) (s : State), s.device.hasElpm = true → Pointer.z.owns d = false →
    ((s.rampz ++ s.ptr .z).toNat / 2 < s.device.progWords →
      ∃ t, exec (.elpmZInc d) s = .next t ∧ t.pc = s.pcAfter 1 ∧
        (t.rampz ++ t.ptr .z).toNat = ((s.rampz ++ s.ptr .z).toNat + 1) % 2 ^ 24 ∧
        s.sameBut t {.reg d, .reg 30, .reg 31, .rampz, .pc} ∧
        ∀ v, Memory.readWord s.prog ((s.rampz ++ s.ptr .z).toNat / 2) = some v →
          t.reg d = if (s.ptr .z).getLsbD 0 then hiByte v else loByte v) ∧
    (s.device.progWords ≤ (s.rampz ++ s.ptr .z).toNat / 2 →
      exec (.elpmZInc d) s = .refused .programAddressNotImplemented)

/-- ELPM r30,Z+ and ELPM r31,Z+, the words 0x91E7 and 0x91F7, fault. -/
def Obligations.ElpmOntoItsPointerFaults : Prop :=
  decodeWords true [0x91E7] = .ok (.elpmZInc 30, []) ∧
  decodeWords true [0x91F7] = .ok (.elpmZInc 31, []) ∧
  ∀ s : State, s.device.hasElpm = true →
    exec (.elpmZInc 30) s = .fault .elpmPointerDestination ∧
    exec (.elpmZInc 31) s = .fault .elpmPointerDestination

/-! ### Programming program memory -/

/-- SPM and ESPM with SPMCR = 0x03, on a device that describes its programmer, erase the page of program
memory that Z, or RAMPZ:Z, addresses: every implemented word of the page is 0xFFFF and every other word is as
it was. The model's choices in it: 0x03 selects the erase (log entry 26, DEDUCED), pages are aligned and Z bit
0 is ignored (log entry 13), SPMCR after it is a free value (log entry 9), an erase leaves TEMP as it was (log
entry 27, unsafe), and SPMCR counts however long ago it was written (log entry 31). -/
def Obligations.SpmErasesThePage : Prop :=
  ∀ (s : State) (p : SpmDevice), s.device.spm = .facts p → s.spmcr = 0x03 →
    ∀ f ∈ s.spmForms, f.2.1 = true → f.2.2.toNat / 2 < s.device.progWords →
      ∃ t, exec f.1 s = .next t ∧ t.pc = s.pcAfter 1 ∧
        (∀ w, Memory.readWord t.prog w =
          if p.pageBase (f.2.2.toNat / 2) ≤ w ∧ w < p.pageBase (f.2.2.toNat / 2) + p.pageWords ∧
            w < s.device.progWords then some 0xFFFF else Memory.readWord s.prog w) ∧
        s.sameBut t ({.pc, .spmcr, .draws} ∪ Set.range Piece.prog)

/-- SPM and ESPM with SPMCR = 0x01 on a device that describes its programmer and writes program memory word
by word write R1:R0 to the erased word that Z, or RAMPZ:Z, addresses, and no other byte. The model's choices
in it: 0x01 writes program memory where there is no buffer (log entry 26, DEDUCED), the word is that of the
address divided by 2, Z bit 0 ignored (log entry 13), and SPMCR after it is a free value (log entry 9). A word
that is not erased is the subject of SpmChangesNothingElse alone (log entry 10). -/
def Obligations.SpmWritesTheErasedWord : Prop :=
  ∀ (s : State) (p : SpmDevice), s.device.spm = .facts p → p.buffered = false → s.spmcr = 0x01 →
    ∀ f ∈ s.spmForms, f.2.1 = true → f.2.2.toNat / 2 < s.device.progWords →
      Memory.readWord s.prog (f.2.2.toNat / 2) = some 0xFFFF →
      ∃ t, exec f.1 s = .next t ∧ t.pc = s.pcAfter 1 ∧
        Memory.readWord t.prog (f.2.2.toNat / 2) = some (joinBytes (s.reg 1) (s.reg 0)) ∧
        s.sameBut t {.pc, .spmcr, .draws, .prog (2 * (f.2.2.toNat / 2)),
          .prog (2 * (f.2.2.toNat / 2) + 1)}

/-- SPM and ESPM with SPMCR = 0x01 on a device that describes its programmer, with a temporary page buffer,
put R1:R0 into the buffer at the word offset that Z, or RAMPZ:Z, has in its page, and leave program memory as
it is, wherever the address points. The model's choices in it: 0x01 fills the buffer where there is one (log
entry 26, DEDUCED), the offset is the word address modulo the page size and the address need not be
implemented (log entry 13), TEMP holds two bytes for each word (log entry 27), and SPMCR after it is a free
value (log entry 9). -/
def Obligations.SpmFillsTheBuffer : Prop :=
  ∀ (s : State) (p : SpmDevice), s.device.spm = .facts p → p.buffered = true → s.spmcr = 0x01 →
    ∀ f ∈ s.spmForms, f.2.1 = true →
      ∃ t, exec f.1 s = .next t ∧ t.pc = s.pcAfter 1 ∧
        (∀ o, Memory.readWord t.temp o =
          if o = f.2.2.toNat / 2 % p.pageWords then some (joinBytes (s.reg 1) (s.reg 0))
          else Memory.readWord s.temp o) ∧
        s.sameBut t {.pc, .spmcr, .draws, .temp}

/-- SPM and ESPM with SPMCR = 0x05 on a device that describes its programmer, with a temporary page buffer,
write the buffer to the erased page that Z, or RAMPZ:Z, addresses: each implemented word of the page takes the
buffer's word at its offset, where the buffer has been filled, and every other word is as it was. The model's
choices in it: 0x05 writes a page only where there is a buffer (log entry 26, DEDUCED), pages are aligned and
words sit at their offsets (log entry 13), a page write leaves TEMP as it was (log entry 27, unsafe), and SPMCR
after it is a free value (log entry 9). -/
def Obligations.SpmWritesTheBufferedPage : Prop :=
  ∀ (s : State) (p : SpmDevice), s.device.spm = .facts p → p.buffered = true → s.spmcr = 0x05 →
    ∀ f ∈ s.spmForms, f.2.1 = true → f.2.2.toNat / 2 < s.device.progWords →
      (∀ w, p.pageBase (f.2.2.toNat / 2) ≤ w → w < p.pageBase (f.2.2.toNat / 2) + p.pageWords →
        w < s.device.progWords → Memory.readWord s.prog w = some 0xFFFF) →
      ∃ t, exec f.1 s = .next t ∧ t.pc = s.pcAfter 1 ∧
        (∀ w v, p.pageBase (f.2.2.toNat / 2) ≤ w →
          w < p.pageBase (f.2.2.toNat / 2) + p.pageWords → w < s.device.progWords →
          Memory.readWord s.temp (w - p.pageBase (f.2.2.toNat / 2)) = some v →
          Memory.readWord t.prog w = some v) ∧
        (∀ w, ¬ (p.pageBase (f.2.2.toNat / 2) ≤ w ∧
            w < p.pageBase (f.2.2.toNat / 2) + p.pageWords ∧ w < s.device.progWords) →
          Memory.readWord t.prog w = Memory.readWord s.prog w) ∧
        s.sameBut t ({.pc, .spmcr, .draws} ∪ Set.range Piece.prog)

/-- SPM and ESPM with the device's own SPMCR code for it (log entry 7: the sources give none), on a device
that describes its programmer, set the boot-loader lock bits from R1:R0, wherever the address points. The
lock bits are held as that word and nothing else in the core depends on them (log entry 27); SPMCR after it is
a free value (log entry 9). -/
def Obligations.SpmSetsTheLockBits : Prop :=
  ∀ (s : State) (p : SpmDevice), s.device.spm = .facts p → s.spmcr = p.lockCode →
    p.lockCode ∉ [0x01, 0x03, 0x05] →
    ∀ f ∈ s.spmForms, f.2.1 = true →
      ∃ t, exec f.1 s = .next t ∧ t.pc = s.pcAfter 1 ∧
        t.blbits = joinBytes (s.reg 1) (s.reg 0) ∧
        s.sameBut t {.pc, .spmcr, .draws, .blbits}

/-- SPM and ESPM change nothing outside program memory, TEMP, BLBITS and SPMCR but `pc` and the count of draws:
no register and no flag (rule R228). On a device that describes its programmer they complete where the
addressed word is implemented, whatever SPMCR holds; that they complete for a value with no named operation is
the model's choice (log entry 8, DESIGN CHOICE: rule R229 leaves it to `SpmOp`, which may refuse). On a device
that supplies its own `SpmOp` they are refused exactly where it refuses, and otherwise TEMP, BLBITS and SPMCR
are what it answers and so is program memory: an erase leaves 0xFFFF in the addressed word and in every word
it sets, another operation leaves the words it sets (by 0x01 and 0x05 where they were erased), and no other
word changes; an erase or a page write of a word that is not implemented is another statement (log entry
32). -/
def Obligations.SpmChangesNothingElse : Prop :=
  (∀ (s : State) (p : SpmDevice), s.device.spm = .facts p →
    ∀ f ∈ s.spmForms, f.2.1 = true → f.2.2.toNat / 2 < s.device.progWords →
      ∃ t, exec f.1 s = .next t ∧ t.pc = s.pcAfter 1 ∧
        s.sameBut t ({.pc, .spmcr, .draws, .temp, .blbits} ∪ Set.range Piece.prog)) ∧
  ∀ (s : State) (n : Nat), s.device.spm = .supplied n →
    ∀ f ∈ s.spmForms, f.2.1 = true →
      (s.spmcr ∉ [0x03, 0x05] ∨ f.2.2.toNat / 2 < s.device.progWords) →
      match Config.spmOp n s.spmcr f.2.2 (joinBytes (s.reg 1) (s.reg 0)) s.prog s.temp s.blbits with
      | none => exec f.1 s = .refused .spmRefused
      | some r =>
        ∃ t, exec f.1 s = .next t ∧ t.pc = s.pcAfter 1 ∧ t.spmcr = r.spmcr ∧ t.blbits = r.blbits ∧
          (∀ o, Memory.read t.temp o = r.temp.lookup o) ∧
          (∀ w, w < s.device.progWords → s.spmcr = 0x03 →
            w = f.2.2.toNat / 2 ∨ (r.prog.lookup w).isSome = true →
            Memory.readWord t.prog w = some 0xFFFF) ∧
          (∀ w v, w < s.device.progWords → s.spmcr ≠ 0x03 → r.prog.lookup w = some v →
            (s.spmcr ∈ [0x01, 0x05] → Memory.readWord s.prog w = some 0xFFFF) →
            Memory.readWord t.prog w = some v) ∧
          (∀ w, (w < s.device.progWords → r.prog.lookup w = none ∧
              (s.spmcr = 0x03 → w ≠ f.2.2.toNat / 2)) →
            Memory.readWord t.prog w = Memory.readWord s.prog w) ∧
          s.sameBut t ({.pc, .spmcr, .draws, .temp, .blbits} ∪ Set.range Piece.prog)

/-- SPM and ESPM on a device that gives no `SpmOp` are refused (rule R228, the spec's decision D16). On a
device that describes its programmer, an operation that addresses program memory is refused at an address that
is not implemented (rule R68): an erase, a word write and a page write; filling the buffer and setting the
lock bits are not (log entry 13). An SPMCR value with no named operation counts as one that addresses program
memory, since the free operation may be one (log entry 8, DESIGN CHOICE). On a device that supplies its own
`SpmOp` an erase and a page write, SPMCR 0x03 and 0x05, are refused there (log entry 32). -/
def Obligations.SpmStopsWithoutItsDevice : Prop :=
  (∀ s : State, s.device.spm = .absent → ∀ f ∈ s.spmForms, f.2.1 = true →
    exec f.1 s = .refused .spmNotModelled) ∧
  (∀ (s : State) (p : SpmDevice), s.device.spm = .facts p → p.addressesProgram s.spmcr = true →
    ∀ f ∈ s.spmForms, f.2.1 = true → s.device.progWords ≤ f.2.2.toNat / 2 →
      exec f.1 s = .refused .programAddressNotImplemented) ∧
  (∀ (s : State) (n : Nat), s.device.spm = .supplied n → s.spmcr ∈ [0x03, 0x05] →
    ∀ f ∈ s.spmForms, f.2.1 = true → s.device.progWords ≤ f.2.2.toNat / 2 →
      exec f.1 s = .refused .programAddressNotImplemented)

/-- Only SPM and ESPM change program memory: a data-space store is never seen by fetch, LPM or ELPM. -/
def Obligations.OnlySpmChangesProgramMemory : Prop :=
  ∀ (i : Instr) (s t : State), exec i s = .next t → i ≠ .spm → i ≠ .espm → t.prog = s.prog

/-! ### The I/O space -/

/-- Each core register the device has lies at its own I/O address (rules R36, R66, the spec's decision D4
that the addresses are distinct). That a device has SPMCR exactly when it has SPM or ESPM is the model's
reading (log entry 12, DEDUCED, unsafe): the spec has no presence parameter for it. -/
def Obligations.CoreRegistersLieAtTheirAddresses : Prop :=
  ∀ d : Device, d.Valid →
    d.coreAt d.ioSreg = some .sreg ∧ d.coreAt d.ioSpl = some .spl ∧
    (d.spBits = .b16 → d.coreAt d.ioSph = some .sph) ∧
    (d.spBits = .b8 → d.coreAt d.ioSph = none) ∧
    (d.coreAt d.ioRampx = if d.hasRampx then some .rampx else none) ∧
    (d.coreAt d.ioRampy = if d.hasRampy then some .rampy else none) ∧
    (d.coreAt d.ioRampz = if d.hasRampz then some .rampz else none) ∧
    (d.coreAt d.ioEind = if d.hasEind then some .eind else none) ∧
    (d.coreAt d.ioSpmcr = if d.hasSpm || d.hasEspm then some .spmcr else none)

/-- IN of a core register copies it into Rd and leaves it as it was. -/
def Obligations.InReadsTheCoreRegister : Prop :=
  ∀ (d : Reg) (p : IoAddr) (c : CoreReg) (s : State), s.device.coreAt p = some c →
    ∃ t, exec (.inp d p) s = .next t ∧ t.reg d = s.coreReg c ∧ t.pc = s.pcAfter 1 ∧
      s.sameBut t {.reg d, .pc}

/-- IN of a device register completes with the byte of one free draw in Rd (rules R66, R195, the spec's
decision D18, log entry 6), and changes nothing else. -/
def Obligations.InDrawsADeviceByte : Prop :=
  ∀ (d : Reg) (p : IoAddr) (s : State), s.device.coreAt p = none →
    ∃ t, exec (.inp d p) s = .next t ∧ t.reg d = Config.deviceByte p s.draws ∧
      t.draws = s.draws + 1 ∧ t.pc = s.pcAfter 1 ∧ s.sameBut t {.reg d, .pc, .draws}

/-- OUT writes the core register at P, all eight flags where it is SREG, and for a device register records
the event and changes no core state (rule R66, the spec's decision D18). -/
def Obligations.OutWritesTheIoAddress : Prop :=
  ∀ (p : IoAddr) (r : Reg) (s : State),
    ∃ t, exec (.out p r) s = .next t ∧ s.ioWritten t p (s.reg r) ∧ t.pc = s.pcAfter 1 ∧
      s.sameBut t {s.ioPiece p, .pc}

/-- Under the default data map, data addresses 0x00 to 0x1F are the general registers and 0x20 to 0x5F the
64 I/O addresses; under the other map they are not implemented; from 0x60 to RAMEND lies SRAM, and above
it nothing (rule R64, the spec's decision D7). -/
def Obligations.DataMapBelowSram : Prop :=
  ∀ (d : Device) (a : Nat),
    (d.dataMap = .registersAndIo →
      (∀ i : Reg, a = i.val → d.place a = .reg i) ∧
      (∀ p : IoAddr, a = p.toNat + 0x20 → d.place a = .io p)) ∧
    (d.dataMap = .refuseLow → a < sramStart → d.place a = .absent) ∧
    (sramStart ≤ a → d.place a = if a ≤ d.ramend then .sram else .absent)

/-- A flag changes only by a multiply, or as data by an instruction that stores to SREG itself: an OUT, a
store, a PUSH or a push of EICALL whose address is SREG's. That no other instruction changes a flag is the
spec's decision D2 (rule R30: for many of them the flag row was lost), which the model follows (log entry 30,
DESIGN CHOICE). -/
def Obligations.FlagsChangeOnlyByMultiplyOrAsData : Prop :=
  ∀ (i : Instr) (s t : State), exec i s = .next t → t.sreg ≠ s.sreg →
    isMultiply i = true ∨ some Piece.sreg ∈ s.storePieces i

/-! ### The stack -/

/-- PUSH stores the source at SP and then subtracts 1 from SP, modulo 2^SP_BITS (rule R200, the spec's
decision D5). Where SP names a half of SP itself, the subtraction sees the byte just written, as the order
of the rule's operation says (log entry 14). Where the address is not implemented it is refused. -/
def Obligations.PushStoresThenStepsDown : Prop :=
  ∀ (r : Reg) (s : State),
    (∀ c, s.storePiece s.sp.toNat = some c →
      ∃ t, exec (.push r) s = .next t ∧ t.pc = s.pcAfter 1 ∧ s.sameBut t {c, .sp, .pc} ∧
        (c ≠ .sp → s.stored t s.sp.toNat (s.reg r) ∧ t.sp = s.device.spOf (s.sp - 1)) ∧
        (c = .sp → ∃ u, s.stored u s.sp.toNat (s.reg r) ∧ s.sameBut u {.sp} ∧
          t.sp = s.device.spOf (u.sp - 1))) ∧
    (s.storePiece s.sp.toNat = none → exec (.push r) s = .refused .dataAddressNotImplemented)

/-- POP adds 1 to SP, modulo 2^SP_BITS, and then loads the byte SP names (rule R200, the spec's decision
D5). Where the address is not implemented it is refused. -/
def Obligations.PopStepsUpThenLoads : Prop :=
  ∀ (d : Reg) (s u : State), u = s.setSp (s.sp + 1) →
    (∀ v k, u.peek u.sp.toNat = some (v, k) →
      ∃ t, exec (.pop d) s = .next t ∧ t.reg d = v ∧ t.sp = s.device.spOf (s.sp + 1) ∧
        t.pc = s.pcAfter 1 ∧ t.draws = s.draws + k ∧ s.sameBut t {.reg d, .sp, .pc, .draws}) ∧
    (u.peek u.sp.toNat = none → exec (.pop d) s = .refused .dataAddressNotImplemented)

/-- PUSH then POP restores (rule R203): where SP names implemented SRAM, the pair leaves SP as it was, sets
the destination to the pushed value, and the stack byte keeps it. -/
def Obligations.PushThenPopRestores : Prop :=
  ∀ (r d : Reg) (s : State), s.Inv → s.device.place s.sp.toNat = .sram →
    ∃ t u, exec (.push r) s = .next t ∧ exec (.pop d) t = .next u ∧ u.sp = s.sp ∧
      u.reg d = s.reg r ∧ u.sramByte s.sp.toNat = s.reg r ∧
      s.sameBut u {.reg d, .sram s.sp.toNat, .pc}

/-! ### Extended jump and call -/

/-- EIJMP continues at the word address EIND[5:0]:Z and changes nothing else; bits 7:6 of EIND do not count
(the spec's decision D15). -/
def Obligations.EijmpJumpsToEindZ : Prop :=
  ∀ s : State, s.device.pcBits = 22 → s.device.hasEicallEijmp = true →
    ∃ t, exec .eijmp s = .next t ∧
      t.pc.toNat = s.eind.toNat % 64 * 0x10000 + (s.ptr .z).toNat ∧ s.sameBut t {.pc}

/-- EICALL pushes the return address `pc + 1`, modulo 2^22, low byte at SP, middle byte at SP - 1, high byte at
SP - 2 (rule R212, the spec's decision D6), subtracts 3 from SP and continues at EIND[5:0]:Z. With its three
stack bytes in SRAM nothing else changes. Wherever the three bytes lie, in registers, the I/O space or SRAM,
it completes if each address is implemented; a byte that lands on SP, EIND or Z is seen by what the pseudocode
computes after it (log entry 14, DEDUCED): `u`, `v` and `w` are the states after the three writes. -/
def Obligations.EicallPushesAndJumps : Prop :=
  (∀ (s : State) (a b c : Nat), s.device.pcBits = 22 → s.device.hasEicallEijmp = true →
    a = s.sp.toNat → b = (s.device.spOf (s.sp - 1)).toNat → c = (s.device.spOf (s.sp - 2)).toNat →
    s.device.place a = .sram → s.device.place b = .sram → s.device.place c = .sram →
    ∃ t, exec .eicall s = .next t ∧
      t.pc.toNat = s.eind.toNat % 64 * 0x10000 + (s.ptr .z).toNat ∧
      t.sp = s.device.spOf (s.sp - 3) ∧
      (t.sramByte a).toNat + (t.sramByte b).toNat * 0x100 + (t.sramByte c).toNat * 0x10000 =
        (s.pc.toNat + 1) % 2 ^ 22 ∧
      s.sameBut t {.pc, .sp, .sram a, .sram b, .sram c}) ∧
  ∀ (s : State) (ret : BitVec 24), s.device.pcBits = 22 → s.device.hasEicallEijmp = true →
    ret = BitVec.ofNat 24 ((s.pc.toNat + 1) % 2 ^ 22) →
    (∀ x ∈ s.returnAddrs ret, s.storePiece x ≠ none) →
    ∃ (x y z : Piece) (u v w t : State), exec .eicall s = .next t ∧
      (s.storePiece s.sp.toNat = some x ∧ s.stored u s.sp.toNat (ret.extractLsb' 0 8) ∧
        s.sameBut u {x}) ∧
      (s.storePiece (s.device.spOf (u.sp - 1)).toNat = some y ∧
        u.stored v (s.device.spOf (u.sp - 1)).toNat (ret.extractLsb' 8 8) ∧ u.sameBut v {y}) ∧
      (s.storePiece (s.device.spOf (v.sp - 2)).toNat = some z ∧
        v.stored w (s.device.spOf (v.sp - 2)).toNat (ret.extractLsb' 16 8) ∧ v.sameBut w {z}) ∧
      t.sp = s.device.spOf (w.sp - 3) ∧
      t.pc.toNat = w.eind.toNat % 64 * 0x10000 + (w.ptr .z).toNat ∧ w.sameBut t {.pc, .sp}

/-- EICALL is refused, with nothing written, where one of its three stack addresses is not implemented,
wherever the others lie (rule R265, the spec's decision D30). Where none of the three is a half of SP they are
SP, SP - 1 and SP - 2; where one is, the later ones are computed from what it leaves in SP (log entry 14,
DEDUCED). -/
def Obligations.EicallIsAllOrNothing : Prop :=
  (∀ (s : State) (a b c : Nat), s.device.pcBits = 22 → s.device.hasEicallEijmp = true →
    a = s.sp.toNat → b = (s.device.spOf (s.sp - 1)).toNat → c = (s.device.spOf (s.sp - 2)).toNat →
    (∀ x ∈ [a, b, c], s.storePiece x ≠ some .sp) → (∃ x ∈ [a, b, c], s.storePiece x = none) →
    exec .eicall s = .refused .dataAddressNotImplemented) ∧
  ∀ (s : State) (ret : BitVec 24), s.device.pcBits = 22 → s.device.hasEicallEijmp = true →
    ret = BitVec.ofNat 24 ((s.pc.toNat + 1) % 2 ^ 22) →
    (∃ x ∈ s.returnAddrs ret, s.storePiece x = none) →
    exec .eicall s = .refused .dataAddressNotImplemented

/-! ### Multiplies and MOVW -/

/-- MULS and MULSU put the signed by signed and the signed by unsigned product, modulo 2^16, into R1:R0, with
C from bit 15 and Z from the result, and change nothing else but `pc`. -/
def Obligations.IntegerMultipliesWriteTheProduct : Prop :=
  ∀ (d r : Reg) (s : State), s.device.hasMul = true →
    multiplies (.muls d r) s (BitVec.ofInt 16 ((s.reg d).toInt * (s.reg r).toInt))
      (BitVec.ofInt 16 ((s.reg d).toInt * (s.reg r).toInt)) ∧
    multiplies (.mulsu d r) s (BitVec.ofInt 16 ((s.reg d).toInt * ((s.reg r).toNat : Int)))
      (BitVec.ofInt 16 ((s.reg d).toInt * ((s.reg r).toNat : Int)))

/-- FMUL, FMULS and FMULSU put twice the unsigned, signed, and signed by unsigned product, modulo 2^16, into
R1:R0, with C from bit 15 of the product before the shift and Z from the shifted result (the spec's decision
D29), and change nothing else but `pc`. -/
def Obligations.FractionalMultipliesWriteTheShiftedProduct : Prop :=
  ∀ (d r : Reg) (s : State), s.device.hasMul = true →
    multiplies (.fmul d r) s (BitVec.ofNat 16 ((s.reg d).toNat * (s.reg r).toNat))
      (BitVec.ofNat 16 (2 * ((s.reg d).toNat * (s.reg r).toNat))) ∧
    multiplies (.fmuls d r) s (BitVec.ofInt 16 ((s.reg d).toInt * (s.reg r).toInt))
      (BitVec.ofInt 16 (2 * ((s.reg d).toInt * (s.reg r).toInt))) ∧
    multiplies (.fmulsu d r) s (BitVec.ofInt 16 ((s.reg d).toInt * ((s.reg r).toNat : Int)))
      (BitVec.ofInt 16 (2 * ((s.reg d).toInt * ((s.reg r).toNat : Int))))

/-- C and Z as the multiplies write them, with R = R1:R0 after the operation: Z is 1 if R is 0x0000, else 0;
for MULS and MULSU, C is bit 15 of R; for FMUL, FMULS and FMULSU, C is bit 15 of the 16-bit product before
the left shift. -/
def Obligations.MultiplyFlagsFollowTheResult : Prop :=
  ∀ (d r : Reg) (s t : State),
    (exec (.muls d r) s = .next t →
      t.flag .z = decide (t.pair 0 = 0) ∧ t.flag .c = (t.pair 0).getLsbD 15) ∧
    (exec (.mulsu d r) s = .next t →
      t.flag .z = decide (t.pair 0 = 0) ∧ t.flag .c = (t.pair 0).getLsbD 15) ∧
    (exec (.fmul d r) s = .next t → t.flag .z = decide (t.pair 0 = 0) ∧
      t.flag .c = (BitVec.ofNat 16 ((s.reg d).toNat * (s.reg r).toNat)).getLsbD 15) ∧
    (exec (.fmuls d r) s = .next t → t.flag .z = decide (t.pair 0 = 0) ∧
      t.flag .c = (BitVec.ofInt 16 ((s.reg d).toInt * (s.reg r).toInt)).getLsbD 15) ∧
    (exec (.fmulsu d r) s = .next t → t.flag .z = decide (t.pair 0 = 0) ∧
      t.flag .c = (BitVec.ofInt 16 ((s.reg d).toInt * ((s.reg r).toNat : Int))).getLsbD 15)

/-- Z is 1 after any of the five multiplies exactly when one of the operands was zero: the shift of the
fractional multiplies never loses the whole product. C is 1 after MULS exactly when the operands have
opposite signs and neither is zero (rule R247). -/
def Obligations.MultiplyFlagsTellOfTheOperands : Prop :=
  ∀ (d r : Reg) (s t : State),
    (∀ i ∈ [Instr.muls d r, .mulsu d r, .fmul d r, .fmuls d r, .fmulsu d r],
      exec i s = .next t → (t.flag .z = true ↔ s.reg d = 0 ∨ s.reg r = 0)) ∧
    (exec (.muls d r) s = .next t →
      (t.flag .c = true ↔ ((s.reg d).msb ≠ (s.reg r).msb ∧ s.reg d ≠ 0 ∧ s.reg r ≠ 0)))

/-- MOVW copies the source pair to the destination pair, in every encodable form, and changes nothing else
but `pc`. -/
def Obligations.MovwCopiesThePair : Prop :=
  ∀ (d r : Reg) (s : State), (Instr.movw d r).wellFormed = true → s.device.hasMovw = true →
    ∃ t, exec (.movw d r) s = .next t ∧ t.reg (d + 1) = s.reg (r + 1) ∧ t.reg d = s.reg r ∧
      t.pc = s.pcAfter 1 ∧ s.sameBut t {.reg d, .reg (d + 1), .pc}

/-! ### The invariant -/

/-- Every step keeps the invariant: valid parameters, PC and SP within their widths, memories in canonical
form that list only addresses the device implements. -/
def Obligations.EveryStepKeepsTheInvariant : Prop :=
  ∀ s t : State, s.Inv → step s = .next t → t.Inv

/-- No step changes the parameters of the device, and the record of device writes only grows. Both are fields
of the model's own: the parameters stand in State, though rule R17 says that they are no state (log entry 3),
and the record holds what rule R66 and the spec's decision D18 call events (log entry 18). -/
def Obligations.StepKeepsTheDeviceAndTheRecord : Prop :=
  ∀ s t : State, step s = .next t → t.device = s.device ∧ s.ioWrites <+: t.ioWrites

/-- The state after reset meets the invariant, with `pc` 0 (the spec's decision D11) and, as the model's
choice, nothing listed in any memory and no device write recorded (log entries 4, 5, 11 and 18). -/
def Obligations.ResetMeetsTheInvariant : Prop :=
  State.reset.Inv ∧ State.reset.pc = 0 ∧ State.reset.data = [] ∧ State.reset.prog = [] ∧
    State.reset.temp = [] ∧ State.reset.ioWrites = []
end

