-- ==== Sys2Proof/Laws/Memory.lean ====
section
/-! SUPPORT. The laws of memories: a read after a write, and every write keeps the canonical form and the
range of the addresses. -/

namespace Sys2Proof.Machine

/-! ### One byte -/

theorem Memory.read_write (m : Memory) (a b : Nat) (v : Byte) :
    Memory.read (Memory.write m a v) b = if b = a then some v else Memory.read m b := by
  induction m with
  | nil => simp [Memory.write, Memory.read, eq_comm]
  | cons c m ih =>
    obtain ⟨c, u⟩ := c
    by_cases hb : b = a
    · subst hb
      simp only [Memory.write, if_true] at ih ⊢
      split_ifs with h1 h2
      · simp [Memory.read]
      · simp [Memory.read]
      · simp [Memory.read, Ne.symm h2, ih]
    · simp only [Memory.write, if_neg hb] at ih ⊢
      split_ifs with h1 h2
      · simp [Memory.read, Ne.symm hb]
      · subst h2
        simp [Memory.read, Ne.symm hb]
      · simp [Memory.read, ih]

theorem Memory.mem_write {m : Memory} {a : Nat} {v : Byte} {c : Host.Cell}
    (h : c ∈ Memory.write m a v) : c = (a, v) ∨ c ∈ m := by
  induction m with
  | nil => simpa [Memory.write] using h
  | cons d m ih =>
    obtain ⟨d, u⟩ := d
    simp only [Memory.write] at h
    split_ifs at h
    · simpa using h
    · rcases List.mem_cons.mp h with h | h
      · exact .inl h
      · exact .inr (List.mem_cons_of_mem _ h)
    · rcases List.mem_cons.mp h with h | h
      · exact .inr (h ▸ List.mem_cons_self)
      · rcases ih h with h | h
        · exact .inl h
        · exact .inr (List.mem_cons_of_mem _ h)

theorem Memory.write_wf {m : Memory} (a : Nat) (v : Byte) (h : Memory.wf m) :
    Memory.wf (Memory.write m a v) := by
  induction m with
  | nil => simp [Memory.write, Memory.wf]
  | cons d m ih =>
    obtain ⟨d, u⟩ := d
    obtain ⟨h1, h2⟩ := List.pairwise_cons.mp h
    simp only [Memory.write]
    split_ifs with ha hb
    · refine List.pairwise_cons.mpr ⟨fun c hc => ?_, h⟩
      rcases List.mem_cons.mp hc with hc | hc
      · rw [hc]; exact ha
      · exact lt_trans ha (h1 c hc)
    · subst hb
      exact List.pairwise_cons.mpr ⟨h1, h2⟩
    · refine List.pairwise_cons.mpr ⟨fun c hc => ?_, ih h2⟩
      rcases Memory.mem_write hc with hc | hc
      · subst hc
        show d < a
        omega
      · exact h1 c hc

/-! ### A memory from listed cells -/

theorem Memory.ofCells_wf (cs : List Host.Cell) : Memory.wf (Memory.ofCells cs) := by
  induction cs with
  | nil => exact List.Pairwise.nil
  | cons c cs ih => exact Memory.write_wf _ _ ih

/-- The first cell listed for an address is the one read. -/
theorem Memory.read_ofCells (cs : List Host.Cell) (a : Nat) :
    Memory.read (Memory.ofCells cs) a = cs.lookup a := by
  induction cs with
  | nil => rfl
  | cons c cs ih =>
    rw [Memory.ofCells, Memory.read_write, ih, List.lookup_cons]
    by_cases h : a = c.1
    · simp [h]
    · simp [h, show (a == c.1) = false by simp [h]]

/-! ### One word -/

theorem Memory.writeWord_wf {m : Memory} (w : Nat) (v : Word) (h : Memory.wf m) :
    Memory.wf (Memory.writeWord m w v) :=
  Memory.write_wf _ _ (Memory.write_wf _ _ h)

theorem Memory.read_writeWord (m : Memory) (w b : Nat) (v : Word) :
    Memory.read (Memory.writeWord m w v) b =
      if b = 2 * w + 1 then some (hiByte v) else if b = 2 * w then some (loByte v)
      else Memory.read m b := by
  rw [Memory.writeWord, Memory.read_write, Memory.read_write]

theorem joinBytes_getLsbD (hi lo : Byte) (i : Nat) :
    (joinBytes hi lo).getLsbD i = if i < 8 then lo.getLsbD i else hi.getLsbD (i - 8) := by
  simp only [joinBytes, BitVec.getLsbD_append]

@[simp] theorem joinBytes_hiByte_loByte (v : Word) : joinBytes (hiByte v) (loByte v) = v := by
  apply BitVec.eq_of_getLsbD_eq
  intro i hi
  rw [joinBytes_getLsbD]
  by_cases h : i < 8
  · simp [h, loByte]
  · simp only [h, if_false, hiByte, BitVec.getLsbD_extractLsb']
    rw [show 8 + (i - 8) = i by omega]
    simp [show i - 8 < 8 by omega]

@[simp] theorem hiByte_joinBytes (a b : Byte) : hiByte (joinBytes a b) = a := by
  apply BitVec.eq_of_getLsbD_eq
  intro i hi
  simp [hiByte, joinBytes_getLsbD, hi]

@[simp] theorem loByte_joinBytes (a b : Byte) : loByte (joinBytes a b) = b := by
  apply BitVec.eq_of_getLsbD_eq
  intro i hi
  simp [loByte, joinBytes_getLsbD, hi]

theorem Memory.readWord_writeWord (m : Memory) (w u : Nat) (v : Word) :
    Memory.readWord (Memory.writeWord m w v) u = if u = w then some v else Memory.readWord m u := by
  simp only [Memory.readWord, Memory.read_writeWord]
  by_cases hu : u = w
  · subst hu
    simp
  · have h1 : ¬ 2 * u = 2 * w + 1 := by omega
    have h2 : ¬ 2 * u = 2 * w := by omega
    have h3 : ¬ 2 * u + 1 = 2 * w + 1 := by omega
    have h4 : ¬ 2 * u + 1 = 2 * w := by omega
    simp only [h1, h2, h3, h4, hu, if_false]

theorem Memory.mem_writeWord {m : Memory} {w : Nat} {v : Word} {c : Host.Cell}
    (h : c ∈ Memory.writeWord m w v) : c.1 = 2 * w ∨ c.1 = 2 * w + 1 ∨ c ∈ m := by
  rcases Memory.mem_write h with h | h
  · exact .inr (.inl (by rw [h]))
  · rcases Memory.mem_write h with h | h
    · exact .inl (by rw [h])
    · exact .inr (.inr h)

end Sys2Proof.Machine
end

