-- ==== Sys2Proof/Laws/State.lean ====
section
/-! SUPPORT. One lemma per field and update of the state, and the reads of a register after a write, so
that no proof unfolds an update. -/

namespace Sys2Proof.Machine

variable (s : State)

/-! ### A general register -/

@[simp] theorem State.setReg_device (i : Reg) (v : Byte) : (s.setReg i v).device = s.device := rfl
@[simp] theorem State.setReg_pc (i : Reg) (v : Byte) : (s.setReg i v).pc = s.pc := rfl
@[simp] theorem State.setReg_sreg (i : Reg) (v : Byte) : (s.setReg i v).sreg = s.sreg := rfl
@[simp] theorem State.setReg_sp (i : Reg) (v : Byte) : (s.setReg i v).sp = s.sp := rfl
@[simp] theorem State.setReg_rampx (i : Reg) (v : Byte) : (s.setReg i v).rampx = s.rampx := rfl
@[simp] theorem State.setReg_rampy (i : Reg) (v : Byte) : (s.setReg i v).rampy = s.rampy := rfl
@[simp] theorem State.setReg_rampz (i : Reg) (v : Byte) : (s.setReg i v).rampz = s.rampz := rfl
@[simp] theorem State.setReg_eind (i : Reg) (v : Byte) : (s.setReg i v).eind = s.eind := rfl
@[simp] theorem State.setReg_spmcr (i : Reg) (v : Byte) : (s.setReg i v).spmcr = s.spmcr := rfl
@[simp] theorem State.setReg_data (i : Reg) (v : Byte) : (s.setReg i v).data = s.data := rfl
@[simp] theorem State.setReg_prog (i : Reg) (v : Byte) : (s.setReg i v).prog = s.prog := rfl
@[simp] theorem State.setReg_temp (i : Reg) (v : Byte) : (s.setReg i v).temp = s.temp := rfl
@[simp] theorem State.setReg_blbits (i : Reg) (v : Byte) : (s.setReg i v).blbits = s.blbits := rfl
@[simp] theorem State.setReg_ioWrites (i : Reg) (v : Byte) : (s.setReg i v).ioWrites = s.ioWrites := rfl
@[simp] theorem State.setReg_draws (i : Reg) (v : Byte) : (s.setReg i v).draws = s.draws := rfl

/-! ### A register pair -/

@[simp] theorem State.setPair_device (i : Reg) (v : Word) : (s.setPair i v).device = s.device := rfl
@[simp] theorem State.setPair_pc (i : Reg) (v : Word) : (s.setPair i v).pc = s.pc := rfl
@[simp] theorem State.setPair_sreg (i : Reg) (v : Word) : (s.setPair i v).sreg = s.sreg := rfl
@[simp] theorem State.setPair_sp (i : Reg) (v : Word) : (s.setPair i v).sp = s.sp := rfl
@[simp] theorem State.setPair_rampx (i : Reg) (v : Word) : (s.setPair i v).rampx = s.rampx := rfl
@[simp] theorem State.setPair_rampy (i : Reg) (v : Word) : (s.setPair i v).rampy = s.rampy := rfl
@[simp] theorem State.setPair_rampz (i : Reg) (v : Word) : (s.setPair i v).rampz = s.rampz := rfl
@[simp] theorem State.setPair_eind (i : Reg) (v : Word) : (s.setPair i v).eind = s.eind := rfl
@[simp] theorem State.setPair_spmcr (i : Reg) (v : Word) : (s.setPair i v).spmcr = s.spmcr := rfl
@[simp] theorem State.setPair_data (i : Reg) (v : Word) : (s.setPair i v).data = s.data := rfl
@[simp] theorem State.setPair_prog (i : Reg) (v : Word) : (s.setPair i v).prog = s.prog := rfl
@[simp] theorem State.setPair_temp (i : Reg) (v : Word) : (s.setPair i v).temp = s.temp := rfl
@[simp] theorem State.setPair_blbits (i : Reg) (v : Word) : (s.setPair i v).blbits = s.blbits := rfl
@[simp] theorem State.setPair_ioWrites (i : Reg) (v : Word) : (s.setPair i v).ioWrites = s.ioWrites := rfl
@[simp] theorem State.setPair_draws (i : Reg) (v : Word) : (s.setPair i v).draws = s.draws := rfl

/-! ### A pointer -/

@[simp] theorem State.setPtr_device (p : Pointer) (v : Word) : (s.setPtr p v).device = s.device := rfl
@[simp] theorem State.setPtr_pc (p : Pointer) (v : Word) : (s.setPtr p v).pc = s.pc := rfl
@[simp] theorem State.setPtr_sreg (p : Pointer) (v : Word) : (s.setPtr p v).sreg = s.sreg := rfl
@[simp] theorem State.setPtr_sp (p : Pointer) (v : Word) : (s.setPtr p v).sp = s.sp := rfl
@[simp] theorem State.setPtr_rampx (p : Pointer) (v : Word) : (s.setPtr p v).rampx = s.rampx := rfl
@[simp] theorem State.setPtr_rampy (p : Pointer) (v : Word) : (s.setPtr p v).rampy = s.rampy := rfl
@[simp] theorem State.setPtr_rampz (p : Pointer) (v : Word) : (s.setPtr p v).rampz = s.rampz := rfl
@[simp] theorem State.setPtr_eind (p : Pointer) (v : Word) : (s.setPtr p v).eind = s.eind := rfl
@[simp] theorem State.setPtr_spmcr (p : Pointer) (v : Word) : (s.setPtr p v).spmcr = s.spmcr := rfl
@[simp] theorem State.setPtr_data (p : Pointer) (v : Word) : (s.setPtr p v).data = s.data := rfl
@[simp] theorem State.setPtr_prog (p : Pointer) (v : Word) : (s.setPtr p v).prog = s.prog := rfl
@[simp] theorem State.setPtr_temp (p : Pointer) (v : Word) : (s.setPtr p v).temp = s.temp := rfl
@[simp] theorem State.setPtr_blbits (p : Pointer) (v : Word) : (s.setPtr p v).blbits = s.blbits := rfl
@[simp] theorem State.setPtr_ioWrites (p : Pointer) (v : Word) : (s.setPtr p v).ioWrites = s.ioWrites := rfl
@[simp] theorem State.setPtr_draws (p : Pointer) (v : Word) : (s.setPtr p v).draws = s.draws := rfl

/-! ### The program counter -/

@[simp] theorem State.advance_device (n : Nat) : (s.advance n).device = s.device := rfl
@[simp] theorem State.advance_regs (n : Nat) : (s.advance n).regs = s.regs := rfl
@[simp] theorem State.advance_sreg (n : Nat) : (s.advance n).sreg = s.sreg := rfl
@[simp] theorem State.advance_sp (n : Nat) : (s.advance n).sp = s.sp := rfl
@[simp] theorem State.advance_rampx (n : Nat) : (s.advance n).rampx = s.rampx := rfl
@[simp] theorem State.advance_rampy (n : Nat) : (s.advance n).rampy = s.rampy := rfl
@[simp] theorem State.advance_rampz (n : Nat) : (s.advance n).rampz = s.rampz := rfl
@[simp] theorem State.advance_eind (n : Nat) : (s.advance n).eind = s.eind := rfl
@[simp] theorem State.advance_spmcr (n : Nat) : (s.advance n).spmcr = s.spmcr := rfl
@[simp] theorem State.advance_data (n : Nat) : (s.advance n).data = s.data := rfl
@[simp] theorem State.advance_prog (n : Nat) : (s.advance n).prog = s.prog := rfl
@[simp] theorem State.advance_temp (n : Nat) : (s.advance n).temp = s.temp := rfl
@[simp] theorem State.advance_blbits (n : Nat) : (s.advance n).blbits = s.blbits := rfl
@[simp] theorem State.advance_ioWrites (n : Nat) : (s.advance n).ioWrites = s.ioWrites := rfl
@[simp] theorem State.advance_draws (n : Nat) : (s.advance n).draws = s.draws := rfl
@[simp] theorem State.advance_pc (n : Nat) : (s.advance n).pc = s.pcAfter n := rfl

/-! ### The stack pointer -/

@[simp] theorem State.setSp_device (v : Word) : (s.setSp v).device = s.device := rfl
@[simp] theorem State.setSp_regs (v : Word) : (s.setSp v).regs = s.regs := rfl
@[simp] theorem State.setSp_pc (v : Word) : (s.setSp v).pc = s.pc := rfl
@[simp] theorem State.setSp_sreg (v : Word) : (s.setSp v).sreg = s.sreg := rfl
@[simp] theorem State.setSp_rampx (v : Word) : (s.setSp v).rampx = s.rampx := rfl
@[simp] theorem State.setSp_rampy (v : Word) : (s.setSp v).rampy = s.rampy := rfl
@[simp] theorem State.setSp_rampz (v : Word) : (s.setSp v).rampz = s.rampz := rfl
@[simp] theorem State.setSp_eind (v : Word) : (s.setSp v).eind = s.eind := rfl
@[simp] theorem State.setSp_spmcr (v : Word) : (s.setSp v).spmcr = s.spmcr := rfl
@[simp] theorem State.setSp_data (v : Word) : (s.setSp v).data = s.data := rfl
@[simp] theorem State.setSp_prog (v : Word) : (s.setSp v).prog = s.prog := rfl
@[simp] theorem State.setSp_temp (v : Word) : (s.setSp v).temp = s.temp := rfl
@[simp] theorem State.setSp_blbits (v : Word) : (s.setSp v).blbits = s.blbits := rfl
@[simp] theorem State.setSp_ioWrites (v : Word) : (s.setSp v).ioWrites = s.ioWrites := rfl
@[simp] theorem State.setSp_draws (v : Word) : (s.setSp v).draws = s.draws := rfl
@[simp] theorem State.setSp_sp (v : Word) : (s.setSp v).sp = s.device.spOf v := rfl

/-! ### The result of a multiply -/

@[simp] theorem multiplyWrite_device (prod res : Word) : (multiplyWrite prod res s).device = s.device := rfl
@[simp] theorem multiplyWrite_sp (prod res : Word) : (multiplyWrite prod res s).sp = s.sp := rfl
@[simp] theorem multiplyWrite_rampx (prod res : Word) : (multiplyWrite prod res s).rampx = s.rampx := rfl
@[simp] theorem multiplyWrite_rampy (prod res : Word) : (multiplyWrite prod res s).rampy = s.rampy := rfl
@[simp] theorem multiplyWrite_rampz (prod res : Word) : (multiplyWrite prod res s).rampz = s.rampz := rfl
@[simp] theorem multiplyWrite_eind (prod res : Word) : (multiplyWrite prod res s).eind = s.eind := rfl
@[simp] theorem multiplyWrite_spmcr (prod res : Word) : (multiplyWrite prod res s).spmcr = s.spmcr := rfl
@[simp] theorem multiplyWrite_data (prod res : Word) : (multiplyWrite prod res s).data = s.data := rfl
@[simp] theorem multiplyWrite_prog (prod res : Word) : (multiplyWrite prod res s).prog = s.prog := rfl
@[simp] theorem multiplyWrite_temp (prod res : Word) : (multiplyWrite prod res s).temp = s.temp := rfl
@[simp] theorem multiplyWrite_blbits (prod res : Word) : (multiplyWrite prod res s).blbits = s.blbits := rfl
@[simp] theorem multiplyWrite_ioWrites (prod res : Word) : (multiplyWrite prod res s).ioWrites = s.ioWrites := rfl
@[simp] theorem multiplyWrite_draws (prod res : Word) : (multiplyWrite prod res s).draws = s.draws := rfl
@[simp] theorem multiplyWrite_regs (prod res : Word) :
    (multiplyWrite prod res s).regs = (s.setPair 0 res).regs := rfl
@[simp] theorem multiplyWrite_pc (prod res : Word) : (multiplyWrite prod res s).pc = s.pcAfter 1 := rfl
@[simp] theorem multiplyWrite_sreg (prod res : Word) :
    (multiplyWrite prod res s).sreg = multiplyFlags s.sreg prod res := rfl

/-! ### Functions of the state that an update leaves alone -/

@[simp] theorem State.setReg_sramByte (i : Reg) (v : Byte) (a : Nat) :
    (s.setReg i v).sramByte a = s.sramByte a := rfl
@[simp] theorem State.setReg_progByte (i : Reg) (v : Byte) (b : Nat) :
    (s.setReg i v).progByte b = s.progByte b := rfl
@[simp] theorem State.setReg_pcAfter (i : Reg) (v : Byte) (n : Nat) :
    (s.setReg i v).pcAfter n = s.pcAfter n := rfl
@[simp] theorem State.setPair_sramByte (i : Reg) (v : Word) (a : Nat) :
    (s.setPair i v).sramByte a = s.sramByte a := rfl
@[simp] theorem State.setPair_progByte (i : Reg) (v : Word) (b : Nat) :
    (s.setPair i v).progByte b = s.progByte b := rfl
@[simp] theorem State.setPair_pcAfter (i : Reg) (v : Word) (n : Nat) :
    (s.setPair i v).pcAfter n = s.pcAfter n := rfl
@[simp] theorem State.setPtr_sramByte (p : Pointer) (v : Word) (a : Nat) :
    (s.setPtr p v).sramByte a = s.sramByte a := rfl
@[simp] theorem State.setPtr_progByte (p : Pointer) (v : Word) (b : Nat) :
    (s.setPtr p v).progByte b = s.progByte b := rfl
@[simp] theorem State.setPtr_pcAfter (p : Pointer) (v : Word) (n : Nat) :
    (s.setPtr p v).pcAfter n = s.pcAfter n := rfl
@[simp] theorem State.advance_sramByte (n : Nat) (a : Nat) :
    (s.advance n).sramByte a = s.sramByte a := rfl
@[simp] theorem State.advance_progByte (n : Nat) (b : Nat) :
    (s.advance n).progByte b = s.progByte b := rfl
@[simp] theorem State.setSp_sramByte (v : Word) (a : Nat) :
    (s.setSp v).sramByte a = s.sramByte a := rfl
@[simp] theorem State.setSp_progByte (v : Word) (b : Nat) :
    (s.setSp v).progByte b = s.progByte b := rfl
@[simp] theorem State.setSp_pcAfter (v : Word) (n : Nat) :
    (s.setSp v).pcAfter n = s.pcAfter n := rfl
@[simp] theorem State.advance_reg (n : Nat) (j : Reg) : (s.advance n).reg j = s.reg j := rfl
@[simp] theorem State.advance_pair (n : Nat) (j : Reg) : (s.advance n).pair j = s.pair j := rfl
@[simp] theorem State.advance_ptr (n : Nat) (p : Pointer) : (s.advance n).ptr p = s.ptr p := rfl
@[simp] theorem State.setSp_reg (v : Word) (j : Reg) : (s.setSp v).reg j = s.reg j := rfl
@[simp] theorem State.setSp_pair (v : Word) (j : Reg) : (s.setSp v).pair j = s.pair j := rfl
@[simp] theorem State.setSp_ptr (v : Word) (p : Pointer) : (s.setSp v).ptr p = s.ptr p := rfl

/-! ### Reading a register after a write -/

theorem State.setReg_reg (i j : Reg) (v : Byte) :
    (s.setReg i v).reg j = if j = i then v else s.reg j := by
  simp only [State.reg, State.setReg, Fin.getElem_fin, Vector.getElem_set, Fin.ext_iff]
  by_cases h : i.val = j.val
  · simp [h]
  · simp [h, Ne.symm h]

@[simp] theorem State.setReg_reg_self (i : Reg) (v : Byte) : (s.setReg i v).reg i = v := by
  simp [State.setReg_reg]

theorem State.setReg_reg_ne {i j : Reg} (v : Byte) (h : j ≠ i) : (s.setReg i v).reg j = s.reg j := by
  simp [State.setReg_reg, h]

theorem State.setPtr_reg (p : Pointer) (v : Word) (j : Reg) :
    (s.setPtr p v).reg j = if j = p.lo then loByte v else if j = p.hi then hiByte v else s.reg j := by
  simp [State.setPtr, State.setReg_reg]

theorem State.setPair_reg (i : Reg) (v : Word) (j : Reg) :
    (s.setPair i v).reg j = if j = i then loByte v else if j = i + 1 then hiByte v else s.reg j := by
  simp [State.setPair, State.setReg_reg]

end Sys2Proof.Machine
end

