-- ==== Sys2Proof/Laws/Frames.lean ====
section
/-! SUPPORT. What the shared operations change: frames compose, each update changes its own piece, and one
lemma for each access of the I/O space, the data space, the stack and program memory says everything the
access does. -/

namespace Sys2Proof.Machine

/-! ### Frames compose -/

theorem State.same_refl (s : State) (p : Piece) : s.same s p := by
  cases p <;> exact rfl

theorem State.same_trans {s t u : State} {p : Piece} (h : s.same t p) (h' : t.same u p) :
    s.same u p := by
  cases p <;> exact h'.trans h

theorem State.sameBut_refl (s : State) (c : Set Piece) : s.sameBut s c :=
  ⟨rfl, fun p _ => s.same_refl p⟩

theorem State.sameBut_mono {s t : State} {c c' : Set Piece} (h : s.sameBut t c) (hc : c ⊆ c') :
    s.sameBut t c' :=
  ⟨h.1, fun p hp => h.2 p fun hm => hp (hc hm)⟩

theorem State.sameBut_trans {s t u : State} {c c' : Set Piece} (h : s.sameBut t c)
    (h' : t.sameBut u c') : s.sameBut u (c ∪ c') :=
  ⟨h'.1.trans h.1, fun p hp =>
    State.same_trans (h.2 p fun hm => hp (.inl hm)) (h'.2 p fun hm => hp (.inr hm))⟩

/-! ### Updates of one piece -/

theorem State.setReg_sameBut (s : State) (i : Reg) (v : Byte) : s.sameBut (s.setReg i v) {.reg i} := by
  refine ⟨rfl, fun p hp => ?_⟩
  cases p with
  | reg j => exact State.setReg_reg_ne s v fun h => hp (by simp [h])
  | _ => exact rfl

theorem State.advance_sameBut (s : State) (n : Nat) : s.sameBut (s.advance n) {.pc} := by
  refine ⟨rfl, fun p hp => ?_⟩
  cases p with
  | pc => exact absurd rfl hp
  | _ => exact rfl

theorem State.setSp_sameBut (s : State) (v : Word) : s.sameBut (s.setSp v) {.sp} := by
  refine ⟨rfl, fun p hp => ?_⟩
  cases p with
  | sp => exact absurd rfl hp
  | _ => exact rfl

theorem State.setPtr_sameBut (s : State) (p : Pointer) (v : Word) :
    s.sameBut (s.setPtr p v) {.reg p.lo, .reg p.hi} :=
  State.sameBut_mono (State.sameBut_trans (s.setReg_sameBut p.hi (hiByte v))
    ((s.setReg p.hi (hiByte v)).setReg_sameBut p.lo (loByte v))) (by
      rintro x (hx | hx)
      · exact .inr hx
      · exact .inl hx)

theorem State.setPair_sameBut (s : State) (i : Reg) (v : Word) :
    s.sameBut (s.setPair i v) {.reg i, .reg (i + 1)} :=
  State.sameBut_mono (State.sameBut_trans (s.setReg_sameBut (i + 1) (hiByte v))
    ((s.setReg (i + 1) (hiByte v)).setReg_sameBut i (loByte v))) (by
      rintro x (hx | hx)
      · exact .inr hx
      · exact .inl hx)

theorem State.sramWrite_sameBut (s : State) (a : Nat) (v : Byte) :
    s.sameBut { s with data := Memory.write s.data a v } {.sram a} := by
  refine ⟨rfl, fun p hp => ?_⟩
  cases p with
  | sram b =>
    have hb : ¬ b = a := fun h => hp (by simp [h])
    show State.sramByte _ b = _
    simp only [State.sramByte, Memory.read_write, if_neg hb]
  | _ => exact rfl

/-- The SRAM byte just written reads as the value written (R63). -/
theorem State.sramWrite_sramByte (s : State) (a : Nat) (v : Byte) :
    State.sramByte { s with data := Memory.write s.data a v } a = v := by
  simp [State.sramByte, Memory.read_write]

/-! ### The pointer views -/

theorem Pointer.lo_ne_hi (p : Pointer) : p.lo ≠ p.hi := by cases p <;> decide

@[simp] theorem State.setPtr_ptr (s : State) (p : Pointer) (v : Word) : (s.setPtr p v).ptr p = v := by
  simp [State.ptr, State.setPtr_reg, p.lo_ne_hi.symm]

theorem Pointer.owns_iff (p : Pointer) (d : Reg) : p.owns d = true ↔ d = p.lo ∨ d = p.hi := by
  simp [Pointer.owns]

theorem State.setPtr_reg_of_not_owns {s : State} {p : Pointer} {d : Reg} (v : Word)
    (h : p.owns d = false) : (s.setPtr p v).reg d = s.reg d := by
  have : ¬ (d = p.lo ∨ d = p.hi) := fun hd => by simp [(p.owns_iff d).mpr hd] at h
  rw [State.setPtr_reg, if_neg fun hd => this (.inl hd), if_neg fun hd => this (.inr hd)]

theorem Device.spOf_idem (d : Device) (v : Word) : d.spOf (d.spOf v) = d.spOf v := by
  unfold Device.spOf
  cases d.spBits
  · simp [BitVec.and_assoc]
  · rfl

/-! ### The I/O space -/

/-- A read of the I/O space answers the core register there, or takes one free draw (R66). -/
theorem State.ioRead_cases (s : State) (p : IoAddr) :
    (∃ c, s.device.coreAt p = some c ∧ s.ioRead p = (s.coreReg c, s)) ∨
    (s.device.coreAt p = none ∧
      s.ioRead p = (Config.deviceByte p s.draws, { s with draws := s.draws + 1 })) := by
  unfold State.ioRead
  cases h : s.device.coreAt p with
  | none => exact .inr ⟨rfl, rfl⟩
  | some c => exact .inl ⟨c, rfl, rfl⟩

/-- A write to the I/O space writes the core register there, or records an event (R66). -/
theorem State.ioWrite_cases (s : State) (p : IoAddr) (v : Byte) :
    (∃ c, s.device.coreAt p = some c ∧ s.ioWrite p v = s.setCoreReg c v) ∨
    (s.device.coreAt p = none ∧
      s.ioWrite p v = { s with ioWrites := s.ioWrites ++ [{ port := p, value := v }] }) := by
  unfold State.ioWrite
  cases h : s.device.coreAt p with
  | none => exact .inr ⟨rfl, rfl⟩
  | some c => exact .inl ⟨c, rfl, rfl⟩

theorem State.draw_sameBut (s : State) (n : Nat) : s.sameBut { s with draws := n } {.draws} := by
  refine ⟨rfl, fun p hp => ?_⟩
  cases p with
  | draws => exact absurd rfl hp
  | _ => exact rfl

theorem State.setCoreReg_sameBut (s : State) (c : CoreReg) (v : Byte) :
    s.sameBut (s.setCoreReg c v) {corePiece c} := by
  cases c <;> refine ⟨rfl, fun p hp => ?_⟩ <;> cases p <;>
    first
    | exact rfl
    | exact absurd rfl hp

/-- A core register other than the halves of SP reads as the byte just written (R36). -/
theorem State.setCoreReg_coreReg (s : State) (c : CoreReg) (v : Byte) (hl : c ≠ .spl) (hh : c ≠ .sph) :
    (s.setCoreReg c v).coreReg c = v := by
  cases c <;> first | rfl | contradiction

/-- SPH exists only where SP is 16 bits wide (R66). -/
theorem Device.coreAt_sph {d : Device} {p : IoAddr} (h : d.coreAt p = some .sph) : d.spBits = .b16 := by
  unfold Device.coreAt at h
  split_ifs at h <;> simp_all

theorem State.ioWrite_frame (s : State) (p : IoAddr) (v : Byte) :
    s.ioWritten (s.ioWrite p v) p v ∧ s.sameBut (s.ioWrite p v) {s.ioPiece p} := by
  rcases s.ioWrite_cases p v with ⟨c, hc, h⟩ | ⟨hc, h⟩
  · refine ⟨?_, ?_⟩
    · simp only [State.ioWritten, hc, h]
      cases c with
      | spl => rfl
      | sph => simp [State.setCoreReg, Device.spOf, Device.coreAt_sph hc]
      | _ => exact s.setCoreReg_coreReg _ v (by simp) (by simp)
    · simp only [State.ioPiece, hc, h]
      exact s.setCoreReg_sameBut c v
  · refine ⟨by simp only [State.ioWritten, hc, h], ?_⟩
    simp only [State.ioPiece, hc, h]
    refine ⟨rfl, fun q hq => ?_⟩
    cases q with
    | ioWrites => exact absurd rfl hq
    | _ => exact rfl

/-! ### The data space -/

/-- Everything a data read can do: it answers what `peek` says and changes the count of draws alone. -/
theorem State.dataRead_of_peek {s : State} {a : Nat} {v : Byte} {n : Nat} (h : s.peek a = some (v, n)) :
    ∃ t, s.dataRead a = some (v, t) ∧ t = { s with draws := s.draws + n } := by
  unfold State.peek at h
  unfold State.dataRead
  cases hp : s.device.place a with
  | reg i =>
    simp only [hp, Option.some.injEq, Prod.mk.injEq] at h
    obtain ⟨rfl, rfl⟩ := h
    exact ⟨s, rfl, rfl⟩
  | sram =>
    simp only [hp, Option.some.injEq, Prod.mk.injEq] at h
    obtain ⟨rfl, rfl⟩ := h
    exact ⟨s, rfl, rfl⟩
  | absent => simp [hp] at h
  | io p =>
    simp only [hp] at h
    rcases s.ioRead_cases p with ⟨c, hc, hr⟩ | ⟨hc, hr⟩
    · simp only [hc, Option.some.injEq, Prod.mk.injEq] at h
      obtain ⟨rfl, rfl⟩ := h
      exact ⟨s, by simp [hr], rfl⟩
    · simp only [hc, Option.some.injEq, Prod.mk.injEq] at h
      obtain ⟨rfl, rfl⟩ := h
      exact ⟨_, by simp [hr], rfl⟩

theorem State.dataRead_none {s : State} {a : Nat} : s.dataRead a = none ↔ s.peek a = none := by
  unfold State.peek State.dataRead
  cases s.device.place a with
  | reg i => simp
  | sram => simp
  | absent => simp
  | io p =>
    simp only [reduceCtorEq, false_iff]
    split <;> simp

/-- Everything a data read can do, from its answer. -/
theorem State.dataRead_some {s t : State} {a : Nat} {v : Byte} (h : s.dataRead a = some (v, t)) :
    ∃ n, s.peek a = some (v, n) ∧ t = { s with draws := s.draws + n } := by
  cases hp : s.peek a with
  | none => rw [State.dataRead_none.mpr hp] at h; cases h
  | some vn =>
    obtain ⟨v', n⟩ := vn
    obtain ⟨t', h', rfl⟩ := State.dataRead_of_peek hp
    rw [h'] at h
    cases h
    exact ⟨n, rfl, rfl⟩

/-- What a data write can be, from its answer: a register, the I/O space, or SRAM (R63, R64). -/
theorem State.dataWrite_cases {s t : State} {a : Nat} {v : Byte} (h : s.dataWrite a v = some t) :
    (∃ i, s.device.place a = .reg i ∧ t = s.setReg i v) ∨
    (∃ p, s.device.place a = .io p ∧ t = s.ioWrite p v) ∨
    (s.device.place a = .sram ∧ t = { s with data := Memory.write s.data a v }) := by
  unfold State.dataWrite at h
  cases hp : s.device.place a with
  | reg i => simp only [hp, Option.some.injEq] at h; exact .inl ⟨i, rfl, h.symm⟩
  | io p => simp only [hp, Option.some.injEq] at h; exact .inr (.inl ⟨p, rfl, h.symm⟩)
  | sram => simp only [hp, Option.some.injEq] at h; exact .inr (.inr ⟨rfl, h.symm⟩)
  | absent => simp [hp] at h

theorem State.dataWrite_none {s : State} {a : Nat} {v : Byte} :
    s.dataWrite a v = none ↔ s.storePiece a = none := by
  unfold State.dataWrite State.storePiece
  cases s.device.place a <;> simp

/-- Everything a data write can do: the store takes effect and its own piece alone changes. -/
theorem State.dataWrite_frame {s t : State} {a : Nat} {v : Byte} (h : s.dataWrite a v = some t) :
    ∃ p, s.storePiece a = some p ∧ s.stored t a v ∧ s.sameBut t {p} := by
  rcases State.dataWrite_cases h with ⟨i, hp, rfl⟩ | ⟨q, hp, rfl⟩ | ⟨hp, rfl⟩
  · exact ⟨.reg i, by simp [State.storePiece, hp], by simp [State.stored, hp], s.setReg_sameBut i v⟩
  · exact ⟨s.ioPiece q, by simp [State.storePiece, hp],
      by simpa [State.stored, hp] using (s.ioWrite_frame q v).1, (s.ioWrite_frame q v).2⟩
  · exact ⟨.sram a, by simp [State.storePiece, hp],
      by simpa [State.stored, hp] using s.sramWrite_sramByte a v, s.sramWrite_sameBut a v⟩

theorem State.dataWrite_of_piece {s : State} {a : Nat} {p : Piece} (v : Byte)
    (h : s.storePiece a = some p) :
    ∃ t, s.dataWrite a v = some t ∧ s.stored t a v ∧ s.sameBut t {p} := by
  cases hw : s.dataWrite a v with
  | none => rw [State.dataWrite_none.mp hw] at h; cases h
  | some t =>
    obtain ⟨q, hq, hs, hf⟩ := State.dataWrite_frame hw
    rw [h] at hq
    cases hq
    exact ⟨t, rfl, hs, hf⟩

/-- What a data write changes is the piece the address names. -/
theorem State.dataWrite_changed {s t : State} {a : Nat} {v : Byte} {q : Piece}
    (h : s.dataWrite a v = some t) (hq : ¬ s.same t q) : s.storePiece a = some q := by
  obtain ⟨p, hp, -, hf⟩ := State.dataWrite_frame h
  by_cases hqp : q = p
  · rw [hp, hqp]
  · exact absurd (hf.2 q hqp) hq

/-- A data write leaves the program counter, program memory, TEMP, the lock bits and the count of draws
alone. -/
theorem State.dataWrite_keeps {s t : State} {a : Nat} {v : Byte} (h : s.dataWrite a v = some t) :
    t.device = s.device ∧ t.pc = s.pc ∧ t.prog = s.prog ∧ t.temp = s.temp ∧ t.blbits = s.blbits ∧
      t.draws = s.draws := by
  rcases State.dataWrite_cases h with ⟨i, -, rfl⟩ | ⟨q, -, rfl⟩ | ⟨-, rfl⟩
  · exact ⟨rfl, rfl, rfl, rfl, rfl, rfl⟩
  · rcases s.ioWrite_cases q v with ⟨c, -, h⟩ | ⟨-, h⟩
    · rw [h]
      cases c <;> exact ⟨rfl, rfl, rfl, rfl, rfl, rfl⟩
    · rw [h]
      exact ⟨rfl, rfl, rfl, rfl, rfl, rfl⟩
  · exact ⟨rfl, rfl, rfl, rfl, rfl, rfl⟩

/-! ### The stack -/

/-- Everything the three pushes of EICALL can do: each is a data write at the address that the SP left by the
one before it gives, and SP goes down by 3 (R212). -/
theorem State.pushReturn_cases {s t : State} {ret : BitVec 24} (h : s.pushReturn ret = some t) :
    ∃ u v w, s.dataWrite s.sp.toNat (ret.extractLsb' 0 8) = some u ∧
      u.dataWrite (u.device.spOf (u.sp - 1)).toNat (ret.extractLsb' 8 8) = some v ∧
      v.dataWrite (v.device.spOf (v.sp - 2)).toNat (ret.extractLsb' 16 8) = some w ∧
      t = w.setSp (w.sp - 3) := by
  unfold State.pushReturn at h
  split at h
  · cases h
  · next u hu =>
    split at h
    · cases h
    · next v hv =>
      split at h
      · cases h
      · next w hw => exact ⟨u, v, w, hu, hv, hw, (Option.some.inj h).symm⟩

/-- The addresses of `returnAddrs` are the three addresses written, where all three are. -/
theorem State.returnAddrs_eq {s u v : State} {ret : BitVec 24}
    (hu : s.dataWrite s.sp.toNat (ret.extractLsb' 0 8) = some u)
    (hv : u.dataWrite (u.device.spOf (u.sp - 1)).toNat (ret.extractLsb' 8 8) = some v) :
    s.returnAddrs ret = [s.sp.toNat, (u.device.spOf (u.sp - 1)).toNat, (v.device.spOf (v.sp - 2)).toNat] := by
  simp only [State.returnAddrs, hu, hv]

/-! ### Program memory -/

/-- `progByte` answers exactly below `PROG_WORDS` (R68). -/
theorem State.progByte_isSome {s : State} {b : Nat} :
    (s.progByte b).isSome = true ↔ b / 2 < s.device.progWords := by
  unfold State.progByte
  split
  · cases Memory.read s.prog b <;> simp_all
  · simp_all

end Sys2Proof.Machine
end

