-- ==== Sys2Proof/Laws/Programmer.lean ====
section
/-! SUPPORT. What SPM and ESPM can do: the words an operation leaves in program memory, and one lemma that
says everything the device's `SpmOp` changes. -/

namespace Sys2Proof.Machine

/-! ### Words of program memory -/

/-- What `writePageWords` leaves at each word: the value of its offset where the word is one of the `n`
from `base` on and implemented, the old word elsewhere. -/
theorem State.writePageWords_readWord (s : State) (base : Nat) (value : Nat → Word) (n w : Nat) :
    Memory.readWord (s.writePageWords base value n) w =
      if base ≤ w ∧ w < base + n ∧ w < s.device.progWords then some (value (w - base))
      else Memory.readWord s.prog w := by
  induction n with
  | zero =>
    have : ¬ (base ≤ w ∧ w < base + 0 ∧ w < s.device.progWords) := by omega
    rw [if_neg this]
    rfl
  | succ n ih =>
    simp only [State.writePageWords]
    split
    · next hlt =>
      rw [Memory.readWord_writeWord]
      by_cases hw : w = base + n
      · subst hw
        rw [if_pos rfl, if_pos ⟨by omega, by omega, hlt⟩]
        congr 2
        omega
      · rw [if_neg hw, ih]
        by_cases hc : base ≤ w ∧ w < base + n ∧ w < s.device.progWords
        · rw [if_pos hc, if_pos ⟨hc.1, by omega, hc.2.2⟩]
        · rw [if_neg hc, if_neg (by omega)]
    · next hge =>
      rw [ih]
      by_cases hc : base ≤ w ∧ w < base + n ∧ w < s.device.progWords
      · rw [if_pos hc, if_pos ⟨hc.1, by omega, hc.2.2⟩]
      · rw [if_neg hc, if_neg (by omega)]

/-- What `writeWords` leaves at each word: what `value` makes of the first listed value of a word that is
implemented, the old word elsewhere. -/
theorem State.writeWords_readWord (s : State) (value : Nat → Word → Word) (us : List (Nat × Word))
    (w : Nat) :
    Memory.readWord (s.writeWords value us) w =
      if w < s.device.progWords then
        match us.lookup w with
        | some v => some (value w v)
        | none => Memory.readWord s.prog w
      else Memory.readWord s.prog w := by
  induction us with
  | nil => simp [State.writeWords]
  | cons u us ih =>
    obtain ⟨k, v⟩ := u
    simp only [State.writeWords]
    by_cases hk : w = k
    · subst hk
      split
      · simp [Memory.readWord_writeWord]
      · simp [*]
    · have hb : (w == k) = false := by simp [hk]
      split
      · rw [Memory.readWord_writeWord, if_neg hk, ih, List.lookup_cons, hb]
      · rw [ih, List.lookup_cons, hb]

/-! ### `SpmOp` -/

/-- Everything a device's own `SpmOp` can do (R228): it refuses, or its answer is carried out. -/
theorem State.suppliedOp_cases (s : State) (n : Nat) (addr : BitVec 24) (v : Word) :
    (((s.spmcr = 0x03 ∨ s.spmcr = 0x05) ∧ s.device.progWords ≤ addr.toNat / 2) ∧
      s.suppliedOp n addr v = .error .programAddressNotImplemented) ∨
    (¬ ((s.spmcr = 0x03 ∨ s.spmcr = 0x05) ∧ s.device.progWords ≤ addr.toNat / 2) ∧
      ((Config.spmOp n s.spmcr addr v s.prog s.temp s.blbits = none ∧
        s.suppliedOp n addr v = .error .spmRefused) ∨
      ∃ r, Config.spmOp n s.spmcr addr v s.prog s.temp s.blbits = some r ∧
        s.suppliedOp n addr v = .ok (s.suppliedAnswer addr r))) := by
  unfold State.suppliedOp
  split
  · next h => exact .inl ⟨h, rfl⟩
  · next h =>
    refine .inr ⟨h, ?_⟩
    cases Config.spmOp n s.spmcr addr v s.prog s.temp s.blbits with
    | none => exact .inl ⟨rfl, rfl⟩
    | some r => exact .inr ⟨r, rfl, rfl⟩

/-- Everything SPM and ESPM can do where they complete: carry out the operation that the device describes, or
the answer of the device's own `SpmOp`. -/
theorem State.runSpmOp_cases {s t : State} {addr : BitVec 24} {v : Word} (h : s.runSpmOp addr v = .ok t) :
    (∃ p, s.device.spm = .facts p ∧ s.spmOp p addr v = some t) ∨
    (∃ n r, s.device.spm = .supplied n ∧ t = s.suppliedAnswer addr r) := by
  unfold State.runSpmOp at h
  cases hs : s.device.spm with
  | absent => simp [hs] at h
  | facts p =>
    simp only [hs] at h
    cases ho : s.spmOp p addr v with
    | none => simp [ho] at h
    | some u =>
      simp only [ho, Except.ok.injEq] at h
      exact .inl ⟨p, rfl, h ▸ ho⟩
  | supplied n =>
    simp only [hs] at h
    rcases s.suppliedOp_cases n addr v with ⟨-, he⟩ | ⟨-, ⟨-, he⟩ | ⟨r, -, he⟩⟩
    · rw [he] at h; cases h
    · rw [he] at h; cases h
    · rw [he] at h; cases h; exact .inr ⟨n, r, rfl, rfl⟩

/-- What an operation that the device describes can change (R228). -/
theorem State.spmOp_frame {s t : State} {p : SpmDevice} {addr : BitVec 24} {v : Word}
    (h : s.spmOp p addr v = some t) :
    s.sameBut t ({.spmcr, .draws, .temp, .blbits} ∪ Set.range Piece.prog) := by
  unfold State.spmOp at h
  split at h
  · cases h
  · cases h
    generalize p.operation s.spmcr s.draws = op
    refine ⟨by cases op <;> rfl, fun q hq => ?_⟩
    cases q <;> simp at hq <;> (cases op <;> rfl)

/-- What the answer of a device's own `SpmOp` can change (R228). -/
theorem State.suppliedAnswer_frame (s : State) (addr : BitVec 24) (r : SpmAnswer) :
    s.sameBut (s.suppliedAnswer addr r) ({.spmcr, .draws, .temp, .blbits} ∪ Set.range Piece.prog) := by
  refine ⟨rfl, fun q hq => ?_⟩
  cases q <;> simp at hq <;> rfl

/-- Nothing outside program memory, TEMP, BLBITS and SPMCR changes, whatever the device's `SpmOp` (R228). -/
theorem State.runSpmOp_frame {s t : State} {addr : BitVec 24} {v : Word} (h : s.runSpmOp addr v = .ok t) :
    s.sameBut t ({.spmcr, .draws, .temp, .blbits} ∪ Set.range Piece.prog) := by
  rcases State.runSpmOp_cases h with ⟨p, -, ho⟩ | ⟨n, r, -, rfl⟩
  · exact State.spmOp_frame ho
  · exact s.suppliedAnswer_frame addr r

end Sys2Proof.Machine
end

