-- ==== Sys2Proof/Laws/Invariant.lean ====
section
/-! SUPPORT. Every shared operation keeps the invariant of the machine. -/

namespace Sys2Proof.Machine

/-- PC arithmetic stays below `2^PC_BITS` (R28). -/
theorem Device.pcOf_lt {d : Device} (hd : d.Valid) (n : Nat) : (d.pcOf n).toNat < 2 ^ d.pcBits := by
  have hb : d.pcBits ≤ 22 := by
    rcases hd.1 with h | h <;> omega
  have hm : n % 2 ^ d.pcBits < 2 ^ d.pcBits := Nat.mod_lt _ (Nat.two_pow_pos _)
  have hp : 2 ^ d.pcBits ≤ 2 ^ 22 := Nat.pow_le_pow_right (by omega) hb
  simp only [Device.pcOf, BitVec.toNat_ofNat]
  exact lt_of_le_of_lt (Nat.mod_le _ _) hm

theorem State.Inv.setReg {s : State} (h : s.Inv) (i : Reg) (v : Byte) : (s.setReg i v).Inv :=
  ⟨h.1, h.2, h.3, h.4, h.5, h.6, h.7, h.8, h.9⟩

theorem State.Inv.setPair {s : State} (h : s.Inv) (i : Reg) (v : Word) : (s.setPair i v).Inv :=
  (h.setReg _ _).setReg _ _

theorem State.Inv.setPtr {s : State} (h : s.Inv) (p : Pointer) (v : Word) : (s.setPtr p v).Inv :=
  (h.setReg _ _).setReg _ _

theorem State.Inv.setPc {s : State} (h : s.Inv) {pc : PcWord} (hpc : pc.toNat < 2 ^ s.device.pcBits) :
    State.Inv { s with pc := pc } :=
  ⟨h.1, hpc, h.3, h.4, h.5, h.6, h.7, h.8, h.9⟩

theorem State.Inv.advance {s : State} (h : s.Inv) (n : Nat) : (s.advance n).Inv :=
  h.setPc (Device.pcOf_lt h.device_valid _)

theorem State.Inv.setSp {s : State} (h : s.Inv) (v : Word) : (s.setSp v).Inv :=
  ⟨h.1, h.2, Device.spOf_idem _ _, h.4, h.5, h.6, h.7, h.8, h.9⟩

theorem State.Inv.setSreg {s : State} (h : s.Inv) (v : Byte) : State.Inv { s with sreg := v } :=
  ⟨h.1, h.2, h.3, h.4, h.5, h.6, h.7, h.8, h.9⟩

theorem State.Inv.setRampz {s : State} (h : s.Inv) (v : Byte) : State.Inv { s with rampz := v } :=
  ⟨h.1, h.2, h.3, h.4, h.5, h.6, h.7, h.8, h.9⟩

theorem State.Inv.setDraws {s : State} (h : s.Inv) (n : Nat) : State.Inv { s with draws := n } :=
  ⟨h.1, h.2, h.3, h.4, h.5, h.6, h.7, h.8, h.9⟩

theorem State.Inv.setCoreReg {s : State} (h : s.Inv) (c : CoreReg) (v : Byte) :
    (s.setCoreReg c v).Inv := by
  cases c with
  | spl => exact h.setSp _
  | sph => exact h.setSp _
  | _ => exact ⟨h.1, h.2, h.3, h.4, h.5, h.6, h.7, h.8, h.9⟩

theorem State.Inv.ioWrite {s : State} (h : s.Inv) (p : IoAddr) (v : Byte) : (s.ioWrite p v).Inv := by
  rcases s.ioWrite_cases p v with ⟨c, -, hw⟩ | ⟨-, hw⟩
  · rw [hw]; exact h.setCoreReg c v
  · rw [hw]; exact ⟨h.1, h.2, h.3, h.4, h.5, h.6, h.7, h.8, h.9⟩

theorem State.Inv.ioRead {s : State} (h : s.Inv) (p : IoAddr) : (s.ioRead p).2.Inv := by
  rcases s.ioRead_cases p with ⟨c, -, hr⟩ | ⟨-, hr⟩
  · rw [hr]; exact h
  · rw [hr]; exact h.setDraws _

theorem State.Inv.dataRead {s t : State} (h : s.Inv) {a : Nat} {v : Byte}
    (hr : s.dataRead a = some (v, t)) : t.Inv := by
  obtain ⟨n, -, rfl⟩ := State.dataRead_some hr
  exact h.setDraws _

/-- SRAM lies from 0x0060 to RAMEND (R63). -/
theorem Device.place_sram {d : Device} {a : Nat} (h : d.place a = .sram) :
    sramStart ≤ a ∧ a ≤ d.ramend := by
  unfold Device.place at h
  split_ifs at h with h1 h2 h3
  · cases hm : d.dataMap <;> simp [hm] at h
  · cases hm : d.dataMap <;> simp [hm] at h
  · exact ⟨Nat.le_of_not_lt h2, h3⟩

theorem State.Inv.dataWrite {s t : State} (h : s.Inv) {a : Nat} {v : Byte}
    (hw : s.dataWrite a v = some t) : t.Inv := by
  rcases State.dataWrite_cases hw with ⟨i, -, rfl⟩ | ⟨p, -, rfl⟩ | ⟨hp, rfl⟩
  · exact h.setReg i v
  · exact h.ioWrite p v
  · refine ⟨h.1, h.2, h.3, Memory.write_wf _ _ h.data_wf, fun c hc => ?_, h.6, h.7, h.8, h.9⟩
    rcases Memory.mem_write hc with rfl | hc
    · exact Device.place_sram hp
    · exact h.data_range c hc

theorem State.Inv.pushByte {s t : State} (h : s.Inv) {v : Byte} (hp : s.pushByte v = some t) :
    t.Inv := by
  unfold State.pushByte at hp
  split at hp
  · next hw => cases hp; exact (h.dataWrite hw).setSp _
  · cases hp

theorem State.Inv.popByte {s t : State} (h : s.Inv) {v : Byte} (hp : s.popByte = some (v, t)) :
    t.Inv :=
  (h.setSp _).dataRead hp

theorem State.Inv.pushReturn {s t : State} (h : s.Inv) {ret : BitVec 24}
    (hp : s.pushReturn ret = some t) : t.Inv := by
  obtain ⟨u, v, w, h1, h2, h3, rfl⟩ := State.pushReturn_cases hp
  exact (((h.dataWrite h1).dataWrite h2).dataWrite h3).setSp _

/-! ### The program-memory programmer -/

/-- The words of a page are written one by one, and only those the device implements. -/
theorem State.writePageWords_inv (s : State) (base : Nat) (value : Nat → Word) (n : Nat)
    (hw : Memory.wf s.prog) (hr : ∀ c ∈ s.prog, c.1 < 2 * s.device.progWords) :
    Memory.wf (s.writePageWords base value n) ∧
      ∀ c ∈ s.writePageWords base value n, c.1 < 2 * s.device.progWords := by
  induction n with
  | zero => exact ⟨hw, hr⟩
  | succ n ih =>
    simp only [State.writePageWords]
    split
    · next hlt =>
      refine ⟨Memory.writeWord_wf _ _ ih.1, fun c hc => ?_⟩
      rcases Memory.mem_writeWord hc with hc | hc | hc
      · omega
      · omega
      · exact ih.2 c hc
    · exact ih

theorem State.Inv.spmApply {s : State} (h : s.Inv) {p : SpmDevice} (hp : p ∈ s.device.spm.described)
    (op : SpmOperation) {w : Nat} (v : Word) (hw : op = .writeWord → w < s.device.progWords) :
    (s.spmApply p op w v).Inv := by
  cases op with
  | erasePage =>
    obtain ⟨h1, h2⟩ := s.writePageWords_inv (p.pageBase w) (fun _ => 0xFFFF) p.pageWords
      h.prog_wf h.prog_range
    exact ⟨h.1, h.2, h.3, h.4, h.5, h1, h2, h.8, h.9⟩
  | writeWord =>
    refine ⟨h.1, h.2, h.3, h.4, h.5, Memory.writeWord_wf _ _ h.prog_wf, fun c hc => ?_, h.8, h.9⟩
    have hlt := hw rfl
    change c.1 < 2 * s.device.progWords
    rcases Memory.mem_writeWord hc with hc | hc | hc
    · omega
    · omega
    · exact h.prog_range c hc
  | fillBuffer =>
    refine ⟨h.1, h.2, h.3, h.4, h.5, h.6, h.7, Memory.writeWord_wf _ _ h.temp_wf, fun q hq c hc => ?_⟩
    change q ∈ s.device.spm.described at hq
    have hpq : q = p := by
      rw [Option.mem_def] at hp hq
      rw [hp] at hq
      exact (Option.some.inj hq).symm
    subst hpq
    have h0 : 1 ≤ q.pageWords := (h.device_valid.2.2.2.2.2.2.2.2 q hq).1
    have hm : w % q.pageWords < q.pageWords := Nat.mod_lt _ h0
    rcases Memory.mem_writeWord hc with hc | hc | hc
    · omega
    · omega
    · exact h.temp_range q hq c hc
  | writePage =>
    obtain ⟨h1, h2⟩ := s.writePageWords_inv (p.pageBase w)
      (fun i => s.programmed (p.pageBase w + i) (s.tempWord i)) p.pageWords h.prog_wf h.prog_range
    exact ⟨h.1, h.2, h.3, h.4, h.5, h1, h2, h.8, h.9⟩
  | setLockBits => exact ⟨h.1, h.2, h.3, h.4, h.5, h.6, h.7, h.8, h.9⟩
  | nothing => exact h

/-- A word write is performed only where the address has been checked (R68). -/
theorem SpmDevice.addressesProgram_of_writeWord {p : SpmDevice} {spmcr : Byte} {n : Nat}
    (h : p.operation spmcr n = .writeWord) : p.addressesProgram spmcr = true := by
  unfold SpmDevice.operation at h
  unfold SpmDevice.addressesProgram
  cases hs : p.select spmcr with
  | none => rfl
  | some op =>
    rw [hs] at h
    simp only at h
    subst h
    rfl

theorem State.Inv.spmOp {s t : State} (h : s.Inv) {p : SpmDevice} (hp : p ∈ s.device.spm.described)
    {addr : BitVec 24} {v : Word} (ht : s.spmOp p addr v = some t) : t.Inv := by
  unfold State.spmOp at ht
  split at ht
  · cases ht
  · next hc =>
    cases ht
    have hi : (s.spmApply p (p.operation s.spmcr s.draws) (addr.toNat / 2) v).Inv := by
      refine h.spmApply hp _ v fun hop => ?_
      have := SpmDevice.addressesProgram_of_writeWord hop
      by_contra hlt
      exact hc ⟨this, Nat.le_of_not_lt hlt⟩
    exact ⟨hi.1, hi.2, hi.3, hi.4, hi.5, hi.6, hi.7, hi.8, hi.9⟩

/-! ### A device's own `SpmOp` -/

/-- The listed words are written one by one, and only those the device implements. -/
theorem State.writeWords_inv (s : State) (value : Nat → Word → Word) (us : List (Nat × Word))
    (hw : Memory.wf s.prog) (hr : ∀ c ∈ s.prog, c.1 < 2 * s.device.progWords) :
    Memory.wf (s.writeWords value us) ∧
      ∀ c ∈ s.writeWords value us, c.1 < 2 * s.device.progWords := by
  induction us with
  | nil => exact ⟨hw, hr⟩
  | cons u us ih =>
    obtain ⟨w, v⟩ := u
    simp only [State.writeWords]
    split
    · next hlt =>
      refine ⟨Memory.writeWord_wf _ _ ih.1, fun c hc => ?_⟩
      rcases Memory.mem_writeWord hc with hc | hc | hc
      · omega
      · omega
      · exact ih.2 c hc
    · exact ih

theorem State.Inv.suppliedAnswer {s : State} (h : s.Inv) {n : Nat} (hn : s.device.spm = .supplied n)
    (addr : BitVec 24) (r : SpmAnswer) : (s.suppliedAnswer addr r).Inv := by
  obtain ⟨h1, h2⟩ := s.writeWords_inv s.suppliedWord (s.suppliedWords addr r) h.prog_wf h.prog_range
  refine ⟨h.1, h.2, h.3, h.4, h.5, h1, h2, Memory.ofCells_wf _, fun p hp => ?_⟩
  change p ∈ s.device.spm.described at hp
  simp [hn, SpmSource.described] at hp

theorem State.Inv.runSpmOp {s t : State} (h : s.Inv) {addr : BitVec 24} {v : Word}
    (ht : s.runSpmOp addr v = .ok t) : t.Inv := by
  rcases State.runSpmOp_cases ht with ⟨p, hp, ho⟩ | ⟨n, r, hn, rfl⟩
  · exact h.spmOp (by simp [hp, SpmSource.described]) ho
  · exact h.suppliedAnswer hn addr r

end Sys2Proof.Machine
end

