-- ==== Sys2Proof/Laws/PerInstr.lean ====
section
/-! SUPPORT. Families of statements about the instruction as syntax, one lemma per constructor. -/

/-- An instruction's first word says how many words it has (rule R100): two exactly for LDS and STS, one
for every other instruction, whatever its operands. -/
def Sys2Proof.Laws.Length.Statement (i : Sys2Proof.Instr) : Prop :=
  ∃ w rest, Sys2Proof.encode i = w :: rest ∧
    rest.length = if Sys2Proof.isTwoWord w then 1 else 0

namespace Sys2Proof.Laws

/-- A first word that differs from `1001 00xd dddd 0000` in a fixed bit is no first word of two. -/
theorem isTwoWord_of_bit {w : Word} (n : Nat) (hm : (0xFC0F : Word).getLsbD n = true)
    (h : w.getLsbD n = !(0x9000 : Word).getLsbD n) : isTwoWord w = false := by
  cases ht : isTwoWord w with
  | false => rfl
  | true =>
    have he : w &&& 0xFC0F = 0x9000 := by simpa [isTwoWord] using ht
    have hb := congrArg (fun v : Word => v.getLsbD n) he
    simp only [BitVec.getLsbD_and, hm, Bool.and_true] at hb
    rw [hb] at h
    cases (0x9000 : Word).getLsbD n <;> simp at h

theorem isTwoWord_encodeReg5Q6 (s y : BitVec 1) (d : Reg) (q : BitVec 6) :
    isTwoWord (encodeReg5Q6 s y d q) = false :=
  isTwoWord_of_bit 12 (by decide) (by simp only [encodeReg5Q6, BitVec.getLsbD_append]; rfl)

theorem isTwoWord_encodeReg5P6 (s : BitVec 1) (d : Reg) (p : IoAddr) :
    isTwoWord (encodeReg5P6 s d p) = false :=
  isTwoWord_of_bit 13 (by decide) (by simp only [encodeReg5P6, BitVec.getLsbD_append]; rfl)

theorem isTwoWord_encodeRd5Rr5 (d r : Reg) : isTwoWord (encodeRd5Rr5 0b001011 d r) = false :=
  isTwoWord_of_bit 15 (by decide) (by simp only [encodeRd5Rr5, BitVec.getLsbD_append]; rfl)

theorem isTwoWord_encodeRd4K8 (d : Reg) (K : Byte) : isTwoWord (encodeRd4K8 0b1110 d K) = false :=
  isTwoWord_of_bit 14 (by decide) (by simp only [encodeRd4K8, BitVec.getLsbD_append]; rfl)

theorem isTwoWord_encodeRd3Rr3 (o7 o3 : BitVec 1) (d r : Reg) :
    isTwoWord (encodeRd3Rr3 o7 o3 d r) = false :=
  isTwoWord_of_bit 15 (by decide) (by simp only [encodeRd3Rr3, BitVec.getLsbD_append]; rfl)

theorem isTwoWord_encodeRd4Rr4 (d r : Reg) : isTwoWord (encodeRd4Rr4 0b00000010 d r) = false :=
  isTwoWord_of_bit 15 (by decide) (by simp only [encodeRd4Rr4, BitVec.getLsbD_append]; rfl)

theorem isTwoWord_encodeRd4Rr4Pair (d r : Reg) :
    isTwoWord (encodeRd4Rr4Pair 0b00000001 d r) = false :=
  isTwoWord_of_bit 15 (by decide) (by simp only [encodeRd4Rr4Pair, BitVec.getLsbD_append]; rfl)

theorem Length.mov (d r : Reg) : Length.Statement (.mov d r) :=
  ⟨_, _, rfl, by
    rw [isTwoWord_encodeRd5Rr5]
    rfl⟩

theorem Length.lds (d : Reg) (k : Word) : Length.Statement (.lds d k) :=
  ⟨_, _, rfl, by
    show 1 = _
    revert d
    decide⟩

theorem Length.sts (k : Word) (r : Reg) : Length.Statement (.sts k r) :=
  ⟨_, _, rfl, by
    show 1 = _
    revert r
    decide⟩

theorem Length.ldi (d : Reg) (K : Byte) : Length.Statement (.ldi d K) :=
  ⟨_, _, rfl, by
    rw [isTwoWord_encodeRd4K8]
    rfl⟩

theorem Length.ldX (d : Reg) : Length.Statement (.ldX d) :=
  ⟨_, _, rfl, by
    revert d
    decide⟩

theorem Length.ldXInc (d : Reg) : Length.Statement (.ldXInc d) :=
  ⟨_, _, rfl, by
    revert d
    decide⟩

theorem Length.ldXDec (d : Reg) : Length.Statement (.ldXDec d) :=
  ⟨_, _, rfl, by
    revert d
    decide⟩

theorem Length.stX (r : Reg) : Length.Statement (.stX r) :=
  ⟨_, _, rfl, by
    revert r
    decide⟩

theorem Length.stXInc (r : Reg) : Length.Statement (.stXInc r) :=
  ⟨_, _, rfl, by
    revert r
    decide⟩

theorem Length.stXDec (r : Reg) : Length.Statement (.stXDec r) :=
  ⟨_, _, rfl, by
    revert r
    decide⟩

theorem Length.ldY (d : Reg) : Length.Statement (.ldY d) :=
  ⟨_, _, rfl, by
    revert d
    decide⟩

theorem Length.ldYInc (d : Reg) : Length.Statement (.ldYInc d) :=
  ⟨_, _, rfl, by
    revert d
    decide⟩

theorem Length.ldYDec (d : Reg) : Length.Statement (.ldYDec d) :=
  ⟨_, _, rfl, by
    revert d
    decide⟩

theorem Length.lddY (d : Reg) (q : BitVec 6) : Length.Statement (.lddY d q) :=
  ⟨_, _, rfl, by
    rw [isTwoWord_encodeReg5Q6]
    rfl⟩

theorem Length.stY (r : Reg) : Length.Statement (.stY r) :=
  ⟨_, _, rfl, by
    revert r
    decide⟩

theorem Length.stYInc (r : Reg) : Length.Statement (.stYInc r) :=
  ⟨_, _, rfl, by
    revert r
    decide⟩

theorem Length.stYDec (r : Reg) : Length.Statement (.stYDec r) :=
  ⟨_, _, rfl, by
    revert r
    decide⟩

theorem Length.stdY (q : BitVec 6) (r : Reg) : Length.Statement (.stdY q r) :=
  ⟨_, _, rfl, by
    rw [isTwoWord_encodeReg5Q6]
    rfl⟩

theorem Length.ldZ (d : Reg) : Length.Statement (.ldZ d) :=
  ⟨_, _, rfl, by
    revert d
    decide⟩

theorem Length.ldZInc (d : Reg) : Length.Statement (.ldZInc d) :=
  ⟨_, _, rfl, by
    revert d
    decide⟩

theorem Length.ldZDec (d : Reg) : Length.Statement (.ldZDec d) :=
  ⟨_, _, rfl, by
    revert d
    decide⟩

theorem Length.lddZ (d : Reg) (q : BitVec 6) : Length.Statement (.lddZ d q) :=
  ⟨_, _, rfl, by
    rw [isTwoWord_encodeReg5Q6]
    rfl⟩

theorem Length.stZ (r : Reg) : Length.Statement (.stZ r) :=
  ⟨_, _, rfl, by
    revert r
    decide⟩

theorem Length.stZInc (r : Reg) : Length.Statement (.stZInc r) :=
  ⟨_, _, rfl, by
    revert r
    decide⟩

theorem Length.stZDec (r : Reg) : Length.Statement (.stZDec r) :=
  ⟨_, _, rfl, by
    revert r
    decide⟩

theorem Length.stdZ (q : BitVec 6) (r : Reg) : Length.Statement (.stdZ q r) :=
  ⟨_, _, rfl, by
    rw [isTwoWord_encodeReg5Q6]
    rfl⟩

theorem Length.lpm : Length.Statement .lpm :=
  ⟨_, _, rfl, by decide⟩

theorem Length.inp (d : Reg) (p : IoAddr) : Length.Statement (.inp d p) :=
  ⟨_, _, rfl, by
    rw [isTwoWord_encodeReg5P6]
    rfl⟩

theorem Length.out (p : IoAddr) (r : Reg) : Length.Statement (.out p r) :=
  ⟨_, _, rfl, by
    rw [isTwoWord_encodeReg5P6]
    rfl⟩

theorem Length.push (r : Reg) : Length.Statement (.push r) :=
  ⟨_, _, rfl, by
    revert r
    decide⟩

theorem Length.pop (d : Reg) : Length.Statement (.pop d) :=
  ⟨_, _, rfl, by
    revert d
    decide⟩

theorem Length.eicall : Length.Statement .eicall :=
  ⟨_, _, rfl, by decide⟩

theorem Length.eijmp : Length.Statement .eijmp :=
  ⟨_, _, rfl, by decide⟩

theorem Length.elpm : Length.Statement .elpm :=
  ⟨_, _, rfl, by decide⟩

theorem Length.elpmZ (d : Reg) : Length.Statement (.elpmZ d) :=
  ⟨_, _, rfl, by
    revert d
    decide⟩

theorem Length.elpmZInc (d : Reg) : Length.Statement (.elpmZInc d) :=
  ⟨_, _, rfl, by
    revert d
    decide⟩

theorem Length.espm : Length.Statement .espm :=
  ⟨_, _, rfl, by decide⟩

theorem Length.fmul (d r : Reg) : Length.Statement (.fmul d r) :=
  ⟨_, _, rfl, by
    rw [isTwoWord_encodeRd3Rr3]
    rfl⟩

theorem Length.fmuls (d r : Reg) : Length.Statement (.fmuls d r) :=
  ⟨_, _, rfl, by
    rw [isTwoWord_encodeRd3Rr3]
    rfl⟩

theorem Length.fmulsu (d r : Reg) : Length.Statement (.fmulsu d r) :=
  ⟨_, _, rfl, by
    rw [isTwoWord_encodeRd3Rr3]
    rfl⟩

theorem Length.movw (d r : Reg) : Length.Statement (.movw d r) :=
  ⟨_, _, rfl, by
    rw [isTwoWord_encodeRd4Rr4Pair]
    rfl⟩

theorem Length.muls (d r : Reg) : Length.Statement (.muls d r) :=
  ⟨_, _, rfl, by
    rw [isTwoWord_encodeRd4Rr4]
    rfl⟩

theorem Length.mulsu (d r : Reg) : Length.Statement (.mulsu d r) :=
  ⟨_, _, rfl, by
    rw [isTwoWord_encodeRd3Rr3]
    rfl⟩

theorem Length.spm : Length.Statement .spm :=
  ⟨_, _, rfl, by decide⟩

end Sys2Proof.Laws
end

