-- ==== Sys2Proof/Machine/Run.lean ====
section
/-! DEFINITION. A run and its end (70_reset_and_hazards.md R299). -/

namespace Sys2Proof.Machine

/-- How a run of a given number of steps stands. -/
inductive RunEnd where
  /-- `pc` has reached the end address, and the word there is not fetched. -/
  | reachedEnd
  /-- The next step is a fault. -/
  | fault (r : Fault)
  /-- The next step is a refusal. -/
  | refused (r : Refusal)
  /-- The run goes on: the steps asked for are used up. -/
  | notEnded
deriving DecidableEq, Repr

/-- A run of at most `fuel` steps: it ends when a step is a fault or a refusal, or when `pc` reaches the end
address the run names, before that word is fetched. The result is how it ended and the whole state at that
point (R299). -/
def runTo (endPc : PcWord) : (fuel : Nat) → State → RunEnd × State
  | 0, s => (if s.pc = endPc then .reachedEnd else .notEnded, s)
  | fuel + 1, s =>
    if s.pc = endPc then (.reachedEnd, s)
    else
      match step s with
      | .next s' => runTo endPc fuel s'
      | .fault r => (.fault r, s)
      | .refused r => (.refused r, s)

end Sys2Proof.Machine
end

