-- ==== Sys2Proof/Laws/Run.lean ====
section
/-! SUPPORT. What a run answers (R299). -/

namespace Sys2Proof.Machine

/-- What holds of the state a run stops in, by the reason it gives: at the end address it is there, and a
fault or a refusal is the answer of the next step, before which `pc` was not at the end address. -/
theorem runTo_spec (endPc : PcWord) (fuel : Nat) (s : State) :
    match runTo endPc fuel s with
    | (.reachedEnd, t) => t.pc = endPc
    | (.fault r, t) => t.pc ≠ endPc ∧ step t = .fault r
    | (.refused r, t) => t.pc ≠ endPc ∧ step t = .refused r
    | (.notEnded, t) => t.pc ≠ endPc := by
  induction fuel generalizing s with
  | zero =>
    by_cases h : s.pc = endPc <;> simp [runTo, h]
  | succ n ih =>
    by_cases h : s.pc = endPc
    · simp [runTo, h]
    · cases hs : step s with
      | next s' => simpa [runTo, h, hs] using ih s'
      | fault r => simp [runTo, h, hs]
      | refused r => simp [runTo, h, hs]

/-- A run goes on from the state its first step leaves. -/
theorem runTo_next {endPc : PcWord} {s s' : State} (fuel : Nat) (h : s.pc ≠ endPc)
    (hs : step s = .next s') : runTo endPc (fuel + 1) s = runTo endPc fuel s' := by
  simp [runTo, h, hs]

end Sys2Proof.Machine
end

