-- ==== Sys2Proof/Tests/Slice0.lean ====
section
/-! SUPPORT. The model's own tests: words of the spec's encodings and what they decode to, ill-formed
instructions refused, one step of each instruction with the values of 95_test_vectors.md, and a witness of
the hypotheses of each statement that has some. The vector a test takes its numbers from is named before
it. -/

open Sys2Proof Sys2Proof.Machine

namespace Sys2Proof.Tests

set_option Elab.async false

/-! ### Devices and states -/

/-- The device of 95_test_vectors.md section 3.4, with every optional group. -/
def doc1 : Device :=
  { Device.full with
    progWords := 0x20000, dataBits := .b16, ramend := 0x10FF
    spm := .facts { pageWords := 4, buffered := true, lockCode := 0x09 } }

/-- The same device without a temporary page buffer. -/
def doc1Words : Device :=
  { doc1 with spm := .facts { pageWords := 4, buffered := false, lockCode := 0x09 } }

/-- A device with 24-bit data addresses. -/
def wide : Device := { Device.full with ramend := 0x3FFFF }

/-- A state with the words placed from `pc` on, registers and data bytes set, all else as after reset. -/
def machine (d : Device) (pc : PcWord) (words : List Word) (regs : List (Reg × Byte))
    (mem : List Host.Cell) : State :=
  (regs.foldl (fun (s : State) r => s.setReg r.1 r.2)
    { State.reset with device := d, pc := pc, data := mem }).storeWords pc words

/-- A state for `exec`, with no program. -/
def idle (d : Device) (regs : List (Reg × Byte)) (mem : List Host.Cell) : State := machine d 0 [] regs mem

/-- X, Y and Z all at `a`. -/
def pointersAt (a : Word) : List (Reg × Byte) :=
  [(26, loByte a), (27, hiByte a), (28, loByte a), (29, hiByte a), (30, loByte a), (31, hiByte a)]

/-- What a step leaves of a state, where it answers a next state. -/
def after {α : Type} (s : State) (f : State → α) : Option α :=
  match step s with
  | .next t => some (f t)
  | .fault _ => none
  | .refused _ => none

/-- How a step stops. -/
def stop (s : State) : Option (Fault ⊕ Refusal) :=
  match step s with
  | .next _ => none
  | .fault r => some (.inl r)
  | .refused r => some (.inr r)

/-! ### Decoding and encoding: words of 95_test_vectors.md sections 1 and 2, bit by bit -/

theorem test_decode_direct :
    decodeTableWord 16 0b0010110100000000 = some (.mov 16 0) ∧
    decodeTableWord 32 0b00000010000000001001000000100000 = some (.lds 2 0x0200) ∧
    decodeTableWord 32 0b00000010000000001001001000100000 = some (.sts 0x0200 2) ∧
    decodeTableWord 16 0b1110111111100000 = some (.ldi 30 0xF0) := by decide

theorem test_encode_direct :
    encode (.mov 16 0) = [0x2D00] ∧
    encode (.lds 2 0x0200) = [0x9020, 0x0200] ∧
    encode (.sts 0x0200 2) = [0x9220, 0x0200] ∧
    encode (.ldi 30 0xF0) = [0xEFE0] := by decide

theorem test_decode_x :
    decodeTableWord 16 0b1001000000011100 = some (.ldX 1) ∧
    decodeTableWord 16 0b1001000000001101 = some (.ldXInc 0) ∧
    decodeTableWord 16 0b1001000000111110 = some (.ldXDec 3) ∧
    decodeTableWord 16 0b1001001000011100 = some (.stX 1) ∧
    decodeTableWord 16 0b1001001000001101 = some (.stXInc 0) ∧
    decodeTableWord 16 0b1001001000111110 = some (.stXDec 3) := by decide

theorem test_encode_x :
    encode (.ldX 1) = [0x901C] ∧
    encode (.ldXInc 0) = [0x900D] ∧
    encode (.ldXDec 3) = [0x903E] ∧
    encode (.stX 1) = [0x921C] ∧
    encode (.stXInc 0) = [0x920D] ∧
    encode (.stXDec 3) = [0x923E] := by decide

theorem test_decode_y :
    decodeTableWord 16 0b1000000000011000 = some (.ldY 1) ∧
    decodeTableWord 16 0b1001000000001001 = some (.ldYInc 0) ∧
    decodeTableWord 16 0b1001000000111010 = some (.ldYDec 3) ∧
    decodeTableWord 16 0b1000000001001010 = some (.lddY 4 2) ∧
    decodeTableWord 16 0b1000001000011000 = some (.stY 1) ∧
    decodeTableWord 16 0b1001001000001001 = some (.stYInc 0) ∧
    decodeTableWord 16 0b1001001000111010 = some (.stYDec 3) ∧
    decodeTableWord 16 0b1000001001001010 = some (.stdY 2 4) := by decide

theorem test_encode_y :
    encode (.ldY 1) = [0x8018] ∧
    encode (.ldYInc 0) = [0x9009] ∧
    encode (.ldYDec 3) = [0x903A] ∧
    encode (.lddY 4 2) = [0x804A] ∧
    encode (.stY 1) = [0x8218] ∧
    encode (.stYInc 0) = [0x9209] ∧
    encode (.stYDec 3) = [0x923A] ∧
    encode (.stdY 2 4) = [0x824A] := by decide

theorem test_decode_z :
    decodeTableWord 16 0b1000000001110000 = some (.ldZ 7) ∧
    decodeTableWord 16 0b1001000000000001 = some (.ldZInc 0) ∧
    decodeTableWord 16 0b1001000000110010 = some (.ldZDec 3) ∧
    decodeTableWord 16 0b1000000001010111 = some (.lddZ 5 7) ∧
    decodeTableWord 16 0b1000001000010000 = some (.stZ 1) ∧
    decodeTableWord 16 0b1001001000000001 = some (.stZInc 0) ∧
    decodeTableWord 16 0b1001001000110010 = some (.stZDec 3) ∧
    decodeTableWord 16 0b1000001001000010 = some (.stdZ 2 4) := by decide

theorem test_encode_z :
    encode (.ldZ 7) = [0x8070] ∧
    encode (.ldZInc 0) = [0x9001] ∧
    encode (.ldZDec 3) = [0x9032] ∧
    encode (.lddZ 5 7) = [0x8057] ∧
    encode (.stZ 1) = [0x8210] ∧
    encode (.stZInc 0) = [0x9201] ∧
    encode (.stZDec 3) = [0x9232] ∧
    encode (.stdZ 2 4) = [0x8242] := by decide

theorem test_decode_system :
    decodeTableWord 16 0b1001010111001000 = some .lpm ∧
    decodeTableWord 16 0b1011001110011011 = some (.inp 25 0x1B) ∧
    decodeTableWord 16 0b1011101101000111 = some (.out 0x17 20) ∧
    decodeTableWord 16 0b1001001011011111 = some (.push 13) ∧
    decodeTableWord 16 0b1001000011011111 = some (.pop 13) ∧
    decodeTableWord 16 0b1001010100011001 = some .eicall ∧
    decodeTableWord 16 0b1001010000011001 = some .eijmp ∧
    decodeTableWord 16 0b1001010111011000 = some .elpm ∧
    decodeTableWord 16 0b1001000001110110 = some (.elpmZ 7) ∧
    decodeTableWord 16 0b1001000100000111 = some (.elpmZInc 16) ∧
    decodeTableWord 16 0b1001010111111000 = some .espm ∧
    decodeTableWord 16 0b1001010111101000 = some .spm := by decide

theorem test_encode_system :
    encode .lpm = [0x95C8] ∧
    encode (.inp 25 0x1B) = [0xB39B] ∧
    encode (.out 0x17 20) = [0xBB47] ∧
    encode (.push 13) = [0x92DF] ∧
    encode (.pop 13) = [0x90DF] ∧
    encode .eicall = [0x9519] ∧
    encode .eijmp = [0x9419] ∧
    encode .elpm = [0x95D8] ∧
    encode (.elpmZ 7) = [0x9076] ∧
    encode (.elpmZInc 16) = [0x9107] ∧
    encode .espm = [0x95F8] ∧
    encode .spm = [0x95E8] := by decide

theorem test_decode_multiply :
    decodeTableWord 16 0b0000001101111110 = some (.fmul 23 22) ∧
    decodeTableWord 16 0b0000001111110110 = some (.fmuls 23 22) ∧
    decodeTableWord 16 0b0000001111111110 = some (.fmulsu 23 22) ∧
    decodeTableWord 16 0b0000000110000000 = some (.movw 16 0) ∧
    decodeTableWord 16 0b0000001001010100 = some (.muls 21 20) ∧
    decodeTableWord 16 0b0000001101010100 = some (.mulsu 21 20) := by decide

theorem test_encode_multiply :
    encode (.fmul 23 22) = [0x037E] ∧
    encode (.fmuls 23 22) = [0x03F6] ∧
    encode (.fmulsu 23 22) = [0x03FE] ∧
    encode (.movw 16 0) = [0x0180] ∧
    encode (.muls 21 20) = [0x0254] ∧
    encode (.mulsu 21 20) = [0x0354] := by decide


/-- 95_test_vectors.md 2.11 and rule R117: words that match no row. -/
theorem test_decode_unlisted :
    [0x0000, 0x9508, 0x9003, 0x9004, 0x9008, 0x900B, 0x9506].map (decodeTableWord 16) =
      List.replicate 7 none := by decide

/-- 95_test_vectors.md 2.2, rows 22 and 29 to 31: each bit of the displacement. -/
theorem test_decode_displacement :
    decodeTableWord 16 0xAFF7 = some (.stdZ 63 31) ∧ decodeTableWord 16 0xA050 = some (.lddZ 5 32) ∧
    decodeTableWord 16 0x8850 = some (.lddZ 5 16) ∧ decodeTableWord 16 0x8450 = some (.lddZ 5 8) := by
  decide

/-! ### WellFormed refuses an ill-formed instruction, for each check (rule R123) -/

theorem test_illFormed_ldi : (Instr.ldi 15 0xF0).wellFormed = false := by decide
theorem test_illFormed_muls :
    (Instr.muls 15 16).wellFormed = false ∧ (Instr.muls 16 15).wellFormed = false := by decide
theorem test_illFormed_mulsu :
    (Instr.mulsu 15 16).wellFormed = false ∧ (Instr.mulsu 24 16).wellFormed = false ∧
    (Instr.mulsu 16 15).wellFormed = false ∧ (Instr.mulsu 16 24).wellFormed = false := by decide
theorem test_illFormed_fmul :
    (Instr.fmul 15 16).wellFormed = false ∧ (Instr.fmul 24 16).wellFormed = false ∧
    (Instr.fmul 16 15).wellFormed = false ∧ (Instr.fmul 16 24).wellFormed = false := by decide
theorem test_illFormed_fmuls :
    (Instr.fmuls 15 16).wellFormed = false ∧ (Instr.fmuls 24 16).wellFormed = false ∧
    (Instr.fmuls 16 15).wellFormed = false ∧ (Instr.fmuls 16 24).wellFormed = false := by decide
theorem test_illFormed_fmulsu :
    (Instr.fmulsu 15 16).wellFormed = false ∧ (Instr.fmulsu 24 16).wellFormed = false ∧
    (Instr.fmulsu 16 15).wellFormed = false ∧ (Instr.fmulsu 16 24).wellFormed = false := by decide
theorem test_illFormed_movw :
    (Instr.movw 15 0).wellFormed = false ∧ (Instr.movw 16 1).wellFormed = false := by decide
theorem test_wellFormed_bounds :
    (Instr.ldi 16 0).wellFormed ∧ (Instr.muls 31 16).wellFormed ∧ (Instr.fmul 16 23).wellFormed ∧
    (Instr.movw 30 0).wellFormed := by decide

/-! ### One step of each instruction -/

/-- 2.1 row 1. -/
theorem test_mov : after (machine doc1 0 [0x2E10] [(16, 0xCF)] []) (·.reg 1) = some 0xCF := by
  decide +kernel
/-- 2.1 rows 8 and 11. -/
theorem test_lds :
    after (machine doc1 0 [0x9030, 0x001A] [(26, 0x42)] []) (fun t => (t.reg 3, t.pc)) =
      some (0x42, 2) ∧
    after { machine wide 0 [0x9020, 0x0200] [] [(0x010200, 0x77)] with rampz := 1 } (·.reg 2) =
      some 0x77 := by decide +kernel
/-- 2.1 row 10. -/
theorem test_lds_absent :
    stop (machine Device.plain 0 [0x9000, 0x0260] [] []) =
      some (.inr .dataAddressNotImplemented) := by decide +kernel
/-- 2.1 rows 14 and 15. -/
theorem test_sts :
    after (machine doc1 0 [0x9300, 0x005D] [(16, 0x5F)] []) (fun t => (t.sp, t.pc)) =
      some (0x005F, 2) ∧
    after (machine doc1 0 [0x9200, 0x0060] [(0, 0xEE)] []) (·.data) = some [(0x60, 0xEE)] := by
  decide +kernel
/-- 2.1 row 6. -/
theorem test_ldi : after (machine doc1 0 [0xEA85] [] []) (·.reg 24) = some 0xA5 := by decide +kernel
/-- 2.2 rows 4 and 26. -/
theorem test_ldX :
    after (machine doc1 0 [0x91AC] (pointersAt 0x0100) [(0x100, 0x34)]) (·.ptr .x) = some 0x0134 ∧
    after { machine doc1 0 [0x901C] (pointersAt 0x005F) [] with sreg := 3 } (·.reg 1) = some 3 := by
  decide +kernel
/-- 2.2 row 24. -/
theorem test_ldXInc :
    after { machine wide 0 [0x900D] (pointersAt 0xFFFF) [(0x2FFFF, 0x99)] with rampx := 2 }
      (fun t => (t.reg 0, t.ptr .x, t.rampx)) = some (0x99, 0, 2) := by decide +kernel
/-- 2.2 row 2. -/
theorem test_ldXDec :
    after (machine wide 0 [0x900E] (pointersAt 0) [(0xFFFF, 0x5A)])
      (fun t => (t.reg 0, t.ptr .x)) = some (0x5A, 0xFFFF) := by decide +kernel
/-- 2.2 row 15. -/
theorem test_stX :
    after (machine doc1 0 [0x920C] ((0, 0x60) :: pointersAt 0x001A) []) (·.ptr .x) =
      some 0x0060 := by decide +kernel
/-- 1.5. -/
theorem test_stXInc :
    after (machine doc1 0 [0x920D] ((0, 0x11) :: pointersAt 0x0070) [])
      (fun t => (t.data, t.ptr .x)) = some ([(0x70, 0x11)], 0x0071) := by decide +kernel
/-- 1.5. -/
theorem test_stXDec :
    after (machine doc1 0 [0x923E] ((3, 0x44) :: pointersAt 0x0080) [])
      (fun t => (t.data, t.ptr .x)) = some ([(0x7F, 0x44)], 0x007F) := by decide +kernel
/-- 1.6. -/
theorem test_ldY :
    after (machine doc1 0 [0x8018] (pointersAt 0x0061) [(0x61, 0x22)]) (·.reg 1) = some 0x22 := by
  decide +kernel
/-- 1.6. -/
theorem test_ldYInc :
    after (machine doc1 0 [0x9009] (pointersAt 0x0060) [(0x60, 0x11)])
      (fun t => (t.reg 0, t.ptr .y)) = some (0x11, 0x0061) := by decide +kernel
/-- 1.6. -/
theorem test_ldYDec :
    after (machine doc1 0 [0x903A] (pointersAt 0x0070) [(0x6F, 0x55)])
      (fun t => (t.reg 3, t.ptr .y)) = some (0x55, 0x006F) := by decide +kernel
/-- 2.2 row 3. -/
theorem test_lddY :
    after (machine doc1 0 [0xAC5F] ((15, 0x77) :: pointersAt 0xFFD0) [])
      (fun t => (t.reg 5, t.ptr .y)) = some (0x77, 0xFFD0) := by decide +kernel
/-- 1.7. -/
theorem test_stY :
    after (machine doc1 0 [0x8218] ((1, 0x22) :: pointersAt 0x0071) []) (·.data) =
      some [(0x71, 0x22)] := by decide +kernel
/-- 2.2 row 16. -/
theorem test_stYInc :
    after (machine doc1 0 [0x9209] ((0, 0x60) :: pointersAt 0x001A) [])
      (fun t => (t.reg 26, t.ptr .y)) = some (0x60, 0x001B) := by decide +kernel
/-- 1.7. -/
theorem test_stYDec :
    after (machine doc1 0 [0x923A] ((3, 0x44) :: pointersAt 0x0080) [])
      (fun t => (t.data, t.ptr .y)) = some ([(0x7F, 0x44)], 0x007F) := by decide +kernel
/-- 2.2 row 17. -/
theorem test_stdY :
    after (machine doc1 0 [0x8209] ((0, 0x02) :: pointersAt 0x001C) []) (·.ptr .y) =
      some 0x021C := by decide +kernel
/-- 2.2 row 19. -/
theorem test_ldZ :
    after (machine doc1 0 [0x8070] (pointersAt 0x0100) [(0x100, 0x09)]) (·.reg 7) = some 0x09 := by
  decide +kernel
/-- 2.2 row 20. -/
theorem test_ldZInc :
    after (machine doc1 0 [0x9001] (pointersAt 0x0100) [(0x100, 0x09)])
      (fun t => (t.reg 0, t.ptr .z)) = some (0x09, 0x0101) := by decide +kernel
/-- 2.2 row 21. -/
theorem test_ldZDec :
    after (machine doc1 0 [0x9032] (pointersAt 0x0100) [(0xFF, 0x02)])
      (fun t => (t.reg 3, t.ptr .z)) = some (0x02, 0x00FF) := by decide +kernel
/-- 2.2 row 32. -/
theorem test_lddZ :
    after (machine doc1 0 [0x8057] (pointersAt 0x0100) [(0x107, 0x0D)]) (·.reg 5) = some 0x0D := by
  decide +kernel
/-- 1.9. -/
theorem test_stZ :
    after (machine doc1 0 [0x8210] ((1, 0x22) :: pointersAt 0x0071) []) (·.data) =
      some [(0x71, 0x22)] := by decide +kernel
/-- 1.9. -/
theorem test_stZInc :
    after (machine doc1 0 [0x9201] ((0, 0x11) :: pointersAt 0x0070) [])
      (fun t => (t.data, t.ptr .z)) = some ([(0x70, 0x11)], 0x0071) := by decide +kernel
/-- 1.9. -/
theorem test_stZDec :
    after (machine doc1 0 [0x9232] ((3, 0x44) :: pointersAt 0x0080) [])
      (fun t => (t.data, t.ptr .z)) = some ([(0x7F, 0x44)], 0x007F) := by decide +kernel
/-- 2.2 row 22. -/
theorem test_stdZ :
    after (machine doc1 0 [0xAFF7] (pointersAt 0x0100) []) (·.data) = some [(0x13F, 0x01)] := by
  decide +kernel
/-- 2.2 rows 5 to 12. -/
theorem test_pointer_fault :
    [0x91AD, 0x91BE, 0x93AD, 0x93DA, 0x91C9, 0x91E1, 0x91F2, 0x93F1].map
      (fun w => stop (machine doc1 0 [w] (pointersAt 0x0100) [])) =
    List.replicate 8 (some (.inl .pointerIsDataRegister)) := by decide +kernel
/-- 2.2 rows 13 and 14. -/
theorem test_store_onto_pointer :
    stop (machine doc1 0 [0x920D] (pointersAt 0x001A) []) = some (.inr .storeOntoOwnPointer) ∧
    stop (machine doc1 0 [0x920E] (pointersAt 0x001C) []) = some (.inr .storeOntoOwnPointer) := by
  decide +kernel
/-- 2.3 rows 6 and 7: the bytes of the LPM word itself. -/
theorem test_lpm :
    after (machine doc1 0x20 [0x95C8] (pointersAt 0x0040) []) (·.reg 0) = some 0xC8 ∧
    after (machine doc1 0x20 [0x95C8] (pointersAt 0x0041) []) (·.reg 0) = some 0x95 := by
  decide +kernel
/-- 2.3 rows 2 and 4. -/
theorem test_lpm_plain :
    stop (machine Device.plain 0 [0x95C8] (pointersAt 0x2000) []) =
      some (.inr .programAddressNotImplemented) ∧
    after (machine Device.plain 0x10 [0x95D8] (pointersAt 0x0021) []) (·.reg 0) = some 0x95 := by
  decide +kernel
/-- 2.4 rows 1 and 5. -/
theorem test_in :
    after { machine doc1 0 [0xB60F] [] [] with sreg := 0b10100101 } (·.reg 0) = some 0xA5 ∧
    after { machine doc1 0 [0xB73E] [] [] with sp := 0x025F } (·.reg 19) = some 0x02 := by
  decide +kernel
/-- 2.4 rows 3 and 9. -/
theorem test_out :
    after (machine doc1 0 [0xBFFF] [(31, 0x82)] []) (·.sreg) = some 0b10000010 ∧
    after (machine doc1 0 [0xBB48] [(20, 0xFF)] []) (·.ioWrites) =
      some [{ port := 0x18, value := 0xFF }] := by decide +kernel
/-- 2.5 rows 2 and 4 (its first step). -/
theorem test_push :
    after (machine doc1 0 [0x921F] [(1, 0x33)] []) (fun t => (t.reg 0, t.sp)) = some (0x33, 0xFFFF) ∧
    after { machine { doc1 with spBits := .b8 } 0 [0x921F] [(1, 0x33)] [] with sp := 0x60 }
      (fun t => (t.data, t.sp)) = some ([(0x60, 0x33)], 0x5F) := by decide +kernel
/-- 1.13, and 2.5 row 3. -/
theorem test_pop :
    after { machine doc1 0 [0x90FF] [] [(0x25D, 0xC3)] with sp := 0x025C }
      (fun t => (t.reg 15, t.sp)) = some (0xC3, 0x025D) ∧
    after { machine doc1 0 [0x905F] [(0, 0x44)] [] with sp := 0xFFFF }
      (fun t => (t.reg 5, t.sp)) = some (0x44, 0) := by decide +kernel
/-- 2.6 row 3, on a device with the whole program memory. -/
theorem test_eicall :
    after { machine { doc1 with progWords := 0x400000 } 0x123456 [0x9519] (pointersAt 0xFFFF) [] with
        eind := 0x3F, sp := 0x0800 } (fun t => (t.data, t.sp, t.pc)) =
      some ([(0x7FE, 0x12), (0x7FF, 0x34), (0x800, 0x57)], 0x07FD, 0x3FFFFF) := by decide +kernel
/-- 2.6 row 6. -/
theorem test_eicall_absent :
    stop { machine doc1 0 [0x9519] [] [] with sp := 0x1101 } =
      some (.inr .dataAddressNotImplemented) := by decide +kernel
/-- 2.6 row 1. -/
theorem test_eijmp :
    after { machine doc1 0 [0x9419] (pointersAt 0x1000) [] with eind := 0xC5 } (·.pc) =
      some 0x051000 := by decide +kernel
/-- 2.7 row 3, with the word placed at 0x8000 as the instruction itself. -/
theorem test_elpm :
    after { machine doc1 0x8000 [0x95D8] (pointersAt 0x0001) [] with rampz := 1 } (·.reg 0) =
      some 0x95 := by decide +kernel
/-- 2.7 row 4, with the instruction itself as the data. -/
theorem test_elpmZ :
    after { machine doc1 0x8000 [0x91E6] (pointersAt 0x0001) [] with rampz := 1 } (·.ptr .z) =
      some 0x0091 := by decide +kernel
/-- 2.7 row 1, with the instruction itself as the data. -/
theorem test_elpmZInc :
    after (machine doc1 0x7FFF [0x9067] (pointersAt 0xFFFF) [])
      (fun t => (t.reg 6, t.ptr .z, t.rampz)) = some (0x90, 0, 1) := by decide +kernel
/-- 2.7 rows 5 and 6. -/
theorem test_elpm_fault :
    [0x91E7, 0x91F7].map (fun w => stop (machine doc1 0 [w] [] [])) =
      List.replicate 2 (some (.inl .elpmPointerDestination)) := by decide +kernel
/-- 2.8 rows 2 and 4. -/
theorem test_espm_stops :
    stop (machine { doc1 with spm := .absent } 0 [0x95F8] [] []) = some (.inr .spmNotModelled) ∧
    stop (machine { doc1 with hasEspm := false } 0 [0x95F8] [] []) =
      some (.inr .instructionNotPresent) := by decide +kernel
/-- 1.18: SPMCR = 0x03 erases the page at RAMPZ:Z. -/
theorem test_espm_erase :
    after { machine doc1 0 [0x95F8] (pointersAt 0x0000) [] with rampz := 1, spmcr := 0x03 }
      (fun t => (Memory.readWord t.prog 0x8003, Memory.readWord t.prog 0x8004)) =
      some (some 0xFFFF, none) := by decide +kernel
/-- 1.23: SPMCR = 0x03 erases the page at Z. -/
theorem test_spm_erase :
    after { machine doc1 0 [0x95E8] (pointersAt 0xF000) [] with spmcr := 0x03 }
      (fun t => Memory.readWord t.prog 0x7800) = some (some 0xFFFF) := by decide +kernel
/-- 1.23: SPMCR = 0x01 writes R1:R0 to the erased word at Z, on a device with word write. -/
theorem test_spm_write :
    after { (machine doc1Words 0 [0x95E8] ((0, 0xFF) :: (1, 0xCF) :: pointersAt 0xF000) []).storeWords
        0x7800 [0xFFFF] with spmcr := 0x01 }
      (fun t => Memory.readWord t.prog 0x7800) = some (some 0xCFFF) := by decide +kernel
/-- R228: what a device's own `SpmOp` answers after an erase (each word it lists and the addressed one), and
the buffer it clears. -/
theorem test_spm_supplied :
    (let t := State.suppliedAnswer
        { machine { doc1 with spm := .supplied 7 } 0x10 [0x95E8] [] [] with
          spmcr := 0x03, temp := [(0, 0x34)] }
        0x000041 { prog := [(0x21, 0x1234), (0x20000, 0)], temp := [], blbits := 3, spmcr := 0 };
      (t.prog, t.temp, t.blbits, t.spmcr)) =
    ([(0x20, 0xE8), (0x21, 0x95), (0x40, 0xFF), (0x41, 0xFF), (0x42, 0xFF), (0x43, 0xFF)], [], 3, 0) := by
  decide +kernel
/-- R299: a run ends before the word at the end address is fetched, and at a stop, with the whole state. -/
theorem test_run :
    (let r := runTo 1 2 (machine doc1 0 [0xEA85] [] []); (r.1, r.2.reg 24, r.2.pc)) =
      (.reachedEnd, 0xA5, 1) ∧
    (let r := runTo 2 2 (machine doc1 0 [0xEA85] [] []); (r.1, r.2.reg 24, r.2.pc)) =
      (.refused .fetchUnwritten, 0xA5, 1) ∧
    (runTo 1 0 (machine doc1 0 [0xEA85] [] [])).1 = .notEnded := by decide +kernel
/-- 2.9, FMUL: FF by FF, and row 3 of the flags. -/
theorem test_fmul :
    after (machine doc1 0 [0x0309] [(16, 0xFF), (17, 0xFF)] []) (fun t => (t.pair 0, t.sreg)) =
      some (0xFC02, 0b00000001) ∧
    after { machine doc1 0 [0x0309] [(16, 0x00), (17, 0xFF)] [] with sreg := 0b00000001 } (·.sreg) =
      some 0b00000010 := by decide +kernel
/-- 2.9, FMULS: 80 by 7F and 80 by 80. -/
theorem test_fmuls :
    after (machine doc1 0 [0x0381] [(16, 0x80), (17, 0x7F)] []) (fun t => (t.pair 0, t.sreg)) =
      some (0x8100, 0b00000001) ∧
    after (machine doc1 0 [0x0381] [(16, 0x80), (17, 0x80)] []) (fun t => (t.pair 0, t.sreg)) =
      some (0x8000, 0) := by decide +kernel
/-- 2.9, FMULSU: 80 by FF and C0 by 40 (row 6). -/
theorem test_fmulsu :
    after (machine doc1 0 [0x0389] [(16, 0x80), (17, 0xFF)] []) (fun t => (t.pair 0, t.sreg)) =
      some (0x0100, 0b00000001) ∧
    after (machine doc1 0 [0x03F8] [(23, 0xC0), (16, 0x40)] []) (fun t => (t.pair 0, t.sreg)) =
      some (0xE000, 0b00000001) := by decide +kernel
/-- 2.10 rows 1 and 4. -/
theorem test_movw :
    after (machine doc1 0 [0x0180] [(0, 0x11), (1, 0x32)] []) (fun t => (t.reg 17, t.reg 16)) =
      some (0x32, 0x11) ∧
    after (machine doc1 0 [0x010F] [(30, 0xAA), (31, 0xBB)] []) (·.pair 0) = some 0xBBAA := by
  decide +kernel
/-- 2.9, MULS: 80 by FF, and row 1 of the flags. -/
theorem test_muls :
    after (machine doc1 0 [0x0201] [(16, 0x80), (17, 0xFF)] []) (·.pair 0) = some 0x0080 ∧
    after { machine doc1 0 [0x0201] [(16, 2), (17, 3)] [] with sreg := 0xFF }
      (fun t => (t.pair 0, t.sreg)) = some (0x0006, 0b11111100) := by decide +kernel
/-- 2.9, MULSU: 80 by FF and 01 by 80. -/
theorem test_mulsu :
    after (machine doc1 0 [0x0301] [(16, 0x80), (17, 0xFF)] []) (·.pair 0) = some 0x8080 ∧
    after (machine doc1 0 [0x0301] [(16, 0x01), (17, 0x80)] []) (·.pair 0) = some 0x0080 := by
  decide +kernel
/-- 2.9 row 7 and 2.10 row 6. -/
theorem test_not_present :
    [0x0201, 0x0180, 0x9519, 0x9006, 0x95E8].map (fun w => stop (machine Device.plain 0 [w] [] [])) =
      List.replicate 5 (some (.inr .instructionNotPresent)) := by decide +kernel
/-- An instruction placed where the fetch finds it runs first after reset. -/
theorem test_withFetchWord :
    after (State.reset.withFetchWord 16 0xEA85) (fun t => (t.reg 24, t.pc)) = some (0xA5, 1) ∧
    after (State.reset.withFetchWord 16 0x9030) (fun t => (t.reg 3, t.pc)) = some (0, 2) := by
  decide +kernel

/-! ### The hypotheses of the statements are met -/

/-- The state meets the invariant: every field of a concrete state is checked by evaluation. -/
theorem inv_of {s : State} (hd : s.device.Valid) (hs : s.pc.toNat < 2 ^ s.device.pcBits)
    (hp : s.device.spOf s.sp = s.sp) (h1 : Memory.wf s.data)
    (h2 : ∀ c ∈ s.data, sramStart ≤ c.1 ∧ c.1 ≤ s.device.ramend) (h3 : Memory.wf s.prog)
    (h4 : ∀ c ∈ s.prog, c.1 < 2 * s.device.progWords) (h5 : s.temp = []) : s.Inv :=
  ⟨hd, hs, hp, h1, h2, h3, h4, h5 ▸ List.Pairwise.nil, by simp [h5]⟩

theorem full_valid : Device.full.Valid := by
  simp [Device.Valid, Device.full, Device.dataSpan, Device.ioAddrs, SpmSource.described]

theorem plain_valid : Device.plain.Valid := by
  simp [Device.Valid, Device.plain, Device.dataSpan, Device.ioAddrs, SpmSource.described]

theorem doc1_valid : doc1.Valid := by
  simp [Device.Valid, doc1, Device.full, Device.dataSpan, Device.ioAddrs, SpmSource.described]

theorem witness_DecodingTheEncodingGivesTheInstruction :
    (∀ i ∈ [Instr.ldi 16 0, .ldi 31 0xFF, .muls 31 16, .mulsu 16 23, .fmul 23 16, .movw 30 0,
        .lds 31 0xFFFF, .lddY 31 63, .elpm], i.wellFormed = true) ∧
    Instr.mulsu 16 23 ≠ .elpm := by decide

/-- With ELPM and without it. -/
theorem witness_EncodingTheDecodedGivesTheWords :
    decodeWords true [0x9020, 0x0200, 0x2D00] = .ok (.lds 2 0x0200, [0x2D00]) ∧
    decodeWords false [0x95C8, 0x95D8] = .ok (.lpm, [0x95D8]) ∧
    [(0x95C8 : Word), 0x95D8].head? ≠ some 0x95D8 := ⟨rfl, rfl, by decide⟩

theorem witness_OpcodeRowsOverlapOnlyAsListed :
    (∃ a b : OpcodeRow, (opcodeRows true)[10]? = some a ∧ (opcodeRows true)[13]? = some b ∧
      (0x8008 : Word) &&& a.mask = a.pattern ∧ (0x8008 : Word) &&& b.mask = b.pattern) ∧
    (∃ a b : OpcodeRow, (opcodeRows true)[22]? = some a ∧ (opcodeRows true)[25]? = some b ∧
      (0x83F0 : Word) &&& a.mask = a.pattern ∧ (0x83F0 : Word) &&& b.mask = b.pattern) ∧
    (∃ a b : OpcodeRow, (opcodeRows false)[26]? = some a ∧ (opcodeRows false)[33]? = some b ∧
      (0x95D8 : Word) &&& a.mask = a.pattern ∧ (0x95D8 : Word) &&& b.mask = b.pattern) :=
  ⟨⟨_, _, rfl, rfl, by decide, by decide⟩, ⟨_, _, rfl, rfl, by decide, by decide⟩,
    ⟨_, _, rfl, rfl, by decide, by decide⟩⟩

theorem witness_StepRunsTheDecodedInstruction :
    (machine doc1 0 [0x9020, 0x0200] [] []).fetch = .ok [0x9020, 0x0200] ∧
    decodeWords doc1.hasElpm [0x9020, 0x0200] = .ok (.lds 2 0x0200, []) := ⟨rfl, rfl⟩

/-- The second word of the last program word's instruction is word 0. -/
theorem witness_StepRunsTheInstructionInMemory :
    ∃ s : State, s.pc.toNat < 2 ^ s.device.pcBits ∧ (Instr.lds 2 0x0200).wellFormed = true ∧
      (s.device.hasElpm = true ∨ Instr.lds 2 0x0200 ≠ .elpm) ∧
      ∀ (k : Nat) (w : Word), (encode (.lds 2 0x0200))[k]? = some w →
        (s.pcAfter k).toNat < s.device.progWords ∧
          Memory.readWord s.prog (s.pcAfter k).toNat = some w := by
  refine ⟨machine Device.full 0x3FFFFF [0x9020, 0x0200] [] [], by decide, by decide, by decide, ?_⟩
  intro k w h
  match k with
  | 0 => cases h; decide +kernel
  | 1 => cases h; decide +kernel
  | k + 2 => cases h

theorem witness_FetchStopsOutsideTheProgram :
    (Device.plain.progWords ≤ (machine Device.plain 0x1000 [] [] []).pc.toNat) ∧
    (let s := machine Device.plain 0xFFF [0x9020] [] [];
      s.pc.toNat < s.device.progWords ∧ Memory.readWord s.prog s.pc.toNat = some 0x9020 ∧
      isTwoWord 0x9020 = true ∧ s.device.progWords ≤ (s.pcAfter 1).toNat) ∧
    (let s := machine Device.plain 0xFFF [] [] [];
      s.pc.toNat < s.device.progWords ∧ Memory.readWord s.prog s.pc.toNat = none) ∧
    (let s := machine Device.plain 0xFFE [0x9020] [] [];
      s.pc.toNat < s.device.progWords ∧ Memory.readWord s.prog s.pc.toNat = some 0x9020 ∧
      isTwoWord 0x9020 = true ∧ (s.pcAfter 1).toNat < s.device.progWords ∧
      Memory.readWord s.prog (s.pcAfter 1).toNat = none) := by
  decide +kernel

theorem witness_UnlistedWordsAreRefused :
    (let s := machine doc1 0 [0x9508] [] [];
      s.pc.toNat < s.device.progWords ∧ Memory.readWord s.prog s.pc.toNat = some 0x9508 ∧
      ∀ row ∈ opcodeRows s.device.hasElpm, ¬ ((0x9508 : Word) &&& row.mask = row.pattern)) ∧
    (3 : BitVec 4) ∈ [3, 4, 5, 8, 11] ∧ (11 : BitVec 4) ∈ [3, 4, 5, 6, 7, 8, 11] ∧
    (0x9508 : Word) &&& 0xFE00 = 0x9400 ∧
    (0x9508 : Word) ∉ [0x95C8, 0x9519, 0x9419, 0x95D8, 0x95F8, 0x95E8] :=
  ⟨by decide +kernel, by decide, by decide, by decide, by decide⟩

theorem witness_MissingOptionalInstructionsAreRefused :
    (∀ i ∈ [Instr.eicall, .eijmp, .elpm, .elpmZ 0, .elpmZInc 30, .espm, .spm, .movw 0 0, .muls 16 16,
      .mulsu 16 16, .fmul 16 16, .fmuls 16 16, .fmulsu 16 16], lacks Device.plain i = true) ∧
    (machine Device.plain 0 [0x9419] [] []).fetch = .ok [0x9419] ∧
    decodeWords Device.plain.hasElpm [0x9419] = .ok (.eijmp, []) :=
  ⟨by decide, rfl, rfl⟩

theorem witness_NextPcOfEveryInstruction :
    (∃ t, exec (.lds 2 0x1A) (idle doc1 [] []) = .next t) ∧
    (∃ t, exec (.sts 0x1A 2) (idle doc1 [] []) = .next t) ∧
    (∃ t, exec .eijmp (idle doc1 [] []) = .next t) ∧
    (∃ t, exec .eicall { idle doc1 [] [] with sp := 0x10FF } = .next t) ∧
    (∃ t, exec (.mov 1 2) (machine doc1 0x3FFFFF [] [] []) = .next t) :=
  ⟨⟨_, rfl⟩, ⟨_, rfl⟩, ⟨_, rfl⟩, ⟨_, rfl⟩, ⟨_, rfl⟩⟩

/-- The first and the last SRAM byte, a register, a core register, a device register, and the address
above RAMEND. -/
theorem witness_LdsLoadsTheDirectByte :
    (let s := idle Device.plain [(26, 0x42)] [(0x60, 0x11), (0x25F, 0x22)];
      s.peek (s.directAddr 0x60) = some (0x11, 0) ∧ s.peek (s.directAddr 0x25F) = some (0x22, 0) ∧
      s.peek (s.directAddr 0x1A) = some (0x42, 0) ∧ s.peek (s.directAddr 0x5F) = some (0, 0) ∧
      s.peek (s.directAddr 0x260) = none) ∧
    (idle Device.plain [] []).peek ((idle Device.plain [] []).directAddr 0x38) =
      some (Config.deviceByte 0x18 0, 1) := by
  refine ⟨by decide +kernel, rfl⟩

theorem witness_StsStoresTheDirectByte :
    let s := idle Device.plain [] [];
    s.storePiece (s.directAddr 0x60) = some (.sram 0x60) ∧
    s.storePiece (s.directAddr 0x25F) = some (.sram 0x25F) ∧
    s.storePiece (s.directAddr 0x1F) = some (.reg 31) ∧
    s.storePiece (s.directAddr 0x5D) = some .sp ∧ s.storePiece (s.directAddr 0x38) = some .ioWrites ∧
    s.storePiece (s.directAddr 0x260) = none := by decide +kernel

theorem witness_DataAddressesTakeTheirPage :
    (idle doc1 [] []).device.dataBits = .b16 ∧ (idle wide [] []).device.dataBits = .b24 :=
  ⟨rfl, rfl⟩

theorem witness_LdPlainLoadsThroughThePointer :
    (∀ p ∈ [Pointer.x, .y, .z], let s := idle doc1 (pointersAt 0x60) [(0x60, 0x5A)];
      s.peek (s.ptrAddr p (s.ptr p)) = some (0x5A, 0)) ∧
    (∀ p ∈ [Pointer.x, .y, .z], let s := idle doc1 (pointersAt 0x10FF) [(0x10FF, 0x5A)];
      s.peek (s.ptrAddr p (s.ptr p)) = some (0x5A, 0)) := by decide +kernel

theorem witness_LddLoadsWithDisplacement :
    let s := idle doc1 ((15, 0x77) :: pointersAt 0xFFD0) [];
    s.peek (s.ptrAddr .y (s.ptr .y + (63 : BitVec 6).setWidth 16)) = some (0x77, 0) ∧
    s.peek (s.ptrAddr .z (s.ptr .z + (63 : BitVec 6).setWidth 16)) = some (0x77, 0) := by
  decide +kernel

theorem witness_LdPostIncrementLoadsThenAdvances :
    ∀ p ∈ [Pointer.x, .y, .z], let s := idle wide (pointersAt 0xFFFF) [(0xFFFF, 0x5A)];
      p.owns 0 = false ∧ s.peek (s.ptrAddr p (s.ptr p)) = some (0x5A, 0) := by decide +kernel

theorem witness_LdPreDecrementStepsBackThenLoads :
    ∀ p ∈ [Pointer.x, .y, .z], let s := idle wide (pointersAt 0) [(0xFFFF, 0x5A)];
      p.owns 25 = false ∧
      (s.setPtr p (s.ptr p - 1)).peek (s.ptrAddr p (s.ptr p - 1)) = some (0x5A, 0) := by
  decide +kernel

theorem witness_StPlainStoresThroughThePointer :
    ∀ p ∈ [Pointer.x, .y, .z], let s := idle doc1 (pointersAt 0x001A) [];
      s.storePiece (s.ptrAddr p (s.ptr p)) = some (.reg 26) := by decide +kernel

theorem witness_StdStoresWithDisplacement :
    let s := idle doc1 (pointersAt 0x001C) [];
    s.storePiece (s.ptrAddr .y (s.ptr .y + (1 : BitVec 6).setWidth 16)) = some (.reg 29) ∧
    s.storePiece (s.ptrAddr .z (s.ptr .z + (63 : BitVec 6).setWidth 16)) = some .rampz := by
  decide +kernel

theorem witness_StPostIncrementStoresThenAdvances :
    ∀ p ∈ [Pointer.x, .y, .z], let s := idle wide (pointersAt 0xFFFF) [];
      p.owns 0 = false ∧ s.storePiece (s.ptrAddr p (s.ptr p)) = some (.sram 0xFFFF) ∧
      Piece.sram 0xFFFF ≠ .reg p.lo ∧ Piece.sram 0xFFFF ≠ .reg p.hi := by decide +kernel

theorem witness_StPreDecrementStepsBackThenStores :
    ∀ p ∈ [Pointer.x, .y, .z], let s := idle wide (pointersAt 0) [];
      p.owns 0 = false ∧ s.storePiece (s.ptrAddr p (s.ptr p - 1)) = some (.sram 0xFFFF) ∧
      Piece.sram 0xFFFF ≠ .reg p.lo ∧ Piece.sram 0xFFFF ≠ .reg p.hi := by decide +kernel

theorem witness_PointerAsDataRegisterFaults :
    Pointer.x.owns 26 = true ∧ Pointer.x.owns 27 = true ∧ Pointer.z.owns 31 = true := by decide

theorem witness_StoreOntoItsOwnPointerIsRefused :
    ∀ c ∈ [(Pointer.x, (0x1A : Word)), (.x, 0x1B), (.y, 0x1C), (.y, 0x1D), (.z, 0x1E), (.z, 0x1F)],
      (c.1.owns 0 = false ∧ (∃ i, c.1.owns i = true ∧ (let s := idle doc1 (pointersAt c.2) [];
        s.device.place (s.ptrAddr c.1 (s.ptr c.1)) = .reg i))) ∧
      (∃ i, c.1.owns i = true ∧ (let s := idle doc1 (pointersAt (c.2 + 1)) [];
        s.device.place (s.ptrAddr c.1 (s.ptr c.1 - 1)) = .reg i)) := by decide +kernel

theorem witness_AbsentDataAddressesAreRefused :
    (∀ p ∈ [Pointer.x, .y, .z], p.owns 0 = false ∧
      (let s := idle doc1 (pointersAt 0x1100) [];
        s.device.place (s.ptrAddr p (s.ptr p)) = .absent) ∧
      (let s := idle doc1 (pointersAt 0x1101) [];
        s.device.place (s.ptrAddr p (s.ptr p - 1)) = .absent)) ∧
    (let s := idle doc1 (pointersAt 0x10C1) [];
      s.device.place (s.ptrAddr .y (s.ptr .y + (63 : BitVec 6).setWidth 16)) = .absent ∧
      s.device.place (s.ptrAddr .z (s.ptr .z + (63 : BitVec 6).setWidth 16)) = .absent) := by
  decide +kernel

theorem witness_SramReadsBackWhatWasWritten :
    (sramStart ≤ 0x60 ∧ 0x60 ≤ Device.plain.ramend) ∧ (sramStart ≤ 0x25F ∧ 0x25F ≤ Device.plain.ramend) := by
  decide

theorem witness_LpmLoadsTheProgramByte :
    (let s := machine Device.plain 0xFFF [0x95C8] (pointersAt 0x1FFF) [];
      (s.ptr .z).toNat / 2 < s.device.progWords ∧
      Memory.readWord s.prog ((s.ptr .z).toNat / 2) = some 0x95C8) ∧
    (let s := machine Device.plain 0 [] (pointersAt 0x2000) [];
      s.device.progWords ≤ (s.ptr .z).toNat / 2) := by decide +kernel

theorem witness_ElpmLoadsTheProgramByte :
    (let s := { machine doc1 0x1FFFF [0x95D8] (pointersAt 0xFFFF) [] with rampz := 3 };
      s.device.hasElpm = true ∧ (s.rampz ++ s.ptr .z).toNat / 2 < s.device.progWords ∧
      Memory.readWord s.prog ((s.rampz ++ s.ptr .z).toNat / 2) = some 0x95D8) ∧
    (let s := { machine doc1 0 [] (pointersAt 0) [] with rampz := 4 };
      s.device.hasElpm = true ∧ s.device.progWords ≤ (s.rampz ++ s.ptr .z).toNat / 2) := by
  decide +kernel

theorem witness_ElpmPostIncrementCountsTwentyFourBits :
    (let s := machine doc1 0x7FFF [0x9067] (pointersAt 0xFFFF) [];
      s.device.hasElpm = true ∧ Pointer.z.owns 6 = false ∧
      (s.rampz ++ s.ptr .z).toNat / 2 < s.device.progWords ∧
      Memory.readWord s.prog ((s.rampz ++ s.ptr .z).toNat / 2) = some 0x9067) ∧
    (let s := { machine doc1 0 [] (pointersAt 0) [] with rampz := 4 };
      s.device.progWords ≤ (s.rampz ++ s.ptr .z).toNat / 2) := by decide +kernel

theorem witness_ElpmOntoItsPointerFaults : (idle doc1 [] []).device.hasElpm = true := rfl

/-- The state of the SPM witnesses: a data word in R1:R0, Z and SPMCR as given, the page at word 4 and the
last page of program memory erased. -/
def programmer (d : Device) (z : Word) (page spmcr : Byte) : State :=
  { ((machine d 0 [0x95E8] ((0, 0xFF) :: (1, 0xCF) :: pointersAt z) []).storeWords 4
      (List.replicate 4 0xFFFF)).storeWords 0x1FFFC (List.replicate 4 0xFFFF) with
    rampz := page, spmcr := spmcr, temp := [(0, 0x34), (1, 0x12)] }

theorem witness_SpmErasesThePage :
    let s := programmer doc1 0xFFFF 3 0x03;
    s.device.spm = .facts { pageWords := 4, buffered := true, lockCode := 0x09 } ∧ s.spmcr = 0x03 ∧
    ∀ f ∈ s.spmForms, f.2.1 = true ∧ f.2.2.toNat / 2 < s.device.progWords := by decide +kernel

theorem witness_SpmWritesTheErasedWord :
    let s := programmer doc1Words 0x0008 0 0x01;
    s.device.spm = .facts { pageWords := 4, buffered := false, lockCode := 0x09 } ∧ s.spmcr = 0x01 ∧
    ∀ f ∈ s.spmForms, f.2.1 = true ∧ f.2.2.toNat / 2 < s.device.progWords ∧
      Memory.readWord s.prog (f.2.2.toNat / 2) = some 0xFFFF := by decide +kernel

theorem witness_SpmFillsTheBuffer :
    let s := programmer doc1 0xFFFF 0xFF 0x01;
    s.device.spm = .facts { pageWords := 4, buffered := true, lockCode := 0x09 } ∧ s.spmcr = 0x01 ∧
    ∀ f ∈ s.spmForms, f.2.1 = true := by decide +kernel

theorem witness_SpmWritesTheBufferedPage :
    let s := programmer doc1 0x0008 0 0x05;
    s.device.spm = .facts { pageWords := 4, buffered := true, lockCode := 0x09 } ∧ s.spmcr = 0x05 ∧
    ∀ f ∈ s.spmForms, f.2.1 = true ∧ f.2.2.toNat / 2 = 4 ∧ f.2.2.toNat / 2 < s.device.progWords ∧
      SpmDevice.pageBase { pageWords := 4, buffered := true, lockCode := 0x09 } (f.2.2.toNat / 2) = 4 ∧
      (∀ i < 4, Memory.readWord s.prog (4 + i) = some 0xFFFF) ∧
      Memory.readWord s.temp 0 = some 0x1234 := by decide +kernel

theorem witness_SpmSetsTheLockBits :
    let s := programmer doc1 0xFFFF 0xFF 0x09;
    s.device.spm = .facts { pageWords := 4, buffered := true, lockCode := 0x09 } ∧ s.spmcr = 0x09 ∧
    (0x09 : Byte) ∉ [0x01, 0x03, 0x05] ∧ ∀ f ∈ s.spmForms, f.2.1 = true := by decide +kernel

theorem witness_SpmChangesNothingElse :
    (let s := programmer doc1 0xFFFF 3 0xFF;
    s.device.spm = .facts { pageWords := 4, buffered := true, lockCode := 0x09 } ∧
    ∀ f ∈ s.spmForms, f.2.1 = true ∧ f.2.2.toNat / 2 < s.device.progWords) ∧
    (∀ spmcr ∈ [(0x01 : Byte), 0x03], let s := programmer { doc1 with spm := .supplied 7 } 0xFFFF 3 spmcr;
      s.device.spm = .supplied 7 ∧ ∀ f ∈ s.spmForms, f.2.1 = true ∧
        (s.spmcr ∉ [0x03, 0x05] ∨ f.2.2.toNat / 2 < s.device.progWords)) := by decide +kernel

theorem witness_SpmStopsWithoutItsDevice :
    (let s := programmer { doc1 with spm := .absent } 0 0 0x03;
      s.device.spm = .absent ∧ ∀ f ∈ s.spmForms, f.2.1 = true) ∧
    (let s := programmer { doc1 with progWords := 4 } 0x0008 0 0x03;
      s.device.spm = .facts { pageWords := 4, buffered := true, lockCode := 0x09 } ∧
      SpmDevice.addressesProgram { pageWords := 4, buffered := true, lockCode := 0x09 } s.spmcr = true ∧
      ∀ f ∈ s.spmForms, f.2.1 = true ∧ s.device.progWords ≤ f.2.2.toNat / 2) ∧
    (let s := programmer { doc1 with progWords := 4, spm := .supplied 7 } 0x0008 0 0x05;
      s.device.spm = .supplied 7 ∧ s.spmcr ∈ [0x03, 0x05] ∧
      ∀ f ∈ s.spmForms, f.2.1 = true ∧ s.device.progWords ≤ f.2.2.toNat / 2) := by decide +kernel

theorem witness_OnlySpmChangesProgramMemory :
    (∃ t, exec (.sts 0x60 1) (idle doc1 [] []) = .next t) ∧ Instr.sts 0x60 1 ≠ .spm ∧
      Instr.sts 0x60 1 ≠ .espm :=
  ⟨⟨_, rfl⟩, by decide, by decide⟩

theorem witness_CoreRegistersLieAtTheirAddresses :
    Device.full.Valid ∧ Device.full.spBits = .b16 ∧ Device.plain.Valid ∧
    ({ Device.plain with spBits := .b8 } : Device).Valid :=
  ⟨full_valid, rfl, plain_valid, by
    simp [Device.Valid, Device.plain, Device.dataSpan, Device.ioAddrs, SpmSource.described]⟩

theorem witness_InReadsTheCoreRegister :
    (idle doc1 [] []).device.coreAt 0x3F = some .sreg ∧ doc1.coreAt 0x3E = some .sph ∧
    doc1.coreAt 0x37 = some .spmcr := by decide +kernel

theorem witness_InDrawsADeviceByte :
    (idle doc1 [] []).device.coreAt 0x1B = none ∧ doc1.coreAt 0 = none ∧
    Device.plain.coreAt 0x3C = none := by decide +kernel

theorem witness_DataMapBelowSram :
    Device.plain.dataMap = .registersAndIo ∧ 0x1F = (31 : Reg).val ∧
    0x5F = (63 : IoAddr).toNat + 0x20 ∧
    (({ Device.plain with dataMap := .refuseLow } : Device).dataMap = .refuseLow ∧ 0x5F < sramStart) ∧
    sramStart ≤ 0x60 ∧ sramStart ≤ 0x260 := by decide

/-- A multiply, and a write to SREG, both change flags. -/
theorem witness_FlagsChangeOnlyByMultiplyOrAsData :
    (∃ t, exec (.muls 16 16) (idle doc1 [] []) = .next t ∧ t.sreg ≠ (idle doc1 [] []).sreg) ∧
    (∃ t, exec (.out 0x3F 16) (idle doc1 [(16, 0xFF)] []) = .next t ∧
      t.sreg ≠ (idle doc1 [(16, 0xFF)] []).sreg) :=
  ⟨⟨_, rfl, by decide +kernel⟩, ⟨_, rfl, by decide +kernel⟩⟩

/-- SRAM, a half of SP itself, and an address that is not implemented. -/
theorem witness_PushStoresThenStepsDown :
    (let s := { idle doc1 [] [] with sp := 0x10FF };
      s.storePiece s.sp.toNat = some (.sram 0x10FF) ∧ Piece.sram 0x10FF ≠ .sp) ∧
    (let s := { idle doc1 [] [] with sp := 0x5D };
      s.storePiece s.sp.toNat = some .sp) ∧
    (let s := { idle doc1 [] [] with sp := 0x1100 };
      s.storePiece s.sp.toNat = none) := by decide +kernel

theorem witness_PopStepsUpThenLoads :
    (let s := { idle doc1 [(0, 0x44)] [] with sp := 0xFFFF };
      (s.setSp (s.sp + 1)).peek (s.setSp (s.sp + 1)).sp.toNat = some (0x44, 0)) ∧
    (let s := { idle doc1 [] [] with sp := 0x10FF };
      (s.setSp (s.sp + 1)).peek (s.setSp (s.sp + 1)).sp.toNat = none) := by decide +kernel

theorem witness_PushThenPopRestores :
    ∃ s : State, s.Inv ∧ s.device.place s.sp.toNat = .sram :=
  ⟨{ idle doc1 [] [] with sp := 0x10FF },
    inv_of doc1_valid (by decide) rfl List.Pairwise.nil (by simp [idle, machine, State.storeWords, State.reset])
      List.Pairwise.nil (by simp [idle, machine, State.storeWords, State.reset]) rfl,
    by decide +kernel⟩

theorem witness_EijmpJumpsToEindZ :
    (idle doc1 [] []).device.pcBits = 22 ∧ (idle doc1 [] []).device.hasEicallEijmp = true :=
  ⟨rfl, rfl⟩

/-- The stack in SRAM, and the stack bytes in SPH, SPL and EIND, where the write to SPH moves SP. -/
theorem witness_EicallPushesAndJumps :
    (let s := { idle doc1 [] [] with sp := 0x10FF };
    s.device.pcBits = 22 ∧ s.device.hasEicallEijmp = true ∧ 0x10FF = s.sp.toNat ∧
    0x10FE = (s.device.spOf (s.sp - 1)).toNat ∧ 0x10FD = (s.device.spOf (s.sp - 2)).toNat ∧
    s.device.place 0x10FF = .sram ∧ s.device.place 0x10FE = .sram ∧
    s.device.place 0x10FD = .sram) ∧
    (let s := { machine doc1 0x5D [] [] [] with sp := 0x5E };
      s.device.pcBits = 22 ∧ s.device.hasEicallEijmp = true ∧
      0x5E = BitVec.ofNat 24 ((s.pc.toNat + 1) % 2 ^ 22) ∧
      s.returnAddrs 0x00005E = [0x5E, 0x5E5D] ∧ s.storePiece 0x5E = some .sp) ∧
    (let s := { machine { doc1 with ramend := 0xFFFF } 0x5D [] [] [] with sp := 0x5E };
      ∀ x ∈ s.returnAddrs 0x00005E, s.storePiece x ≠ none) := by decide +kernel

/-- The first byte above RAMEND, the last two above it after R0 (SP counts down through 0), and a write to
SPH that moves SP above RAMEND. -/
theorem witness_EicallIsAllOrNothing :
    (∀ k ∈ [((0x1101 : Word), 0x1101, 0x1100, 0x10FF), (0x0000, 0x0000, 0xFFFF, 0xFFFE)],
      let s := { idle doc1 [] [] with sp := k.1 };
      s.device.pcBits = 22 ∧ s.device.hasEicallEijmp = true ∧ k.2.1 = s.sp.toNat ∧
      k.2.2.1 = (s.device.spOf (s.sp - 1)).toNat ∧ k.2.2.2 = (s.device.spOf (s.sp - 2)).toNat ∧
      (∀ x ∈ [k.2.1, k.2.2.1, k.2.2.2], s.storePiece x ≠ some .sp) ∧
      (∃ x ∈ [k.2.1, k.2.2.1, k.2.2.2], s.storePiece x = none)) ∧
    (let s := { machine doc1 0x5D [] [] [] with sp := 0x5E };
      s.device.pcBits = 22 ∧ s.device.hasEicallEijmp = true ∧
      0x5E = BitVec.ofNat 24 ((s.pc.toNat + 1) % 2 ^ 22) ∧
      ∃ x ∈ s.returnAddrs 0x00005E, s.storePiece x = none) := by decide +kernel

theorem witness_IntegerMultipliesWriteTheProduct : (idle doc1 [] []).device.hasMul = true := rfl

theorem witness_FractionalMultipliesWriteTheShiftedProduct :
    (idle doc1 [] []).device.hasMul = true := rfl

theorem witness_MultiplyFlagsFollowTheResult :
    (∃ t, exec (.muls 16 17) (idle doc1 [] []) = .next t) ∧
    (∃ t, exec (.mulsu 16 17) (idle doc1 [] []) = .next t) ∧
    (∃ t, exec (.fmul 16 17) (idle doc1 [] []) = .next t) ∧
    (∃ t, exec (.fmuls 16 17) (idle doc1 [] []) = .next t) ∧
    (∃ t, exec (.fmulsu 16 17) (idle doc1 [] []) = .next t) :=
  ⟨⟨_, rfl⟩, ⟨_, rfl⟩, ⟨_, rfl⟩, ⟨_, rfl⟩, ⟨_, rfl⟩⟩

theorem witness_MultiplyFlagsTellOfTheOperands :
    (∃ t, exec (.fmuls 16 17) (idle doc1 [(16, 0x80), (17, 0x80)] []) = .next t) ∧
    (∃ t, exec (.muls 16 17) (idle doc1 [(16, 0x80), (17, 0x7F)] []) = .next t) :=
  ⟨⟨_, rfl⟩, ⟨_, rfl⟩⟩

theorem witness_MovwCopiesThePair :
    (Instr.movw 30 0).wellFormed = true ∧ (idle doc1 [] []).device.hasMovw = true := ⟨rfl, rfl⟩

theorem witness_EveryStepKeepsTheInvariant :
    ∃ s t : State, s.Inv ∧ step s = .next t :=
  ⟨State.reset.withFetchWord 16 0x2D00, _,
    inv_of full_valid (by decide) rfl List.Pairwise.nil (by intro c h; cases h)
      (by decide +kernel) (by decide +kernel) rfl, rfl⟩

theorem witness_StepKeepsTheDeviceAndTheRecord :
    ∃ t : State, step (State.reset.withFetchWord 16 0xB800) = .next t := ⟨_, rfl⟩

end Sys2Proof.Tests
end

section
/-! PROOFS. The flags the multiplies write (10_state.md, R32): a flag read back after a write, the pair and
the two flags after the shared write of the multiplies, and the five instructions. -/

namespace Sys2Proof.Machine

/-! ### Flags and pairs read back -/

theorem Flag.bit_lt (f : Flag) : f.bit < 8 := by
  cases f <;> decide

/-- The mask that `withFlag` shifts into place has only the bit of its own flag. -/
theorem Flag.mask_getLsbD (f g : Flag) : (1#8 <<< f.bit).getLsbD g.bit = decide (g = f) := by
  cases f <;> cases g <;> decide

/-- A flag read after a write of a flag. -/
theorem withFlag_getLsbD (r : Byte) (f g : Flag) (b : Bool) :
    (withFlag r f b).getLsbD g.bit = if g = f then b else r.getLsbD g.bit := by
  cases b with
  | false =>
    simp only [withFlag, Bool.false_eq_true, if_false, BitVec.getLsbD_and, BitVec.getLsbD_not,
      Flag.mask_getLsbD, g.bit_lt]
    by_cases h : g = f <;> simp [h]
  | true =>
    simp only [withFlag, if_true, BitVec.getLsbD_or, Flag.mask_getLsbD]
    by_cases h : g = f <;> simp [h]

@[simp] theorem State.setPair_pair (s : State) (i : Reg) (v : Word) : (s.setPair i v).pair i = v := by
  simp [State.pair, State.setPair_reg]

/-! ### The shared write of the multiplies -/

section
variable (s : State) (prod res : Word)

@[simp] theorem multiplyWrite_pair : (multiplyWrite prod res s).pair 0 = res :=
  s.setPair_pair 0 res

theorem multiplyWrite_flag (f : Flag) : (multiplyWrite prod res s).flag f =
    if f = .z then decide (res = 0) else if f = .c then prod.getLsbD 15 else s.flag f := by
  rw [State.flag, multiplyWrite_sreg, multiplyFlags, withFlag_getLsbD, withFlag_getLsbD]
  rfl

end

/-- Where a multiply completes with the shared write, Z tells whether R1:R0 is zero and C is bit 15 of the
product the write was given. -/
theorem flags_of_ifPresent_multiplyWrite {s t : State} {present : Bool} {prod res : Word}
    (h : ifPresent present (.next (multiplyWrite prod res s)) = .next t) :
    t.pair 0 = res ∧ t.flag .z = decide (t.pair 0 = 0) ∧ t.flag .c = prod.getLsbD 15 := by
  cases present with
  | false => cases h
  | true =>
    cases h
    simp [multiplyWrite_flag]

theorem multiplyInteger_flags {s t : State} {prod : Word} (h : multiplyInteger prod s = .next t) :
    t.flag .z = decide (t.pair 0 = 0) ∧ t.flag .c = (t.pair 0).getLsbD 15 := by
  obtain ⟨hpair, hz, hc⟩ := flags_of_ifPresent_multiplyWrite h
  exact ⟨hz, hpair ▸ hc⟩

theorem multiplyFraction_flags {s t : State} {prod : Word} (h : multiplyFraction prod s = .next t) :
    t.flag .z = decide (t.pair 0 = 0) ∧ t.flag .c = prod.getLsbD 15 :=
  (flags_of_ifPresent_multiplyWrite h).2

/-- Settles O55: the two integer multiplies and the three fractional ones each go through one shared
operation, whose flags the two lemmas above give for any product. -/
theorem multiplyFlagsFollowTheResult : Obligations.MultiplyFlagsFollowTheResult := by
  intro d r s t
  refine ⟨fun muls => ?_, fun mulsu => ?_, fun fmul => ?_, fun fmuls => ?_, fun fmulsu => ?_⟩
  · exact multiplyInteger_flags (prod := productSigned (s.reg d) (s.reg r)) muls
  · exact multiplyInteger_flags (prod := productSignedUnsigned (s.reg d) (s.reg r)) mulsu
  · exact multiplyFraction_flags (prod := productUnsigned (s.reg d) (s.reg r)) fmul
  · exact multiplyFraction_flags (prod := productSigned (s.reg d) (s.reg r)) fmuls
  · exact multiplyFraction_flags (prod := productSignedUnsigned (s.reg d) (s.reg r)) fmulsu

end Sys2Proof.Machine
end

section
/-! PROOFS. Optional instructions on a device without them (30_encoding.md, R118): the refusal of the shared
operation, of every instruction that lies behind it, and of the step that decodes one. -/

namespace Sys2Proof.Machine

theorem ifPresent_of_absent {present : Bool} (effect : Result) (absent : present = false) :
    ifPresent present effect = .refused .instructionNotPresent := by
  subst absent
  rfl

/-- R9: EICALL and EIJMP belong to a device with a 22-bit PC. -/
theorem hasExtendedJump_of_lacks_eicall {d : Device} (h : lacks d .eicall = true) :
    d.hasExtendedJump = false := by
  simpa [lacks, Device.hasExtendedJump, imp_iff_not_or] using h

/-- An instruction whose group the device lacks is one of those behind `ifPresent`, under the flag of that
group. -/
theorem exec_of_lacks {i : Instr} {s : State} (h : lacks s.device i = true) :
    exec i s = .refused .instructionNotPresent := by
  cases i with
  | eicall | eijmp => exact ifPresent_of_absent _ (hasExtendedJump_of_lacks_eicall h)
  | elpm | elpmZ | elpmZInc | espm | spm | movw | muls | mulsu | fmul | fmuls | fmulsu =>
    exact ifPresent_of_absent _ ((Bool.not_eq_true' _).mp h)
  | _ => cases h

/-- The step takes the meaning of the instruction that the fetched words decode to. -/
theorem step_of_fetch_decode {s : State} {i : Instr} {words rest : List Word}
    (hfetch : s.fetch = .ok words) (hdecode : decodeWords s.device.hasElpm words = .ok (i, rest)) :
    step s = exec i s := by
  simp only [step, hfetch, hdecode]

/-- Settles O10: the meaning refuses, and the step that decodes the instruction takes its meaning. -/
theorem missingOptionalInstructionsAreRefused : Obligations.MissingOptionalInstructionsAreRefused := by
  intro i s absent
  refine ⟨exec_of_lacks absent, fun words rest hfetch hdecode => ?_⟩
  rw [step_of_fetch_decode hfetch hdecode]
  exact exec_of_lacks absent

end Sys2Proof.Machine
end

section
/-! PROOFS. ELPM Rd,Z+ onto its own pointer (46_extended_program_memory.md, R224): the fault comes before the
program address is looked at, in every state of a device with ELPM. -/

namespace Sys2Proof.Machine

theorem ifPresent_of_present {present : Bool} (effect : Result) (h : present = true) :
    ifPresent present effect = effect := by
  subst h
  rfl

/-- R224: the instruction would load into a half of the pointer it increments. -/
theorem exec_elpmZInc_of_owns {d : Reg} {s : State} (present : s.device.hasElpm = true)
    (owned : Pointer.z.owns d = true) : exec (.elpmZInc d) s = .fault .elpmPointerDestination := by
  calc exec (.elpmZInc d) s
    _ = elpmIncrement d s := ifPresent_of_present _ present
    _ = .fault .elpmPointerDestination := if_pos owned

/-- Settles O32: each word decodes at its row of the opcode table, and r30 and r31 are the two halves of Z. -/
theorem elpmOntoItsPointerFaults : Obligations.ElpmOntoItsPointerFaults := by
  refine ⟨rfl, rfl, fun s present => ⟨?r30, ?r31⟩⟩
  case r30 => exact exec_elpmZInc_of_owns present ((Pointer.owns_iff .z 30).mpr (.inl rfl))
  case r31 => exact exec_elpmZInc_of_owns present ((Pointer.owns_iff .z 31).mpr (.inr rfl))

end Sys2Proof.Machine
end

section
/-! PROOFS. The formats of the encoding (30_encoding.md section 3), bit by bit: each packed word matches its
mask and pattern, each field reads back the operand that was packed, and a word that matches is the packing of
its own fields. -/

namespace Sys2Proof

/-! ### Registers and their numbers -/

@[simp] theorem bitsOfReg_regOfBits (b : BitVec 5) : bitsOfReg (regOfBits b) = b := by
  simp [bitsOfReg, regOfBits]

@[simp] theorem regOfBits_bitsOfReg (d : Reg) : regOfBits (bitsOfReg d) = d := by
  ext
  simp [bitsOfReg, regOfBits]

theorem isHigh_regOfBits : ∀ b : BitVec 4, Reg.isHigh (regOfBits (1#1 ++ b)) = true := by decide

theorem isMiddle_regOfBits : ∀ b : BitVec 3, Reg.isMiddle (regOfBits (0b10#2 ++ b)) = true := by decide

theorem isEven_regOfBits : ∀ b : BitVec 4, Reg.isEven (regOfBits (b ++ 0#1)) = true := by decide

/-- A register of R16 to R31 is known from the low four bits of its number. -/
theorem regOfBits_of_isHigh : ∀ d : Reg, d.isHigh = true →
    regOfBits (1#1 ++ (bitsOfReg d).extractLsb' 0 4) = d := by decide

/-- A register of R16 to R23 is known from the low three bits of its number. -/
theorem regOfBits_of_isMiddle : ∀ d : Reg, d.isMiddle = true →
    regOfBits (0b10#2 ++ (bitsOfReg d).extractLsb' 0 3) = d := by decide

/-- An even register is known from the high four bits of its number. -/
theorem regOfBits_of_isEven : ∀ d : Reg, d.isEven = true →
    regOfBits ((bitsOfReg d).extractLsb' 1 4 ++ 0#1) = d := by decide

/-! ### A packed word matches the mask and pattern of its format -/

theorem encodeRd5Rr5_and_mask (op : BitVec 6) (d r : Reg) :
    encodeRd5Rr5 op d r &&& 0xFC00 = op ++ 0#10 := by
  refine BitVec.eq_of_getLsbD_eq fun i hi => ?_
  interval_cases i <;> simp only [encodeRd5Rr5, BitVec.getLsbD_and, BitVec.getLsbD_append] <;> simp

theorem encodeRd4K8_and_mask (op : BitVec 4) (d : Reg) (K : Byte) :
    encodeRd4K8 op d K &&& 0xF000 = op ++ 0#12 := by
  refine BitVec.eq_of_getLsbD_eq fun i hi => ?_
  interval_cases i <;> simp only [encodeRd4K8, BitVec.getLsbD_and, BitVec.getLsbD_append] <;> simp

theorem encodeReg5_and_mask (op : BitVec 7) (d : Reg) (low : BitVec 4) :
    encodeReg5 op d low &&& 0xFE0F = op ++ 0#5 ++ low := by
  refine BitVec.eq_of_getLsbD_eq fun i hi => ?_
  interval_cases i <;> simp only [encodeReg5, BitVec.getLsbD_and, BitVec.getLsbD_append] <;> simp

theorem encodeReg5Q6_and_mask (s y : BitVec 1) (d : Reg) (q : BitVec 6) :
    encodeReg5Q6 s y d q &&& 0xD208 = 0b100000#6 ++ s ++ 0#5 ++ y ++ 0#3 := by
  refine BitVec.eq_of_getLsbD_eq fun i hi => ?_
  interval_cases i <;> simp only [encodeReg5Q6, BitVec.getLsbD_and, BitVec.getLsbD_append] <;> simp

theorem encodeReg5P6_and_mask (s : BitVec 1) (d : Reg) (p : IoAddr) :
    encodeReg5P6 s d p &&& 0xF800 = 0b1011#4 ++ s ++ 0#11 := by
  refine BitVec.eq_of_getLsbD_eq fun i hi => ?_
  interval_cases i <;> simp only [encodeReg5P6, BitVec.getLsbD_and, BitVec.getLsbD_append] <;> simp

theorem encodeRd4Rr4_and_mask (op : BitVec 8) (d r : Reg) :
    encodeRd4Rr4 op d r &&& 0xFF00 = op ++ 0#8 := by
  refine BitVec.eq_of_getLsbD_eq fun i hi => ?_
  interval_cases i <;> simp only [encodeRd4Rr4, BitVec.getLsbD_and, BitVec.getLsbD_append] <;> simp

theorem encodeRd4Rr4Pair_and_mask (op : BitVec 8) (d r : Reg) :
    encodeRd4Rr4Pair op d r &&& 0xFF00 = op ++ 0#8 := by
  refine BitVec.eq_of_getLsbD_eq fun i hi => ?_
  interval_cases i <;> simp only [encodeRd4Rr4Pair, BitVec.getLsbD_and, BitVec.getLsbD_append] <;> simp

theorem encodeRd3Rr3_and_mask (o7 o3 : BitVec 1) (d r : Reg) :
    encodeRd3Rr3 o7 o3 d r &&& 0xFF88 = 0b00000011#8 ++ o7 ++ 0#3 ++ o3 ++ 0#3 := by
  refine BitVec.eq_of_getLsbD_eq fun i hi => ?_
  interval_cases i <;> simp only [encodeRd3Rr3, BitVec.getLsbD_and, BitVec.getLsbD_append] <;> simp

/-! ### A field of a packed word is the operand packed -/

theorem fieldD_encodeRd5Rr5 (op : BitVec 6) (d r : Reg) : fieldD (encodeRd5Rr5 op d r) = d := by
  have bits : (encodeRd5Rr5 op d r).extractLsb' 4 5 = bitsOfReg d := by
    refine BitVec.eq_of_getLsbD_eq fun i hi => ?_
    interval_cases i <;>
      simp only [encodeRd5Rr5, BitVec.getLsbD_extractLsb', BitVec.getLsbD_append] <;> simp
  rw [fieldD, bits, regOfBits_bitsOfReg]

theorem fieldR_encodeRd5Rr5 (op : BitVec 6) (d r : Reg) : fieldR (encodeRd5Rr5 op d r) = r := by
  have bits : (encodeRd5Rr5 op d r).extractLsb' 9 1 ++ (encodeRd5Rr5 op d r).extractLsb' 0 4 =
      bitsOfReg r := by
    refine BitVec.eq_of_getLsbD_eq fun i hi => ?_
    interval_cases i <;>
      simp only [encodeRd5Rr5, BitVec.getLsbD_extractLsb', BitVec.getLsbD_append] <;> simp
  rw [fieldR, bits, regOfBits_bitsOfReg]

theorem fieldD4_encodeRd4K8 (op : BitVec 4) {d : Reg} (K : Byte) (high : d.isHigh = true) :
    fieldD4 (encodeRd4K8 op d K) = d := by
  have bits : (encodeRd4K8 op d K).extractLsb' 4 4 = (bitsOfReg d).extractLsb' 0 4 := by
    refine BitVec.eq_of_getLsbD_eq fun i hi => ?_
    interval_cases i <;>
      simp only [encodeRd4K8, BitVec.getLsbD_extractLsb', BitVec.getLsbD_append] <;> simp
  rw [fieldD4, bits, regOfBits_of_isHigh d high]

theorem fieldK_encodeRd4K8 (op : BitVec 4) (d : Reg) (K : Byte) : fieldK (encodeRd4K8 op d K) = K := by
  refine BitVec.eq_of_getLsbD_eq fun i hi => ?_
  interval_cases i <;>
    simp only [fieldK, encodeRd4K8, BitVec.getLsbD_extractLsb', BitVec.getLsbD_append] <;> simp

theorem fieldD_encodeReg5 (op : BitVec 7) (d : Reg) (low : BitVec 4) :
    fieldD (encodeReg5 op d low) = d := by
  have bits : (encodeReg5 op d low).extractLsb' 4 5 = bitsOfReg d := by
    refine BitVec.eq_of_getLsbD_eq fun i hi => ?_
    interval_cases i <;>
      simp only [encodeReg5, BitVec.getLsbD_extractLsb', BitVec.getLsbD_append] <;> simp
  rw [fieldD, bits, regOfBits_bitsOfReg]

theorem fieldD_encodeReg5Q6 (s y : BitVec 1) (d : Reg) (q : BitVec 6) :
    fieldD (encodeReg5Q6 s y d q) = d := by
  have bits : (encodeReg5Q6 s y d q).extractLsb' 4 5 = bitsOfReg d := by
    refine BitVec.eq_of_getLsbD_eq fun i hi => ?_
    interval_cases i <;>
      simp only [encodeReg5Q6, BitVec.getLsbD_extractLsb', BitVec.getLsbD_append] <;> simp
  rw [fieldD, bits, regOfBits_bitsOfReg]

theorem fieldQ_encodeReg5Q6 (s y : BitVec 1) (d : Reg) (q : BitVec 6) :
    fieldQ (encodeReg5Q6 s y d q) = q := by
  refine BitVec.eq_of_getLsbD_eq fun i hi => ?_
  interval_cases i <;>
    simp only [fieldQ, encodeReg5Q6, BitVec.getLsbD_extractLsb', BitVec.getLsbD_append] <;> simp

theorem fieldD_encodeReg5P6 (s : BitVec 1) (d : Reg) (p : IoAddr) :
    fieldD (encodeReg5P6 s d p) = d := by
  have bits : (encodeReg5P6 s d p).extractLsb' 4 5 = bitsOfReg d := by
    refine BitVec.eq_of_getLsbD_eq fun i hi => ?_
    interval_cases i <;>
      simp only [encodeReg5P6, BitVec.getLsbD_extractLsb', BitVec.getLsbD_append] <;> simp
  rw [fieldD, bits, regOfBits_bitsOfReg]

theorem fieldP_encodeReg5P6 (s : BitVec 1) (d : Reg) (p : IoAddr) :
    fieldP (encodeReg5P6 s d p) = p := by
  refine BitVec.eq_of_getLsbD_eq fun i hi => ?_
  interval_cases i <;>
    simp only [fieldP, encodeReg5P6, BitVec.getLsbD_extractLsb', BitVec.getLsbD_append] <;> simp

theorem fieldD4_encodeRd4Rr4 (op : BitVec 8) {d : Reg} (r : Reg) (high : d.isHigh = true) :
    fieldD4 (encodeRd4Rr4 op d r) = d := by
  have bits : (encodeRd4Rr4 op d r).extractLsb' 4 4 = (bitsOfReg d).extractLsb' 0 4 := by
    refine BitVec.eq_of_getLsbD_eq fun i hi => ?_
    interval_cases i <;>
      simp only [encodeRd4Rr4, BitVec.getLsbD_extractLsb', BitVec.getLsbD_append] <;> simp
  rw [fieldD4, bits, regOfBits_of_isHigh d high]

theorem fieldR4_encodeRd4Rr4 (op : BitVec 8) (d : Reg) {r : Reg} (high : r.isHigh = true) :
    fieldR4 (encodeRd4Rr4 op d r) = r := by
  have bits : (encodeRd4Rr4 op d r).extractLsb' 0 4 = (bitsOfReg r).extractLsb' 0 4 := by
    refine BitVec.eq_of_getLsbD_eq fun i hi => ?_
    interval_cases i <;>
      simp only [encodeRd4Rr4, BitVec.getLsbD_extractLsb', BitVec.getLsbD_append] <;> simp
  rw [fieldR4, bits, regOfBits_of_isHigh r high]

theorem fieldDPair_encodeRd4Rr4Pair (op : BitVec 8) {d : Reg} (r : Reg) (even : d.isEven = true) :
    fieldDPair (encodeRd4Rr4Pair op d r) = d := by
  have bits : (encodeRd4Rr4Pair op d r).extractLsb' 4 4 = (bitsOfReg d).extractLsb' 1 4 := by
    refine BitVec.eq_of_getLsbD_eq fun i hi => ?_
    interval_cases i <;>
      simp only [encodeRd4Rr4Pair, BitVec.getLsbD_extractLsb', BitVec.getLsbD_append] <;> simp
  rw [fieldDPair, bits, regOfBits_of_isEven d even]

theorem fieldRPair_encodeRd4Rr4Pair (op : BitVec 8) (d : Reg) {r : Reg} (even : r.isEven = true) :
    fieldRPair (encodeRd4Rr4Pair op d r) = r := by
  have bits : (encodeRd4Rr4Pair op d r).extractLsb' 0 4 = (bitsOfReg r).extractLsb' 1 4 := by
    refine BitVec.eq_of_getLsbD_eq fun i hi => ?_
    interval_cases i <;>
      simp only [encodeRd4Rr4Pair, BitVec.getLsbD_extractLsb', BitVec.getLsbD_append] <;> simp
  rw [fieldRPair, bits, regOfBits_of_isEven r even]

theorem fieldD3_encodeRd3Rr3 (o7 o3 : BitVec 1) {d : Reg} (r : Reg) (middle : d.isMiddle = true) :
    fieldD3 (encodeRd3Rr3 o7 o3 d r) = d := by
  have bits : (encodeRd3Rr3 o7 o3 d r).extractLsb' 4 3 = (bitsOfReg d).extractLsb' 0 3 := by
    refine BitVec.eq_of_getLsbD_eq fun i hi => ?_
    interval_cases i <;>
      simp only [encodeRd3Rr3, BitVec.getLsbD_extractLsb', BitVec.getLsbD_append] <;> simp
  rw [fieldD3, bits, regOfBits_of_isMiddle d middle]

theorem fieldR3_encodeRd3Rr3 (o7 o3 : BitVec 1) (d : Reg) {r : Reg} (middle : r.isMiddle = true) :
    fieldR3 (encodeRd3Rr3 o7 o3 d r) = r := by
  have bits : (encodeRd3Rr3 o7 o3 d r).extractLsb' 0 3 = (bitsOfReg r).extractLsb' 0 3 := by
    refine BitVec.eq_of_getLsbD_eq fun i hi => ?_
    interval_cases i <;>
      simp only [encodeRd3Rr3, BitVec.getLsbD_extractLsb', BitVec.getLsbD_append] <;> simp
  rw [fieldR3, bits, regOfBits_of_isMiddle r middle]

/-! ### A word that matches a format is the packing of its own fields -/

/-- A word that matches a mask and pattern is known from the pattern where the mask has a 1, and from the
word itself elsewhere. -/
theorem eq_of_and_mask {w v m p : Word} (h : w &&& m = p)
    (bits : ∀ i < 16, v.getLsbD i = if m.getLsbD i then p.getLsbD i else w.getLsbD i) : v = w := by
  refine BitVec.eq_of_getLsbD_eq fun i hi => ?_
  rw [bits i hi, ← h, BitVec.getLsbD_and]
  cases m.getLsbD i <;> simp

section
variable {w : Word}

theorem encodeRd5Rr5_fields {op : BitVec 6} (h : w &&& 0xFC00 = op ++ 0#10) :
    encodeRd5Rr5 op (fieldD w) (fieldR w) = w := by
  refine eq_of_and_mask h fun i hi => ?_
  interval_cases i <;> simp only [encodeRd5Rr5, fieldD, fieldR, bitsOfReg_regOfBits,
    BitVec.getLsbD_extractLsb', BitVec.getLsbD_append] <;> simp

theorem encodeRd4K8_fields {op : BitVec 4} (h : w &&& 0xF000 = op ++ 0#12) :
    encodeRd4K8 op (fieldD4 w) (fieldK w) = w := by
  refine eq_of_and_mask h fun i hi => ?_
  interval_cases i <;> simp only [encodeRd4K8, fieldD4, fieldK, bitsOfReg_regOfBits,
    BitVec.getLsbD_extractLsb', BitVec.getLsbD_append] <;> simp

theorem encodeReg5_fieldD {op : BitVec 7} {low : BitVec 4} (h : w &&& 0xFE0F = op ++ 0#5 ++ low) :
    encodeReg5 op (fieldD w) low = w := by
  refine eq_of_and_mask h fun i hi => ?_
  interval_cases i <;> simp only [encodeReg5, fieldD, bitsOfReg_regOfBits,
    BitVec.getLsbD_extractLsb', BitVec.getLsbD_append] <;> simp

theorem encodeReg5Q6_fields {s y : BitVec 1}
    (h : w &&& 0xD208 = 0b100000#6 ++ s ++ 0#5 ++ y ++ 0#3) :
    encodeReg5Q6 s y (fieldD w) (fieldQ w) = w := by
  refine eq_of_and_mask h fun i hi => ?_
  interval_cases i <;> simp only [encodeReg5Q6, fieldD, fieldQ, bitsOfReg_regOfBits,
    BitVec.getLsbD_extractLsb', BitVec.getLsbD_append] <;> simp

theorem encodeReg5P6_fields {s : BitVec 1} (h : w &&& 0xF800 = 0b1011#4 ++ s ++ 0#11) :
    encodeReg5P6 s (fieldD w) (fieldP w) = w := by
  refine eq_of_and_mask h fun i hi => ?_
  interval_cases i <;> simp only [encodeReg5P6, fieldD, fieldP, bitsOfReg_regOfBits,
    BitVec.getLsbD_extractLsb', BitVec.getLsbD_append] <;> simp

theorem encodeRd4Rr4_fields {op : BitVec 8} (h : w &&& 0xFF00 = op ++ 0#8) :
    encodeRd4Rr4 op (fieldD4 w) (fieldR4 w) = w := by
  refine eq_of_and_mask h fun i hi => ?_
  interval_cases i <;> simp only [encodeRd4Rr4, fieldD4, fieldR4, bitsOfReg_regOfBits,
    BitVec.getLsbD_extractLsb', BitVec.getLsbD_append] <;> simp

theorem encodeRd4Rr4Pair_fields {op : BitVec 8} (h : w &&& 0xFF00 = op ++ 0#8) :
    encodeRd4Rr4Pair op (fieldDPair w) (fieldRPair w) = w := by
  refine eq_of_and_mask h fun i hi => ?_
  interval_cases i <;> simp only [encodeRd4Rr4Pair, fieldDPair, fieldRPair, bitsOfReg_regOfBits,
    BitVec.getLsbD_extractLsb', BitVec.getLsbD_append] <;> simp

theorem encodeRd3Rr3_fields {o7 o3 : BitVec 1}
    (h : w &&& 0xFF88 = 0b00000011#8 ++ o7 ++ 0#3 ++ o3 ++ 0#3) :
    encodeRd3Rr3 o7 o3 (fieldD3 w) (fieldR3 w) = w := by
  refine eq_of_and_mask h fun i hi => ?_
  interval_cases i <;> simp only [encodeRd3Rr3, fieldD3, fieldR3, bitsOfReg_regOfBits,
    BitVec.getLsbD_extractLsb', BitVec.getLsbD_append] <;> simp

/-- The mask of LPM on a device without ELPM does not look at bit 4 (R116). -/
theorem eq_of_and_lpmMask (h : w &&& 0xFFEF = 0x95C8) : w = 0x95C8 ∨ w = 0x95D8 := by
  cases bit4 : w[4] with
  | false =>
    refine .inl (eq_of_and_mask h fun i hi => ?_).symm
    interval_cases i <;> simp [bit4]
  | true =>
    refine .inr (eq_of_and_mask h fun i hi => ?_).symm
    interval_cases i <;> simp [bit4]

end

end Sys2Proof
end

section
/-! PROOFS. The opcode table (30_encoding.md sections 4 and 5): rows that a fixed bit tells apart, the
overlaps of R113, and the words of R117 that match no row. -/

namespace Sys2Proof

/-- A word that matches two masks has the bits of both patterns where the masks meet. -/
theorem patterns_agree {w m p m' p' : Word} (h : w &&& m = p) (h' : w &&& m' = p') :
    p &&& m' = p' &&& m := by
  rw [← h, ← h', BitVec.and_assoc, BitVec.and_assoc, BitVec.and_comm m m']

theorem opcodeRows_length (hasElpm : Bool) : (opcodeRows hasElpm).length = 44 := by
  cases hasElpm <;> rfl

/-- R110: rows at positions that R113 does not list differ in a bit that both masks fix. -/
theorem listed_of_patterns_agree : ∀ (hasElpm : Bool) (j k : Fin 44), j < k →
    ∀ a ∈ (opcodeRows hasElpm)[j.val]?, ∀ b ∈ (opcodeRows hasElpm)[k.val]?,
      a.pattern &&& b.mask = b.pattern &&& a.mask →
      (j.val, k.val) ∈ [(10, 13), (14, 17), (18, 21), (22, 25)] ∨
        (hasElpm = false ∧ (j.val, k.val) = (26, 33)) := by
  decide +kernel

/-- Settles O4: two rows that share a word agree where their masks meet, and the table's own patterns agree
only at the listed positions. -/
theorem opcodeRowsOverlapOnlyAsListed : Obligations.OpcodeRowsOverlapOnlyAsListed := by
  intro hasElpm j k a b w hjk ha hb hwa hwb
  have inTable {n : Nat} {row : OpcodeRow} (h : (opcodeRows hasElpm)[n]? = some row) : n < 44 :=
    opcodeRows_length hasElpm ▸ (List.getElem?_eq_some_iff.mp h).1
  exact listed_of_patterns_agree hasElpm ⟨j, inTable ha⟩ ⟨k, inTable hb⟩ hjk a ha b hb
    (patterns_agree hwa hwb)

/-! ### Words that match no row (R117) -/

/-- Words of one mask and pattern match no row that differs from the pattern in a bit both masks fix. -/
theorem unmatched_of_patterns_differ {w m p : Word} (h : w &&& m = p) {rows : List OpcodeRow}
    (differ : ∀ row ∈ rows, ¬ (p &&& row.mask = row.pattern &&& m)) :
    ∀ row ∈ rows, ¬ (w &&& row.mask = row.pattern) :=
  fun row hrow hw => differ row hrow (patterns_agree h hw)

/-- The free low nibbles of `1001 000d dddd nnnn`. -/
theorem load_nibbles_differ : ∀ (hasElpm : Bool), ∀ n ∈ [(3 : BitVec 4), 4, 5, 8, 11],
    ∀ row ∈ opcodeRows hasElpm,
      ¬ ((0b1001000#7 ++ 0#5 ++ n) &&& row.mask = row.pattern &&& 0xFE0F) := by
  decide +kernel

/-- The free low nibbles of `1001 001r rrrr nnnn`. -/
theorem store_nibbles_differ : ∀ (hasElpm : Bool), ∀ n ∈ [(3 : BitVec 4), 4, 5, 6, 7, 8, 11],
    ∀ row ∈ opcodeRows hasElpm,
      ¬ ((0b1001001#7 ++ 0#5 ++ n) &&& row.mask = row.pattern &&& 0xFE0F) := by
  decide +kernel

/-- Among the words `1001 010x xxxx xxxx` there are rows of the NONE format alone: each fixes every bit, but
for the LPM row of a device without ELPM. -/
theorem none_format_rows : ∀ (hasElpm : Bool), ∀ row ∈ opcodeRows hasElpm,
    0x9400 &&& row.mask = row.pattern &&& 0xFE00 →
      (row.mask = 0xFFFF ∧ row.pattern ∈ [(0x95C8 : Word), 0x9519, 0x9419, 0x95D8, 0x95F8, 0x95E8]) ∨
      (row.mask = 0xFFEF ∧ row.pattern = 0x95C8) := by
  decide +kernel

theorem none_format_listed {hasElpm : Bool} {w : Word} (h : w &&& 0xFE00 = 0x9400) {row : OpcodeRow}
    (hrow : row ∈ opcodeRows hasElpm) (hw : w &&& row.mask = row.pattern) :
    w ∈ [(0x95C8 : Word), 0x9519, 0x9419, 0x95D8, 0x95F8, 0x95E8] := by
  rcases none_format_rows hasElpm row hrow (patterns_agree h hw) with ⟨mask, listed⟩ | ⟨mask, pattern⟩
  · have whole : w = row.pattern := by rw [← hw, mask]; exact (BitVec.and_allOnes (x := w)).symm
    exact whole ▸ listed
  · rw [mask, pattern] at hw
    rcases eq_of_and_lpmMask hw with rfl | rfl <;> decide

theorem zero_byte_differs : ∀ (hasElpm : Bool), ∀ row ∈ opcodeRows hasElpm,
    ¬ ((0 : Word) &&& row.mask = row.pattern &&& 0xFF00) := by
  decide +kernel

theorem joinBytes_zero_and_mask (b : Byte) : joinBytes 0 b &&& 0xFF00 = 0 := by
  refine BitVec.eq_of_getLsbD_eq fun i hi => ?_
  interval_cases i <;> simp only [BitVec.getLsbD_and, Machine.joinBytes_getLsbD] <;> simp

/-! ### The row a word selects -/

theorem rowOf_eq_none {hasElpm : Bool} {w : Word}
    (h : ∀ row ∈ opcodeRows hasElpm, ¬ (w &&& row.mask = row.pattern)) : rowOf hasElpm w = none := by
  simpa [rowOf, List.find?_eq_none] using h

theorem rowOf_eq_some {hasElpm : Bool} {w : Word} {row : OpcodeRow} (h : rowOf hasElpm w = some row) :
    row ∈ opcodeRows hasElpm ∧ w &&& row.mask = row.pattern :=
  ⟨List.mem_of_find?_eq_some h, by simpa using List.find?_some h⟩

/-- A row that a word matches is the one it selects, where no earlier row matches the word. -/
theorem rowOf_of_first {hasElpm : Bool} {w : Word} {k : Nat} {row : OpcodeRow}
    (hrow : (opcodeRows hasElpm)[k]? = some row) (hw : w &&& row.mask = row.pattern)
    (first : ∀ j a, j < k → (opcodeRows hasElpm)[j]? = some a → ¬ (w &&& a.mask = a.pattern)) :
    rowOf hasElpm w = some row := by
  obtain ⟨hk, rfl⟩ := List.getElem?_eq_some_iff.mp hrow
  refine List.find?_eq_some_iff_getElem.mpr ⟨by simpa using hw, k, hk, rfl, fun j hj => ?_⟩
  simpa using first j _ hj (List.getElem?_eq_getElem (by omega))

/-- No earlier row matches a word of a row that R113 does not list as the later one of an overlap. -/
theorem rowOf_of_match {hasElpm : Bool} {w : Word} {k : Nat} {row : OpcodeRow}
    (hrow : (opcodeRows hasElpm)[k]? = some row) (hw : w &&& row.mask = row.pattern)
    (alone : k ∉ [13, 17, 21, 25]) (elpm : k = 33 → hasElpm = true) : rowOf hasElpm w = some row := by
  refine rowOf_of_first hrow hw fun j a hj ha hwa => ?_
  rcases opcodeRowsOverlapOnlyAsListed hasElpm j k a row w hj ha hrow hwa hw with listed | ⟨absent, hjk⟩
  · exact absurd (List.mem_map_of_mem (f := Prod.snd) listed) alone
  · cases hjk
    exact Bool.false_ne_true (absent.symm.trans (elpm rfl))

/-- A displacement word with q not 0 selects its own row: it is no word of the plain form, the one row that
can come before it (R113). -/
theorem rowOf_of_displacement {hasElpm : Bool} {w : Word} {k : Nat} {row plain : OpcodeRow}
    (hrow : (opcodeRows hasElpm)[k]? = some row) (hw : w &&& row.mask = row.pattern)
    {j : Nat} (listed : (j, k) ∈ [(10, 13), (14, 17), (18, 21), (22, 25)])
    (hplain : (opcodeRows hasElpm)[j]? = some plain) (notPlain : ¬ (w &&& plain.mask = plain.pattern)) :
    rowOf hasElpm w = some row := by
  refine rowOf_of_first hrow hw fun i a hi ha hwa => ?_
  have hij : i = j := by
    rcases opcodeRowsOverlapOnlyAsListed hasElpm i k a row w hi ha hrow hwa hw with h | ⟨-, h⟩ <;>
      simp at h listed <;> omega
  subst hij
  rw [hplain] at ha
  cases ha
  exact notPlain hwa

/-! ### Decoding one instruction -/

/-- The words of an instruction decode to what its row builds, and the words after it are left. -/
theorem decodeWords_of_rowOf {hasElpm : Bool} {w : Word} {tail : List Word} {row : OpcodeRow}
    (hrow : rowOf hasElpm w = some row) (length : tail.length = if isTwoWord w then 1 else 0)
    (rest : List Word) :
    decodeWords hasElpm (w :: (tail ++ rest)) = .ok (row.build w (tail.headD 0), rest) := by
  by_cases two : isTwoWord w = true
  · rw [if_pos two] at length
    obtain ⟨k, rfl⟩ := List.length_eq_one_iff.mp length
    simp [decodeWords, hrow, two]
  · rw [if_neg two] at length
    obtain rfl := List.eq_nil_of_length_eq_zero length
    simp [decodeWords, hrow, two]

/-- What the decoder reads is built by a row of the table that the first word matches, from that word alone or
from it and the next (R100). -/
theorem decodeWords_eq_ok {hasElpm : Bool} {words rest : List Word} {i : Instr}
    (h : decodeWords hasElpm words = .ok (i, rest)) :
    ∃ w k row, row ∈ opcodeRows hasElpm ∧ w &&& row.mask = row.pattern ∧ i = row.build w k ∧
      words = w :: ((if isTwoWord w then [k] else []) ++ rest) := by
  cases words with
  | nil => cases h
  | cons w tail =>
    cases hrow : rowOf hasElpm w with
    | none => simp [decodeWords, hrow] at h
    | some row =>
      obtain ⟨hmem, hw⟩ := rowOf_eq_some hrow
      by_cases two : isTwoWord w = true
      · cases tail with
        | nil => simp [decodeWords, hrow, two] at h
        | cons k tail =>
          simp only [decodeWords, hrow, two, if_true, Except.ok.injEq, Prod.mk.injEq] at h
          obtain ⟨rfl, rfl⟩ := h
          exact ⟨w, k, row, hmem, hw, rfl, by simp [two]⟩
      · simp only [decodeWords, hrow, two, Bool.false_eq_true, if_false, Except.ok.injEq,
          Prod.mk.injEq] at h
        obtain ⟨rfl, rfl⟩ := h
        exact ⟨w, 0, row, hmem, hw, rfl, by simp [two]⟩

end Sys2Proof
end

section
/-! PROOFS. Decode and encode agree (30_encoding.md): each row of the table builds a well-formed instruction
that encodes to the words it was built from, and each well-formed instruction has a row that its first word
selects. -/

namespace Sys2Proof

/-! ### From words to the instruction and back -/

/-- An instruction's first word says how many words it has, for every instruction. -/
theorem Laws.Length.of_instr (i : Instr) : Laws.Length.Statement i := by
  cases i with
  | mov => exact mov ..
  | lds => exact lds ..
  | sts => exact sts ..
  | ldi => exact ldi ..
  | ldX => exact ldX ..
  | ldXInc => exact ldXInc ..
  | ldXDec => exact ldXDec ..
  | stX => exact stX ..
  | stXInc => exact stXInc ..
  | stXDec => exact stXDec ..
  | ldY => exact ldY ..
  | ldYInc => exact ldYInc ..
  | ldYDec => exact ldYDec ..
  | lddY => exact lddY ..
  | stY => exact stY ..
  | stYInc => exact stYInc ..
  | stYDec => exact stYDec ..
  | stdY => exact stdY ..
  | ldZ => exact ldZ ..
  | ldZInc => exact ldZInc ..
  | ldZDec => exact ldZDec ..
  | lddZ => exact lddZ ..
  | stZ => exact stZ ..
  | stZInc => exact stZInc ..
  | stZDec => exact stZDec ..
  | stdZ => exact stdZ ..
  | lpm => exact lpm
  | inp => exact inp ..
  | out => exact out ..
  | push => exact push ..
  | pop => exact pop ..
  | eicall => exact eicall
  | eijmp => exact eijmp
  | elpm => exact elpm
  | elpmZ => exact elpmZ ..
  | elpmZInc => exact elpmZInc ..
  | espm => exact espm
  | fmul => exact fmul ..
  | fmuls => exact fmuls ..
  | fmulsu => exact fmulsu ..
  | movw => exact movw ..
  | muls => exact muls ..
  | mulsu => exact mulsu ..
  | spm => exact spm

/-- The instruction is well formed and encodes to `w`, with `k` as its second word where it has one. -/
def Instr.encodesTo (i : Instr) (w k : Word) : Prop :=
  i.wellFormed = true ∧ (encode i = [w] ∨ encode i = [w, k])

/-- The first word settles whether there is a second. -/
theorem Instr.encode_of_encodesTo {i : Instr} {w k : Word} (h : i.encodesTo w k) :
    encode i = w :: (if isTwoWord w then [k] else []) := by
  obtain ⟨v, tail, henc, hlen⟩ := Laws.Length.of_instr i
  rcases h.2 with hw | hw
  · obtain ⟨rfl, rfl⟩ := List.cons.inj (hw.symm.trans henc)
    have one : isTwoWord w = false := by simpa using hlen
    simp [hw, one]
  · obtain ⟨rfl, rfl⟩ := List.cons.inj (hw.symm.trans henc)
    have two : isTwoWord w = true := by simpa using hlen
    simp [hw, two]

/-- What the row builds from any word it matches encodes to that word. -/
def OpcodeRow.faithful (row : OpcodeRow) : Prop :=
  ∀ w k, w &&& row.mask = row.pattern → (row.build w k).encodesTo w k

theorem encodesTo_of_encode {i : Instr} {v w k : Word} (wf : i.wellFormed = true) (henc : encode i = [v])
    (h : v = w) : i.encodesTo w k :=
  ⟨wf, .inl (h ▸ henc)⟩

theorem rowsDirectX_faithful : ∀ row ∈ rowsDirectX, row.faithful := by
  simp only [rowsDirectX, List.forall_mem_cons, List.not_mem_nil, false_implies, implies_true, and_true]
  exact ⟨fun _ _ h => encodesTo_of_encode rfl rfl (encodeRd5Rr5_fields h),
    fun _ _ h => ⟨rfl, .inr (congrArg (fun v => [v, _]) (encodeReg5_fieldD h))⟩,
    fun _ _ h => ⟨rfl, .inr (congrArg (fun v => [v, _]) (encodeReg5_fieldD h))⟩,
    fun _ _ h => encodesTo_of_encode (isHigh_regOfBits _) rfl (encodeRd4K8_fields h),
    fun _ _ h => encodesTo_of_encode rfl rfl (encodeReg5_fieldD h),
    fun _ _ h => encodesTo_of_encode rfl rfl (encodeReg5_fieldD h),
    fun _ _ h => encodesTo_of_encode rfl rfl (encodeReg5_fieldD h),
    fun _ _ h => encodesTo_of_encode rfl rfl (encodeReg5_fieldD h),
    fun _ _ h => encodesTo_of_encode rfl rfl (encodeReg5_fieldD h),
    fun _ _ h => encodesTo_of_encode rfl rfl (encodeReg5_fieldD h)⟩

theorem rowsY_faithful : ∀ row ∈ rowsY, row.faithful := by
  simp only [rowsY, List.forall_mem_cons, List.not_mem_nil, false_implies, implies_true, and_true]
  exact ⟨fun _ _ h => encodesTo_of_encode rfl rfl (encodeReg5_fieldD h),
    fun _ _ h => encodesTo_of_encode rfl rfl (encodeReg5_fieldD h),
    fun _ _ h => encodesTo_of_encode rfl rfl (encodeReg5_fieldD h),
    fun _ _ h => encodesTo_of_encode rfl rfl (encodeReg5Q6_fields h),
    fun _ _ h => encodesTo_of_encode rfl rfl (encodeReg5_fieldD h),
    fun _ _ h => encodesTo_of_encode rfl rfl (encodeReg5_fieldD h),
    fun _ _ h => encodesTo_of_encode rfl rfl (encodeReg5_fieldD h),
    fun _ _ h => encodesTo_of_encode rfl rfl (encodeReg5Q6_fields h)⟩

theorem rowsZ_faithful : ∀ row ∈ rowsZ, row.faithful := by
  simp only [rowsZ, List.forall_mem_cons, List.not_mem_nil, false_implies, implies_true, and_true]
  exact ⟨fun _ _ h => encodesTo_of_encode rfl rfl (encodeReg5_fieldD h),
    fun _ _ h => encodesTo_of_encode rfl rfl (encodeReg5_fieldD h),
    fun _ _ h => encodesTo_of_encode rfl rfl (encodeReg5_fieldD h),
    fun _ _ h => encodesTo_of_encode rfl rfl (encodeReg5Q6_fields h),
    fun _ _ h => encodesTo_of_encode rfl rfl (encodeReg5_fieldD h),
    fun _ _ h => encodesTo_of_encode rfl rfl (encodeReg5_fieldD h),
    fun _ _ h => encodesTo_of_encode rfl rfl (encodeReg5_fieldD h),
    fun _ _ h => encodesTo_of_encode rfl rfl (encodeReg5Q6_fields h)⟩

/-- A row of the NONE format fixes the whole word. -/
theorem eq_pattern_of_and_ones {w p : Word} (h : w &&& 0xFFFF = p) : p = w :=
  h ▸ (BitVec.and_allOnes (x := w))

/-- The row of LPM is left out: on a device without ELPM it matches a second word (R116). -/
theorem rowsSystem_faithful (hasElpm : Bool) : ∀ row ∈ (rowsSystem hasElpm).tail, row.faithful := by
  simp only [rowsSystem, List.tail_cons, List.forall_mem_cons, List.not_mem_nil, false_implies,
    implies_true, and_true]
  exact ⟨fun _ _ h => encodesTo_of_encode rfl rfl (encodeReg5P6_fields h),
    fun _ _ h => encodesTo_of_encode rfl rfl (encodeReg5P6_fields h),
    fun _ _ h => encodesTo_of_encode rfl rfl (encodeReg5_fieldD h),
    fun _ _ h => encodesTo_of_encode rfl rfl (encodeReg5_fieldD h),
    fun _ _ h => encodesTo_of_encode rfl rfl (eq_pattern_of_and_ones h),
    fun _ _ h => encodesTo_of_encode rfl rfl (eq_pattern_of_and_ones h),
    fun _ _ h => encodesTo_of_encode rfl rfl (eq_pattern_of_and_ones h),
    fun _ _ h => encodesTo_of_encode rfl rfl (encodeReg5_fieldD h),
    fun _ _ h => encodesTo_of_encode rfl rfl (encodeReg5_fieldD h),
    fun _ _ h => encodesTo_of_encode rfl rfl (eq_pattern_of_and_ones h)⟩

theorem rowsMultiply_faithful : ∀ row ∈ rowsMultiply, row.faithful := by
  have middle (a b : BitVec 3) : Reg.isMiddle (regOfBits (0b10#2 ++ a)) &&
      Reg.isMiddle (regOfBits (0b10#2 ++ b)) := by
    rw [isMiddle_regOfBits, isMiddle_regOfBits]; rfl
  simp only [rowsMultiply, List.forall_mem_cons, List.not_mem_nil, false_implies, implies_true, and_true]
  exact ⟨fun _ _ h => encodesTo_of_encode (middle _ _) rfl (encodeRd3Rr3_fields h),
    fun _ _ h => encodesTo_of_encode (middle _ _) rfl (encodeRd3Rr3_fields h),
    fun _ _ h => encodesTo_of_encode (middle _ _) rfl (encodeRd3Rr3_fields h),
    fun _ _ h => encodesTo_of_encode
      (Bool.and_eq_true_iff.mpr ⟨isEven_regOfBits _, isEven_regOfBits _⟩) rfl (encodeRd4Rr4Pair_fields h),
    fun _ _ h => encodesTo_of_encode
      (Bool.and_eq_true_iff.mpr ⟨isHigh_regOfBits _, isHigh_regOfBits _⟩) rfl (encodeRd4Rr4_fields h),
    fun _ _ h => encodesTo_of_encode (middle _ _) rfl (encodeRd3Rr3_fields h),
    fun _ _ h => encodesTo_of_encode rfl rfl (eq_pattern_of_and_ones h)⟩

/-- LPM is read from its own word, or from 0x95D8 on a device without ELPM (R116). -/
theorem eq_of_lpm_row {hasElpm : Bool} {w : Word} (h : w &&& lpmMask hasElpm = 0x95C8) :
    w = 0x95C8 ∨ (hasElpm = false ∧ w = 0x95D8) := by
  cases hasElpm with
  | true => exact .inl (eq_pattern_of_and_ones h).symm
  | false => exact (eq_of_and_lpmMask h).imp_right fun h => ⟨rfl, h⟩

/-- Every row builds an instruction that encodes to the words read, but LPM from 0x95D8. -/
theorem opcodeRows_encodesTo {hasElpm : Bool} {row : OpcodeRow} (hrow : row ∈ opcodeRows hasElpm)
    {w k : Word} (hw : w &&& row.mask = row.pattern) (notSecond : hasElpm = true ∨ w ≠ 0x95D8) :
    (row.build w k).encodesTo w k := by
  simp only [opcodeRows, List.mem_append] at hrow
  rcases hrow with (((directX | y) | z) | system) | multiply
  · exact rowsDirectX_faithful row directX w k hw
  · exact rowsY_faithful row y w k hw
  · exact rowsZ_faithful row z w k hw
  · rcases List.mem_cons.mp system with rfl | system
    · rcases eq_of_lpm_row hw with h | ⟨rfl, h⟩
      · exact encodesTo_of_encode rfl rfl h.symm
      · exact absurd h (notSecond.resolve_left (by decide))
    · exact rowsSystem_faithful hasElpm row system w k hw
  · exact rowsMultiply_faithful row multiply w k hw

/-- Settles O2: what is decoded is built by a row that the first word matches, and every row encodes what it
builds to the words it was built from. -/
theorem encodingTheDecodedGivesTheWords : Obligations.EncodingTheDecodedGivesTheWords := by
  intro hasElpm words rest i h notSecond
  obtain ⟨w, k, row, hrow, hw, rfl, rfl⟩ := decodeWords_eq_ok h
  have henc : (row.build w k).encodesTo w k :=
    opcodeRows_encodesTo hrow hw (notSecond.imp_right fun h hw => h (congrArg some hw))
  exact ⟨henc.1, by rw [Instr.encode_of_encodesTo henc, List.cons_append]⟩

/-! ### From the instruction to words and back -/

/-- The instruction's first word selects a row that builds it in its canonical form. -/
def selectsItsRow (hasElpm : Bool) (i : Instr) : Prop :=
  ∃ w tail row, encode i = w :: tail ∧ rowOf hasElpm w = some row ∧
    row.build w (tail.headD 0) = i.canonical

/-- An instruction at a row that is not the later one of an overlap. -/
theorem selectsItsRow_at {hasElpm : Bool} {i : Instr} {w : Word} {tail : List Word} {row : OpcodeRow}
    (k : Nat) (hrow : (opcodeRows hasElpm)[k]? = some row) (henc : encode i = w :: tail)
    (hw : w &&& row.mask = row.pattern) (hi : row.build w (tail.headD 0) = i.canonical)
    (alone : k ∉ [13, 17, 21, 25] ∧ k ≠ 33 := by decide) : selectsItsRow hasElpm i :=
  ⟨w, tail, row, henc, rowOf_of_match hrow hw alone.1 (fun h => absurd h alone.2), hi⟩

/-- `ELPM` has its word to itself on a device with ELPM (R116). -/
theorem selectsItsRow_elpm : selectsItsRow true .elpm :=
  ⟨_, _, _, rfl, rowOf_of_match (k := 33) rfl (by decide) (by decide) (fun _ => rfl), rfl⟩

/-- The words of a displacement form with q = 0 are those of the plain form (R113). -/
theorem encodeReg5Q6_zero (s y : BitVec 1) (d : Reg) :
    encodeReg5Q6 s y d 0 = encodeReg5 (0b100000#6 ++ s) d (y ++ 0#3) := by
  refine BitVec.eq_of_getLsbD_eq fun i hi => ?_
  interval_cases i <;> simp only [encodeReg5Q6, encodeReg5, BitVec.getLsbD_append] <;> simp

/-- A displacement word that matches the plain row has q = 0. -/
theorem displacement_eq_zero {s y : BitVec 1} {d : Reg} {q : BitVec 6}
    (h : encodeReg5Q6 s y d q &&& 0xFE0F = (0b100000#6 ++ s) ++ 0#5 ++ (y ++ 0#3)) : q = 0 := by
  have plain : encodeReg5Q6 s y (fieldD (encodeReg5Q6 s y d q)) 0 = encodeReg5Q6 s y d q :=
    (encodeReg5Q6_zero ..).trans (encodeReg5_fieldD h)
  calc q
    _ = fieldQ (encodeReg5Q6 s y d q) := (fieldQ_encodeReg5Q6 ..).symm
    _ = 0 := by rw [← plain, fieldQ_encodeReg5Q6]

/-- The displacement form at row `k`, whose plain form is at row `j`: with q = 0 the plain row is selected, and
otherwise its own (R113). -/
theorem selectsItsRow_displacement {hasElpm : Bool} {i : Instr} {s y : BitVec 1} {d : Reg} {q : BitVec 6}
    {row plain : OpcodeRow} (j k : Nat) (hplain : (opcodeRows hasElpm)[j]? = some plain)
    (hrow : (opcodeRows hasElpm)[k]? = some row) (henc : encode i = [encodeReg5Q6 s y d q])
    (plainWord : plain.mask = 0xFE0F ∧ plain.pattern = (0b100000#6 ++ s) ++ 0#5 ++ (y ++ 0#3))
    (rowWord : row.mask = 0xD208 ∧ row.pattern = 0b100000#6 ++ s ++ 0#5 ++ y ++ 0#3)
    (hi : i.canonical = if q = 0 then plain.build (encodeReg5Q6 s y d q) 0
      else row.build (encodeReg5Q6 s y d q) 0)
    (listed : (j, k) ∈ [(10, 13), (14, 17), (18, 21), (22, 25)] ∧ j ∉ [13, 17, 21, 25] ∧ j ≠ 33 := by
      decide) : selectsItsRow hasElpm i := by
  obtain ⟨pmask, ppattern⟩ := plainWord
  obtain ⟨rmask, rpattern⟩ := rowWord
  by_cases hq : q = 0
  · rw [if_pos hq] at hi
    refine ⟨_, [], plain, henc, rowOf_of_match hplain ?_ listed.2.1 fun h => absurd h listed.2.2, hi.symm⟩
    rw [pmask, ppattern, hq, encodeReg5Q6_zero, encodeReg5_and_mask]
  · rw [if_neg hq] at hi
    refine ⟨_, [], row, henc, rowOf_of_displacement hrow ?_ listed.1 hplain ?_, hi.symm⟩
    · rw [rmask, rpattern, encodeReg5Q6_and_mask]
    · rw [pmask, ppattern]
      exact fun h => hq (displacement_eq_zero h)

/-- Every well-formed instruction is what the row of its first word builds, in its canonical form; on a device
without ELPM the word of `ELPM` is LPM's. -/
theorem selectsItsRow_of_wellFormed {hasElpm : Bool} {i : Instr} (wf : i.wellFormed = true)
    (notElpm : hasElpm = true ∨ i ≠ .elpm) : selectsItsRow hasElpm i := by
  cases i with
  | mov =>
    exact selectsItsRow_at 0 rfl rfl (encodeRd5Rr5_and_mask ..)
      (congrArg₂ Instr.mov (fieldD_encodeRd5Rr5 ..) (fieldR_encodeRd5Rr5 ..))
  | lds _ k =>
    exact selectsItsRow_at 1 rfl rfl (encodeReg5_and_mask ..)
      (congrArg (Instr.lds · k) (fieldD_encodeReg5 ..))
  | sts k =>
    exact selectsItsRow_at 2 rfl rfl (encodeReg5_and_mask ..)
      (congrArg (Instr.sts k) (fieldD_encodeReg5 ..))
  | ldi =>
    exact selectsItsRow_at 3 rfl rfl (encodeRd4K8_and_mask ..)
      (congrArg₂ Instr.ldi (fieldD4_encodeRd4K8 _ _ wf) (fieldK_encodeRd4K8 ..))
  | ldX =>
    exact selectsItsRow_at 4 rfl rfl (encodeReg5_and_mask ..)
      (congrArg Instr.ldX (fieldD_encodeReg5 ..))
  | ldXInc =>
    exact selectsItsRow_at 5 rfl rfl (encodeReg5_and_mask ..)
      (congrArg Instr.ldXInc (fieldD_encodeReg5 ..))
  | ldXDec =>
    exact selectsItsRow_at 6 rfl rfl (encodeReg5_and_mask ..)
      (congrArg Instr.ldXDec (fieldD_encodeReg5 ..))
  | stX =>
    exact selectsItsRow_at 7 rfl rfl (encodeReg5_and_mask ..)
      (congrArg Instr.stX (fieldD_encodeReg5 ..))
  | stXInc =>
    exact selectsItsRow_at 8 rfl rfl (encodeReg5_and_mask ..)
      (congrArg Instr.stXInc (fieldD_encodeReg5 ..))
  | stXDec =>
    exact selectsItsRow_at 9 rfl rfl (encodeReg5_and_mask ..)
      (congrArg Instr.stXDec (fieldD_encodeReg5 ..))
  | ldY =>
    exact selectsItsRow_at 10 rfl rfl (encodeReg5_and_mask ..)
      (congrArg Instr.ldY (fieldD_encodeReg5 ..))
  | ldYInc =>
    exact selectsItsRow_at 11 rfl rfl (encodeReg5_and_mask ..)
      (congrArg Instr.ldYInc (fieldD_encodeReg5 ..))
  | ldYDec =>
    exact selectsItsRow_at 12 rfl rfl (encodeReg5_and_mask ..)
      (congrArg Instr.ldYDec (fieldD_encodeReg5 ..))
  | lddY =>
    exact selectsItsRow_displacement 10 13 rfl rfl rfl ⟨rfl, by decide⟩ ⟨rfl, by decide⟩
      (by simp [Instr.canonical, fieldD_encodeReg5Q6, fieldQ_encodeReg5Q6])
  | stY =>
    exact selectsItsRow_at 14 rfl rfl (encodeReg5_and_mask ..)
      (congrArg Instr.stY (fieldD_encodeReg5 ..))
  | stYInc =>
    exact selectsItsRow_at 15 rfl rfl (encodeReg5_and_mask ..)
      (congrArg Instr.stYInc (fieldD_encodeReg5 ..))
  | stYDec =>
    exact selectsItsRow_at 16 rfl rfl (encodeReg5_and_mask ..)
      (congrArg Instr.stYDec (fieldD_encodeReg5 ..))
  | stdY =>
    exact selectsItsRow_displacement 14 17 rfl rfl rfl ⟨rfl, by decide⟩ ⟨rfl, by decide⟩
      (by simp [Instr.canonical, fieldD_encodeReg5Q6, fieldQ_encodeReg5Q6])
  | ldZ =>
    exact selectsItsRow_at 18 rfl rfl (encodeReg5_and_mask ..)
      (congrArg Instr.ldZ (fieldD_encodeReg5 ..))
  | ldZInc =>
    exact selectsItsRow_at 19 rfl rfl (encodeReg5_and_mask ..)
      (congrArg Instr.ldZInc (fieldD_encodeReg5 ..))
  | ldZDec =>
    exact selectsItsRow_at 20 rfl rfl (encodeReg5_and_mask ..)
      (congrArg Instr.ldZDec (fieldD_encodeReg5 ..))
  | lddZ =>
    exact selectsItsRow_displacement 18 21 rfl rfl rfl ⟨rfl, by decide⟩ ⟨rfl, by decide⟩
      (by simp [Instr.canonical, fieldD_encodeReg5Q6, fieldQ_encodeReg5Q6])
  | stZ =>
    exact selectsItsRow_at 22 rfl rfl (encodeReg5_and_mask ..)
      (congrArg Instr.stZ (fieldD_encodeReg5 ..))
  | stZInc =>
    exact selectsItsRow_at 23 rfl rfl (encodeReg5_and_mask ..)
      (congrArg Instr.stZInc (fieldD_encodeReg5 ..))
  | stZDec =>
    exact selectsItsRow_at 24 rfl rfl (encodeReg5_and_mask ..)
      (congrArg Instr.stZDec (fieldD_encodeReg5 ..))
  | stdZ =>
    exact selectsItsRow_displacement 22 25 rfl rfl rfl ⟨rfl, by decide⟩ ⟨rfl, by decide⟩
      (by simp [Instr.canonical, fieldD_encodeReg5Q6, fieldQ_encodeReg5Q6])
  | lpm => exact selectsItsRow_at 26 rfl rfl (by cases hasElpm <;> decide) rfl
  | inp =>
    exact selectsItsRow_at 27 rfl rfl (encodeReg5P6_and_mask ..)
      (congrArg₂ Instr.inp (fieldD_encodeReg5P6 ..) (fieldP_encodeReg5P6 ..))
  | out =>
    exact selectsItsRow_at 28 rfl rfl (encodeReg5P6_and_mask ..)
      (congrArg₂ Instr.out (fieldP_encodeReg5P6 ..) (fieldD_encodeReg5P6 ..))
  | push =>
    exact selectsItsRow_at 29 rfl rfl (encodeReg5_and_mask ..)
      (congrArg Instr.push (fieldD_encodeReg5 ..))
  | pop =>
    exact selectsItsRow_at 30 rfl rfl (encodeReg5_and_mask ..)
      (congrArg Instr.pop (fieldD_encodeReg5 ..))
  | eicall => exact selectsItsRow_at 31 rfl rfl (by decide) rfl
  | eijmp => exact selectsItsRow_at 32 rfl rfl (by decide) rfl
  | elpm =>
    obtain rfl := notElpm.resolve_right (fun h => h rfl)
    exact selectsItsRow_elpm
  | elpmZ =>
    exact selectsItsRow_at 34 rfl rfl (encodeReg5_and_mask ..)
      (congrArg Instr.elpmZ (fieldD_encodeReg5 ..))
  | elpmZInc =>
    exact selectsItsRow_at 35 rfl rfl (encodeReg5_and_mask ..)
      (congrArg Instr.elpmZInc (fieldD_encodeReg5 ..))
  | espm => exact selectsItsRow_at 36 rfl rfl (by decide) rfl
  | fmul =>
    obtain ⟨hd, hr⟩ := Bool.and_eq_true_iff.mp wf
    exact selectsItsRow_at 37 rfl rfl (encodeRd3Rr3_and_mask ..)
      (congrArg₂ Instr.fmul (fieldD3_encodeRd3Rr3 _ _ _ hd) (fieldR3_encodeRd3Rr3 _ _ _ hr))
  | fmuls =>
    obtain ⟨hd, hr⟩ := Bool.and_eq_true_iff.mp wf
    exact selectsItsRow_at 38 rfl rfl (encodeRd3Rr3_and_mask ..)
      (congrArg₂ Instr.fmuls (fieldD3_encodeRd3Rr3 _ _ _ hd) (fieldR3_encodeRd3Rr3 _ _ _ hr))
  | fmulsu =>
    obtain ⟨hd, hr⟩ := Bool.and_eq_true_iff.mp wf
    exact selectsItsRow_at 39 rfl rfl (encodeRd3Rr3_and_mask ..)
      (congrArg₂ Instr.fmulsu (fieldD3_encodeRd3Rr3 _ _ _ hd) (fieldR3_encodeRd3Rr3 _ _ _ hr))
  | movw =>
    obtain ⟨hd, hr⟩ := Bool.and_eq_true_iff.mp wf
    exact selectsItsRow_at 40 rfl rfl (encodeRd4Rr4Pair_and_mask ..)
      (congrArg₂ Instr.movw (fieldDPair_encodeRd4Rr4Pair _ _ hd) (fieldRPair_encodeRd4Rr4Pair _ _ hr))
  | muls =>
    obtain ⟨hd, hr⟩ := Bool.and_eq_true_iff.mp wf
    exact selectsItsRow_at 41 rfl rfl (encodeRd4Rr4_and_mask ..)
      (congrArg₂ Instr.muls (fieldD4_encodeRd4Rr4 _ _ hd) (fieldR4_encodeRd4Rr4 _ _ hr))
  | mulsu =>
    obtain ⟨hd, hr⟩ := Bool.and_eq_true_iff.mp wf
    exact selectsItsRow_at 42 rfl rfl (encodeRd3Rr3_and_mask ..)
      (congrArg₂ Instr.mulsu (fieldD3_encodeRd3Rr3 _ _ _ hd) (fieldR3_encodeRd3Rr3 _ _ _ hr))
  | spm => exact selectsItsRow_at 43 rfl rfl (by decide) rfl

/-- The words of a well-formed instruction decode to its canonical form, and the words after it are left. -/
theorem decodeWords_encode {hasElpm : Bool} {i : Instr} (wf : i.wellFormed = true)
    (notElpm : hasElpm = true ∨ i ≠ .elpm) (rest : List Word) :
    decodeWords hasElpm (encode i ++ rest) = .ok (i.canonical, rest) := by
  obtain ⟨w, tail, row, henc, hrow, hi⟩ := selectsItsRow_of_wellFormed wf notElpm
  obtain ⟨v, tail', henc', hlen⟩ := Laws.Length.of_instr i
  obtain ⟨rfl, rfl⟩ := List.cons.inj (henc.symm.trans henc')
  rw [henc, List.cons_append, decodeWords_of_rowOf hrow hlen, hi]

/-- R68: the bytes of a word, low byte first, are that word again. -/
theorem wordsOfBytes_flatMap (ws : List Word) : wordsOfBytes (ws.flatMap bytesOfWord) = ws := by
  induction ws with
  | nil => rfl
  | cons w ws ih =>
    simp only [List.flatMap_cons, bytesOfWord, List.cons_append, List.nil_append, wordsOfBytes, ih,
      Machine.joinBytes_hiByte_loByte]

/-- Settles O1: the bytes are the words again, and the first of them selects the instruction's own row. -/
theorem decodingTheEncodingGivesTheInstruction : Obligations.DecodingTheEncodingGivesTheInstruction := by
  intro hasElpm i rest wf notElpm
  rw [decodeBytes, wordsOfBytes_flatMap]
  exact decodeWords_encode wf notElpm rest

/-- Settles O3: each word is decoded by evaluation. -/
theorem printedWordsDecode : Obligations.PrintedWordsDecode :=
  ⟨rfl, rfl, rfl, rfl, rfl, rfl, rfl, rfl, rfl, rfl, rfl, rfl, rfl, rfl, rfl, rfl, rfl, rfl, rfl, rfl⟩

end Sys2Proof
end

section
/-! PROOFS. The step (60_exceptions.md section 3): what it fetches, what it refuses, and the instruction it
runs. -/

namespace Sys2Proof.Machine

/-! ### Fetching -/

theorem State.fetchWord_of_readWord {s : State} {a : Nat} {w : Word} (inside : a < s.device.progWords)
    (h : Memory.readWord s.prog a = some w) : s.fetchWord a = .ok w := by
  simp [State.fetchWord, inside, h]

theorem State.fetchWord_outside {s : State} {a : Nat} (outside : s.device.progWords ≤ a) :
    s.fetchWord a = .error .fetchOutsideProgramMemory := by
  simp [State.fetchWord, Nat.not_lt.mpr outside]

theorem State.fetchWord_unwritten {s : State} {a : Nat} (inside : a < s.device.progWords)
    (h : Memory.readWord s.prog a = none) : s.fetchWord a = .error .fetchUnwritten := by
  simp [State.fetchWord, inside, h]

theorem step_of_fetchWord_error {s : State} {r : Refusal} (h : s.fetchWord s.pc.toNat = .error r) :
    step s = .refused r := by
  simp [step, State.fetch, h]

theorem step_of_second_fetchWord_error {s : State} {w : Word} {r : Refusal}
    (first : s.fetchWord s.pc.toNat = .ok w) (two : isTwoWord w = true)
    (h : s.fetchWord (s.pcAfter 1).toNat = .error r) : step s = .refused r := by
  simp [step, State.fetch, first, two, h]

/-- Settles O8: the word that cannot be fetched is the first, or the second of an instruction of two. -/
theorem fetchStopsOutsideTheProgram : Obligations.FetchStopsOutsideTheProgram := by
  refine ⟨fun s outside => ?_, fun s w inside hw two outside => ?_, fun s inside unwritten => ?_,
    fun s w inside hw two inside' unwritten => ?_⟩
  · exact step_of_fetchWord_error (State.fetchWord_outside outside)
  · exact step_of_second_fetchWord_error (State.fetchWord_of_readWord inside hw) two
      (State.fetchWord_outside outside)
  · exact step_of_fetchWord_error (State.fetchWord_unwritten inside unwritten)
  · exact step_of_second_fetchWord_error (State.fetchWord_of_readWord inside hw) two
      (State.fetchWord_unwritten inside' unwritten)

/-! ### The instruction that runs -/

/-- Settles O6: the fetched words decode to the instruction that the step executes. -/
theorem stepRunsTheDecodedInstruction : Obligations.StepRunsTheDecodedInstruction :=
  fun _ _ _ _ hfetch hdecode => step_of_fetch_decode hfetch hdecode

/-- A step that completes has executed an instruction. -/
theorem exec_of_step {s t : State} (h : step s = .next t) : ∃ i, exec i s = .next t := by
  unfold step at h
  split at h
  · cases h
  · split at h
    · exact ⟨_, h⟩
    · cases h

/-- Settles O5: a displacement of 0 is what the plain forms pass on. -/
theorem canonicalFormMeansTheSame : Obligations.CanonicalFormMeansTheSame := by
  intro i s
  cases i with
  | lddY d q | stdY q d | lddZ d q | stdZ q d =>
    by_cases hq : q = 0
    · subst hq; rfl
    · simp only [Instr.canonical, if_neg hq]
  | _ => rfl

theorem State.pcAfter_zero {s : State} (h : s.pc.toNat < 2 ^ s.device.pcBits) : s.pcAfter 0 = s.pc := by
  simp [State.pcAfter, Device.pcOf, Nat.mod_eq_of_lt h]

/-- The words of an instruction that lie in program memory at `pc` are what is fetched (R67, R100). -/
theorem State.fetch_of_words {s : State} {i : Instr} (hpc : s.pc.toNat < 2 ^ s.device.pcBits)
    (inMemory : ∀ (k : Nat) (w : Word), (encode i)[k]? = some w →
      (s.pcAfter k).toNat < s.device.progWords ∧
        Memory.readWord s.prog (s.pcAfter k).toNat = some w) : s.fetch = .ok (encode i) := by
  obtain ⟨w, tail, henc, hlen⟩ := Laws.Length.of_instr i
  rw [henc] at inMemory ⊢
  have first : s.fetchWord s.pc.toNat = .ok w := by
    obtain ⟨inside, hw⟩ := inMemory 0 w rfl
    rw [State.pcAfter_zero hpc] at inside hw
    exact State.fetchWord_of_readWord inside hw
  by_cases two : isTwoWord w = true
  · rw [if_pos two] at hlen
    obtain ⟨k, rfl⟩ := List.length_eq_one_iff.mp hlen
    obtain ⟨inside, hk⟩ := inMemory 1 k rfl
    simp [State.fetch, first, two, State.fetchWord_of_readWord inside hk]
  · rw [if_neg two] at hlen
    obtain rfl := List.eq_nil_of_length_eq_zero hlen
    simp [State.fetch, first, two]

/-- Settles O7: the words fetched are those of the instruction, and decode to its canonical form, which means
the same. -/
theorem stepRunsTheInstructionInMemory : Obligations.StepRunsTheInstructionInMemory := by
  intro s i hpc wf notElpm inMemory
  have decode : decodeWords s.device.hasElpm (encode i) = .ok (i.canonical, []) := by
    simpa using decodeWords_encode wf notElpm []
  calc step s
    _ = exec i.canonical s := step_of_fetch_decode (State.fetch_of_words hpc inMemory) decode
    _ = exec i s := canonicalFormMeansTheSame i s

/-! ### Words that are no instruction -/

/-- A first word of two is one of LDS or of STS (R100). -/
theorem and_mask_of_isTwoWord {w : Word} (h : isTwoWord w = true) :
    w &&& 0xFE0F = 0x9000 ∨ w &&& 0xFE0F = 0x9200 := by
  have hw : (w &&& 0xFE0F) &&& 0xFC0F = 0x9000 := by
    rw [BitVec.and_assoc]
    simpa [isTwoWord] using h
  cases bit9 : w[9] with
  | false =>
    refine .inl (eq_of_and_mask hw fun i hi => ?_).symm
    interval_cases i <;> simp [bit9]
  | true =>
    refine .inr (eq_of_and_mask hw fun i hi => ?_).symm
    interval_cases i <;> simp [bit9]

theorem isTwoWord_eq_false_of_unmatched {hasElpm : Bool} {w : Word}
    (h : ∀ row ∈ opcodeRows hasElpm, ¬ (w &&& row.mask = row.pattern)) : isTwoWord w = false := by
  refine Bool.eq_false_iff.mpr fun two => ?_
  rcases and_mask_of_isTwoWord two with lds | sts
  · exact h _ (List.mem_of_getElem? (i := 1) rfl) lds
  · exact h _ (List.mem_of_getElem? (i := 2) rfl) sts

/-- Settles O9: the step refuses a word that no row matches, and the words of R117 differ from every row in a
bit that both masks fix, but for the six words of the NONE format. -/
theorem unlistedWordsAreRefused : Obligations.UnlistedWordsAreRefused := by
  refine ⟨fun s w inside hw unmatched => ?_, fun e d n hn => ?_, fun e d n hn => ?_,
    fun e w hw unlisted row hrow hm => ?_, fun e b => ?_⟩
  · have one := isTwoWord_eq_false_of_unmatched unmatched
    simp [step, State.fetch, State.fetchWord_of_readWord inside hw, one, decodeWords,
      rowOf_eq_none unmatched, refuseDecode]
  · exact unmatched_of_patterns_differ (encodeReg5_and_mask _ d n) (load_nibbles_differ e n hn)
  · exact unmatched_of_patterns_differ (encodeReg5_and_mask _ d n) (store_nibbles_differ e n hn)
  · exact unlisted (none_format_listed hw hrow hm)
  · exact unmatched_of_patterns_differ (joinBytes_zero_and_mask b) (zero_byte_differs e)

end Sys2Proof.Machine
end

section
/-! PROOFS. Everything an instruction can do: it completes by single updates of the state, each of a kind that
this instruction may make, and then moves `pc`. The claims about all instructions follow from what one update
can do. -/

namespace Sys2Proof.Machine

/-! ### Single updates -/

/-- One update of the state `u` to the state after it, in the course of instruction `i` from state `s`. SREG is
set by a multiply alone, program memory by SPM and ESPM alone, and a store goes where `storePieces` says. -/
inductive Update (i : Instr) (s : State) : State → State → Prop
  | setReg (u : State) (d : Reg) (v : Byte) : Update i s u (u.setReg d v)
  | setSp (u : State) (v : Word) : Update i s u (u.setSp v)
  | setRampz (u : State) (v : Byte) : Update i s u { u with rampz := v }
  | draw (u : State) (n : Nat) : Update i s u { u with draws := n }
  | flags (u : State) (v : Byte) (multiply : isMultiply i = true) : Update i s u { u with sreg := v }
  | store {u t : State} {a : Nat} {v : Byte} (target : u.storePiece a ∈ s.storePieces i)
      (written : u.dataWrite a v = some t) : Update i s u t
  | ioStore (u : State) (p : IoAddr) (v : Byte) (target : some (u.ioPiece p) ∈ s.storePieces i) :
      Update i s u (u.ioWrite p v)
  | program {u t : State} {addr : BitVec 24} {v : Word} (spm : i = .spm ∨ i = .espm)
      (done : u.runSpmOp addr v = .ok t) : Update i s u t

theorem State.ioWrite_keeps (s : State) (p : IoAddr) (v : Byte) :
    (s.ioWrite p v).device = s.device ∧ (s.ioWrite p v).pc = s.pc ∧ (s.ioWrite p v).prog = s.prog ∧
      s.ioWrites <+: (s.ioWrite p v).ioWrites := by
  rcases s.ioWrite_cases p v with ⟨c, -, h⟩ | ⟨-, h⟩
  · rw [h]
    cases c <;> exact ⟨rfl, rfl, rfl, List.prefix_rfl⟩
  · rw [h]
    exact ⟨rfl, rfl, rfl, List.prefix_append _ _⟩

theorem State.dataWrite_ioWrites {s t : State} {a : Nat} {v : Byte} (h : s.dataWrite a v = some t) :
    s.ioWrites <+: t.ioWrites := by
  rcases State.dataWrite_cases h with ⟨i, -, rfl⟩ | ⟨p, -, rfl⟩ | ⟨-, rfl⟩
  · exact List.prefix_rfl
  · exact (s.ioWrite_keeps p v).2.2.2
  · exact List.prefix_rfl

namespace Update
variable {i : Instr} {s u t : State}

theorem device (h : Update i s u t) : t.device = u.device := by
  cases h with
  | store _ written => exact (State.dataWrite_keeps written).1
  | ioStore p v => exact (u.ioWrite_keeps p v).1
  | program _ done => exact (State.runSpmOp_frame done).1
  | _ => rfl

theorem pc (h : Update i s u t) : t.pc = u.pc := by
  cases h with
  | store _ written => exact (State.dataWrite_keeps written).2.1
  | ioStore p v => exact (u.ioWrite_keeps p v).2.1
  | program _ done => exact (State.runSpmOp_frame done).2 .pc (by simp)
  | _ => rfl

theorem ioWrites (h : Update i s u t) : u.ioWrites <+: t.ioWrites := by
  cases h with
  | store _ written => exact State.dataWrite_ioWrites written
  | ioStore p v => exact (u.ioWrite_keeps p v).2.2.2
  | program _ done =>
    have same : t.ioWrites = u.ioWrites := (State.runSpmOp_frame done).2 .ioWrites (by simp)
    exact same ▸ List.prefix_rfl
  | _ => exact List.prefix_rfl

theorem prog (h : Update i s u t) (notSpm : ¬ (i = .spm ∨ i = .espm)) : t.prog = u.prog := by
  cases h with
  | store _ written => exact (State.dataWrite_keeps written).2.2.1
  | ioStore p v => exact (u.ioWrite_keeps p v).2.2.1
  | program spm => exact absurd spm notSpm
  | _ => rfl

theorem inv (h : Update i s u t) (hu : u.Inv) : t.Inv := by
  cases h with
  | setReg d v => exact hu.setReg d v
  | setSp v => exact hu.setSp v
  | setRampz v => exact hu.setRampz v
  | draw n => exact hu.setDraws n
  | flags v => exact hu.setSreg v
  | store _ written => exact hu.dataWrite written
  | ioStore p v => exact hu.ioWrite p v
  | program _ done => exact hu.runSpmOp done

theorem sreg (h : Update i s u t) (noMultiply : isMultiply i = false)
    (noStore : some Piece.sreg ∉ s.storePieces i) : t.sreg = u.sreg := by
  cases h with
  | flags _ multiply => exact absurd (noMultiply.symm.trans multiply) (by decide)
  | store target written =>
    by_contra changed
    rw [State.dataWrite_changed (q := .sreg) written changed] at target
    exact noStore target
  | ioStore p v target =>
    refine (u.ioWrite_frame p v).2.2 .sreg fun h => noStore ?_
    rwa [Set.mem_singleton_iff.mp h]
  | program _ done => exact (State.runSpmOp_frame done).2 .sreg (by simp)
  | _ => rfl

end Update

/-- The updates of instruction `i` from state `s`, one after the other. -/
abbrev Updates (i : Instr) (s : State) : State → State → Prop := Relation.ReflTransGen (Update i s)

namespace Updates
variable {i : Instr} {s u t : State}

theorem device (h : Updates i s u t) : t.device = u.device := by
  induction h with
  | refl => rfl
  | tail _ last ih => exact last.device.trans ih

theorem pc (h : Updates i s u t) : t.pc = u.pc := by
  induction h with
  | refl => rfl
  | tail _ last ih => exact last.pc.trans ih

theorem pcAfter (h : Updates i s u t) (n : Nat) : t.pcAfter n = u.pcAfter n := by
  rw [State.pcAfter, State.pcAfter, h.device, h.pc]

theorem ioWrites (h : Updates i s u t) : u.ioWrites <+: t.ioWrites := by
  induction h with
  | refl => exact List.prefix_rfl
  | tail _ last ih => exact ih.trans last.ioWrites

theorem prog (h : Updates i s u t) (notSpm : ¬ (i = .spm ∨ i = .espm)) : t.prog = u.prog := by
  induction h with
  | refl => rfl
  | tail _ last ih => exact (last.prog notSpm).trans ih

theorem inv (h : Updates i s u t) (hu : u.Inv) : t.Inv := by
  induction h with
  | refl => exact hu
  | tail _ last ih => exact last.inv ih

theorem sreg (h : Updates i s u t) (noMultiply : isMultiply i = false)
    (noStore : some Piece.sreg ∉ s.storePieces i) : t.sreg = u.sreg := by
  induction h with
  | refl => rfl
  | tail _ last ih => exact (last.sreg noMultiply noStore).trans ih

theorem setReg (h : Updates i s u t) (d : Reg) (v : Byte) : Updates i s u (t.setReg d v) :=
  h.tail (.setReg t d v)

theorem setPtr (h : Updates i s u t) (p : Pointer) (v : Word) : Updates i s u (t.setPtr p v) :=
  (h.setReg p.hi (hiByte v)).setReg p.lo (loByte v)

theorem setPair (h : Updates i s u t) (d : Reg) (v : Word) : Updates i s u (t.setPair d v) :=
  (h.setReg (d + 1) (hiByte v)).setReg d (loByte v)

theorem setSp (h : Updates i s u t) (v : Word) : Updates i s u (t.setSp v) :=
  h.tail (.setSp t v)

theorem dataRead (h : Updates i s u t) {m : State} {a : Nat} {v : Byte}
    (read : t.dataRead a = some (v, m)) : Updates i s u m := by
  obtain ⟨n, -, rfl⟩ := State.dataRead_some read
  exact h.tail (.draw t _)

theorem ioRead (h : Updates i s u t) (p : IoAddr) : Updates i s u (t.ioRead p).2 := by
  rcases t.ioRead_cases p with ⟨c, -, hr⟩ | ⟨-, hr⟩
  · rw [hr]; exact h
  · rw [hr]; exact h.tail (.draw t _)

end Updates

/-! ### Each shared operation is updates and a move of `pc` -/

/-- The state `t` after updates from `u` and a move of `pc` by `n` words. -/
def Advances (i : Instr) (s u : State) (n : Nat) (t : State) : Prop :=
  ∃ m, Updates i s u m ∧ t = m.advance n

theorem ifPresent_eq_next {present : Bool} {effect : Result} {t : State}
    (h : ifPresent present effect = .next t) : present = true ∧ effect = .next t := by
  cases present with
  | false => cases h
  | true => exact ⟨rfl, h⟩

section
variable {i : Instr} {s t u : State}

theorem loadFrom_advances {a n : Nat} {d : Reg} (h : loadFrom a n d u = .next t) :
    Advances i s u n t := by
  unfold loadFrom at h
  split at h
  · next v m read => cases h; exact ⟨_, (Updates.dataRead .refl read).setReg d v, rfl⟩
  · cases h

theorem loadInc_advances {p : Pointer} {d : Reg} (h : loadInc p d u = .next t) :
    Advances i s u 1 t := by
  unfold loadInc at h
  split at h
  · cases h
  · split at h
    · next v m read => cases h; exact ⟨_, ((Updates.dataRead .refl read).setReg d v).setPtr p _, rfl⟩
    · cases h

theorem loadDec_advances {p : Pointer} {d : Reg} (h : loadDec p d u = .next t) :
    Advances i s u 1 t := by
  unfold loadDec at h
  split at h
  · cases h
  · obtain ⟨m, hm, rfl⟩ := loadFrom_advances (i := i) (s := s) h
    exact ⟨m, (Updates.setPtr .refl p _).trans hm, rfl⟩

theorem storeTo_advances {a n : Nat} {r : Reg} (target : u.storePiece a ∈ s.storePieces i)
    (h : storeTo a n r u = .next t) : Advances i s u n t := by
  unfold storeTo at h
  split at h
  · next m written => cases h; exact ⟨m, .single (.store target written), rfl⟩
  · cases h

theorem storeInc_advances {p : Pointer} {r : Reg}
    (target : u.storePiece (u.ptrAddr p (u.ptr p)) ∈ s.storePieces i)
    (h : storeInc p r u = .next t) : Advances i s u 1 t := by
  unfold storeInc at h
  split at h
  · cases h
  · split at h
    · cases h
    · split at h
      · next m written =>
        cases h
        exact ⟨_, Updates.setPtr (.single (.store target written)) p _, rfl⟩
      · cases h

theorem storeDec_advances {p : Pointer} {r : Reg}
    (target : u.storePiece (u.ptrAddr p (u.ptr p - 1)) ∈ s.storePieces i)
    (h : storeDec p r u = .next t) : Advances i s u 1 t := by
  unfold storeDec at h
  split at h
  · cases h
  · split at h
    · cases h
    · obtain ⟨m, hm, rfl⟩ := storeTo_advances (i := i) (s := s) (u := u.setPtr p (u.ptr p - 1)) target h
      exact ⟨m, (Updates.setPtr .refl p _).trans hm, rfl⟩

theorem loadProgram_advances {b : Nat} {d : Reg} (h : loadProgram b d u = .next t) :
    Advances i s u 1 t := by
  unfold loadProgram at h
  split at h
  · next v _ => cases h; exact ⟨_, Updates.setReg .refl d v, rfl⟩
  · cases h

theorem elpmIncrement_advances {d : Reg} (h : elpmIncrement d u = .next t) : Advances i s u 1 t := by
  unfold elpmIncrement at h
  split at h
  · cases h
  · split at h
    · next v _ =>
      cases h
      exact ⟨_, ((Updates.setReg .refl d v).setPtr .z _).tail (.setRampz _ _), rfl⟩
    · cases h

theorem storeProgram_advances {addr : BitVec 24} (spm : i = .spm ∨ i = .espm)
    (h : storeProgram addr u = .next t) : Advances i s u 1 t := by
  unfold storeProgram at h
  split at h
  · next m done => cases h; exact ⟨m, .single (.program spm done), rfl⟩
  · cases h

theorem multiplyWrite_advances {present : Bool} {prod res : Word} (multiply : isMultiply i = true)
    (h : ifPresent present (.next (multiplyWrite prod res u)) = .next t) : Advances i s u 1 t := by
  cases (ifPresent_eq_next h).2
  exact ⟨_, (Updates.setPair .refl 0 res).tail (.flags _ _ multiply), rfl⟩

theorem execPush_advances {r : Reg} (target : u.storePiece u.sp.toNat ∈ s.storePieces i)
    (h : execPush r u = .next t) : Advances i s u 1 t := by
  unfold execPush State.pushByte at h
  cases written : u.dataWrite u.sp.toNat (u.reg r) with
  | none => rw [written] at h; cases h
  | some m =>
    rw [written] at h
    cases h
    exact ⟨_, Updates.setSp (.single (.store target written)) _, rfl⟩

theorem execPop_advances {d : Reg} (h : execPop d u = .next t) : Advances i s u 1 t := by
  unfold execPop at h
  split at h
  · next v m read =>
    cases h
    exact ⟨_, ((Updates.setSp .refl _).dataRead read).setReg d v, rfl⟩
  · cases h

end

/-- The piece a store changes depends on the device alone. -/
theorem State.storePiece_congr {s t : State} (h : t.device = s.device) (a : Nat) :
    t.storePiece a = s.storePiece a := by
  simp only [State.storePiece, State.ioPiece, h]

/-- The displacement 0 leaves the pointer's address as it is (R151). -/
@[simp] theorem State.displaced_zero (s : State) (p : Pointer) : s.displaced p 0 = s.ptr p := by
  simp [State.displaced]

/-- The three pushes of EICALL store where `returnAddrs` says. -/
theorem State.pushReturn_updates {s t : State}
    (h : s.pushReturn ((s.pcAfter 1).setWidth 24) = some t) : Updates .eicall s s t := by
  obtain ⟨u, v, w, hu, hv, hw, rfl⟩ := State.pushReturn_cases h
  have du := (State.dataWrite_keeps hu).1
  have dv := (State.dataWrite_keeps hv).1.trans du
  have target {m : State} (hm : m.device = s.device) {a : Nat}
      (ha : a ∈ [s.sp.toNat, (u.device.spOf (u.sp - 1)).toNat, (v.device.spOf (v.sp - 2)).toNat]) :
      m.storePiece a ∈ s.storePieces .eicall := by
    rw [State.storePiece_congr hm]
    rw [← State.returnAddrs_eq hu hv] at ha
    exact List.mem_map_of_mem ha
  exact Updates.setSp (((Relation.ReflTransGen.single (.store (target rfl (by simp)) hu)).tail
    (.store (target du (by simp)) hv)).tail (.store (target dv (by simp)) hw)) _

/-! ### What every instruction can do -/

/-- EICALL continues at EIND[5:0]:Z as its pushes leave them (R211), on a device with a 22-bit PC. -/
theorem execEicall_next {s t : State} (h : exec .eicall s = .next t) :
    s.device.pcBits = 22 ∧ ∃ u, Updates .eicall s s u ∧ t = { u with pc := u.extendedTarget } := by
  obtain ⟨present, called⟩ := ifPresent_eq_next (present := s.device.hasExtendedJump) h
  unfold callExtended at called
  split at called
  · next u pushed =>
    cases called
    refine ⟨?_, u, State.pushReturn_updates pushed, rfl⟩
    simp only [Device.hasExtendedJump, Bool.and_eq_true, beq_iff_eq] at present
    exact present.2
  · cases called

/-- EIJMP moves `pc` to EIND[5:0]:Z and no more (R213), on a device with a 22-bit PC. -/
theorem execEijmp_next {s t : State} (h : exec .eijmp s = .next t) :
    s.device.pcBits = 22 ∧ t = { s with pc := s.extendedTarget } := by
  obtain ⟨present, jumped⟩ := ifPresent_eq_next (present := s.device.hasExtendedJump) h
  cases jumped
  simp only [Device.hasExtendedJump, Bool.and_eq_true, beq_iff_eq] at present
  exact ⟨present.2, rfl⟩

/-- Every other instruction that completes makes its updates and moves `pc` over its own words (R27). -/
theorem exec_advances {i : Instr} {s t : State} (h : exec i s = .next t) (notCall : i ≠ .eicall)
    (notJump : i ≠ .eijmp) : Advances i s s (encode i).length t := by
  cases i with
  | mov d r => cases h; exact ⟨_, Updates.setReg .refl d _, rfl⟩
  | lds | ldX | ldY | lddY | ldZ | lddZ => exact loadFrom_advances h
  | ldi d K => cases h; exact ⟨_, Updates.setReg .refl d K, rfl⟩
  | ldXInc | ldYInc | ldZInc => exact loadInc_advances h
  | ldXDec | ldYDec | ldZDec => exact loadDec_advances h
  | sts | stdY | stdZ => exact storeTo_advances (List.mem_singleton.mpr rfl) h
  | stX | stY | stZ =>
    exact storeTo_advances (by rw [State.displaced_zero]; exact List.mem_singleton.mpr rfl) h
  | stXInc | stYInc | stZInc => exact storeInc_advances (List.mem_singleton.mpr rfl) h
  | stXDec | stYDec | stZDec => exact storeDec_advances (List.mem_singleton.mpr rfl) h
  | lpm => exact loadProgram_advances h
  | elpm | elpmZ => exact loadProgram_advances (ifPresent_eq_next h).2
  | elpmZInc => exact elpmIncrement_advances (ifPresent_eq_next h).2
  | inp d p => cases h; exact ⟨_, (Updates.ioRead .refl p).setReg d _, rfl⟩
  | out p r => cases h; exact ⟨_, .single (.ioStore s p _ (List.mem_singleton.mpr rfl)), rfl⟩
  | push => exact execPush_advances (List.mem_singleton.mpr rfl) h
  | pop => exact execPop_advances h
  | eicall => exact absurd rfl notCall
  | eijmp => exact absurd rfl notJump
  | espm => exact storeProgram_advances (.inr rfl) (ifPresent_eq_next h).2
  | spm => exact storeProgram_advances (.inl rfl) (ifPresent_eq_next h).2
  | movw d r => cases (ifPresent_eq_next h).2; exact ⟨_, Updates.setPair .refl d _, rfl⟩
  | fmul | fmuls | fmulsu | muls | mulsu => exact multiplyWrite_advances rfl h

/-- Every instruction that completes makes its updates and then sets `pc`, to a value of `PC_BITS` bits. -/
theorem exec_updates {i : Instr} {s t : State} (h : exec i s = .next t) :
    ∃ u pc, Updates i s s u ∧ t = { u with pc := pc } ∧
      (s.device.Valid → pc.toNat < 2 ^ s.device.pcBits) := by
  by_cases call : i = .eicall
  · subst call
    obtain ⟨bits, u, hu, rfl⟩ := execEicall_next h
    exact ⟨u, _, hu, rfl, fun _ => by rw [bits]; exact u.extendedTarget.isLt⟩
  by_cases jump : i = .eijmp
  · subst jump
    obtain ⟨bits, rfl⟩ := execEijmp_next h
    exact ⟨s, _, .refl, rfl, fun _ => by rw [bits]; exact s.extendedTarget.isLt⟩
  · obtain ⟨u, hu, rfl⟩ := exec_advances h call jump
    exact ⟨u, _, hu, rfl, fun valid => hu.pcAfter _ ▸ Device.pcOf_lt valid _⟩

/-! ### The claims about every instruction -/

/-- Settles O58: each update keeps the invariant, and the new `pc` has `PC_BITS` bits. -/
theorem everyStepKeepsTheInvariant : Obligations.EveryStepKeepsTheInvariant := by
  intro s t hs h
  obtain ⟨i, hi⟩ := exec_of_step h
  obtain ⟨u, pc, hu, rfl, hpc⟩ := exec_updates hi
  exact (hu.inv hs).setPc (hu.device ▸ hpc hs.device_valid)

/-- Settles O59: each update leaves the device alone and at most adds to the record. -/
theorem stepKeepsTheDeviceAndTheRecord : Obligations.StepKeepsTheDeviceAndTheRecord := by
  intro s t h
  obtain ⟨i, hi⟩ := exec_of_step h
  obtain ⟨u, pc, hu, rfl, -⟩ := exec_updates hi
  exact ⟨hu.device, hu.ioWrites⟩

/-- Settles O40: the update that changes program memory is one of SPM and ESPM. -/
theorem onlySpmChangesProgramMemory : Obligations.OnlySpmChangesProgramMemory := by
  intro i s t h notSpm notEspm
  obtain ⟨u, pc, hu, rfl, -⟩ := exec_updates h
  exact hu.prog (not_or.mpr ⟨notSpm, notEspm⟩)

/-- Settles O46: the updates that change SREG are the one of a multiply and a store that goes to SREG. -/
theorem flagsChangeOnlyByMultiplyOrAsData : Obligations.FlagsChangeOnlyByMultiplyOrAsData := by
  intro i s t h changed
  obtain ⟨u, pc, hu, rfl, -⟩ := exec_updates h
  by_contra none
  obtain ⟨noMultiply, noStore⟩ := not_or.mp none
  exact changed (hu.sreg (Bool.eq_false_iff.mpr noMultiply) noStore)

/-- Settles O11: the updates leave `pc` alone, so its move counts from where the instruction stands. -/
theorem nextPcOfEveryInstruction : Obligations.NextPcOfEveryInstruction := by
  intro i s t h
  have advanced (notCall : i ≠ .eicall) (notJump : i ≠ .eijmp) :
      t.pc = s.pcAfter (encode i).length := by
    obtain ⟨u, hu, rfl⟩ := exec_advances h notCall notJump
    exact hu.pcAfter _
  cases i with
  | eicall =>
    obtain ⟨-, u, -, rfl⟩ := execEicall_next h
    rfl
  | eijmp =>
    obtain ⟨-, rfl⟩ := execEijmp_next h
    rfl
  | _ => exact advanced (by simp) (by simp)

end Sys2Proof.Machine
end

section
/-! PROOFS. The data space (20_memory.md section 2): the address of an access, what lies there, and a store seen
again in a later state. -/

namespace Sys2Proof.Machine

/-! ### Frames -/

/-- A frame goes on over a change inside its set of changed pieces. -/
theorem State.sameBut.tail {s t u : State} {c c' : Set Piece} (h : s.sameBut t c) (h' : t.sameBut u c')
    (within : c' ⊆ c) : s.sameBut u c :=
  State.sameBut_mono (State.sameBut_trans h h') (Set.union_subset subset_rfl within)

theorem State.ptr_congr {s t : State} {p : Pointer} (lo : s.same t (.reg p.lo))
    (hi : s.same t (.reg p.hi)) : t.ptr p = s.ptr p :=
  congrArg₂ joinBytes hi lo

/-! ### Addresses -/

theorem toNat_append_word {n : Nat} (page : BitVec n) (a : Word) :
    (page ++ a).toNat = page.toNat * 0x10000 + a.toNat := by
  rw [BitVec.toNat_append, ← Nat.shiftLeft_add_eq_or_of_lt a.isLt, Nat.shiftLeft_eq]

/-- R62: with 24-bit data addresses the page stands above the in-page address. -/
theorem Device.dataAddr_of_b24 {d : Device} (h : d.dataBits = .b24) (page : Byte) (a : Word) :
    d.dataAddr page a = (page ++ a).toNat := by
  rw [Device.dataAddr, h, toNat_append_word]

/-- R62: with 16-bit data addresses there is no page. -/
theorem Device.dataAddr_of_b16 {d : Device} (h : d.dataBits = .b16) (page : Byte) (a : Word) :
    d.dataAddr page a = a.toNat := by
  rw [Device.dataAddr, h]

/-- Settles O16: every data address is `dataAddr` of the page register its form names. -/
theorem dataAddressesTakeTheirPage : Obligations.DataAddressesTakeTheirPage := by
  intro s a
  refine ⟨fun h => ⟨Device.dataAddr_of_b16 h _ a, fun p => Device.dataAddr_of_b16 h _ a⟩, fun h => ?_⟩
  exact ⟨Device.dataAddr_of_b24 h _ a, Device.dataAddr_of_b24 h _ a, Device.dataAddr_of_b24 h _ a,
    Device.dataAddr_of_b24 h _ a⟩

/-! ### The data map -/

theorem Device.place_above {d : Device} {a : Nat} (h : sramStart ≤ a) :
    d.place a = if a ≤ d.ramend then .sram else .absent := by
  have notReg : ¬ a < 32 := by unfold sramStart at h; omega
  rw [Device.place, dif_neg notReg, if_neg (Nat.not_lt.mpr h)]

theorem Device.place_refuseLow {d : Device} {a : Nat} (map : d.dataMap = .refuseLow) (h : a < sramStart) :
    d.place a = .absent := by
  unfold Device.place
  by_cases reg : a < 32
  · simp [reg, map]
  · simp [reg, h, map]

theorem Device.place_reg {d : Device} (map : d.dataMap = .registersAndIo) (i : Reg) :
    d.place i.val = .reg i := by
  simp [Device.place, map]

theorem Device.place_io {d : Device} (map : d.dataMap = .registersAndIo) (p : IoAddr) :
    d.place (p.toNat + 0x20) = .io p := by
  have notReg : ¬ p.toNat + 0x20 < 32 := by omega
  have below : p.toNat + 0x20 < sramStart := by have := p.isLt; unfold sramStart; omega
  simp [Device.place, map, notReg, below]

/-- Settles O45: the four ranges of the data map. -/
theorem dataMapBelowSram : Obligations.DataMapBelowSram := by
  intro d a
  refine ⟨fun map => ⟨?_, ?_⟩, Device.place_refuseLow, Device.place_above⟩
  · rintro i rfl
    exact Device.place_reg map i
  · rintro p rfl
    exact Device.place_io map p

theorem State.peek_of_absent {s : State} {a : Nat} (h : s.device.place a = .absent) :
    s.peek a = none := by
  simp [State.peek, h]

theorem State.storePiece_of_absent {s : State} {a : Nat} (h : s.device.place a = .absent) :
    s.storePiece a = none := by
  simp [State.storePiece, h]

/-! ### SRAM -/

/-- Settles O28: the address lies in SRAM, which holds the byte last written. -/
theorem sramReadsBackWhatWasWritten : Obligations.SramReadsBackWhatWasWritten := by
  intro s a v start ramend
  have sram : s.device.place a = .sram := (Device.place_above start).trans (if_pos ramend)
  refine ⟨⟨s.sramByte a, by simp [State.dataRead, sram]⟩,
    { s with data := Memory.write s.data a v }, by simp [State.dataWrite, sram], ?_, ?_,
    s.sramWrite_sameBut a v⟩
  · simp only [State.dataRead, sram, State.sramWrite_sramByte]
  · exact fun b hb => (s.sramWrite_sameBut a v).2 (.sram b) (by simpa using hb)

/-! ### A store seen in a later state -/

/-- A store takes effect on the piece it changes: where that piece stays, the effect stays. -/
theorem State.stored_of_same {s m t : State} {a : Nat} {v : Byte} {c : Piece}
    (target : s.storePiece a = some c) (h : s.stored m a v) (same : m.same t c) : s.stored t a v := by
  unfold State.storePiece at target
  unfold State.stored at h ⊢
  cases hp : s.device.place a with
  | reg i =>
    simp only [hp, Option.some.injEq] at h target ⊢
    subst target
    exact same.trans h
  | absent => simp [hp] at target
  | sram =>
    simp only [hp, Option.some.injEq] at h target ⊢
    subst target
    exact same.trans h
  | io p =>
    simp only [hp, Option.some.injEq, State.ioPiece] at h target ⊢
    unfold State.ioWritten at h ⊢
    cases hc : s.device.coreAt p with
    | none =>
      simp only [hc] at h target ⊢
      subst target
      exact same.trans h
    | some r =>
      simp only [hc] at h target ⊢
      subst target
      cases r <;> exact same.trans h

/-- No store changes `pc`. -/
theorem State.storePiece_ne_pc {s : State} {a : Nat} {c : Piece} (h : s.storePiece a = some c) :
    c ≠ .pc := by
  rintro rfl
  unfold State.storePiece at h
  cases hp : s.device.place a with
  | io p =>
    simp only [hp, State.ioPiece, Option.some.injEq] at h
    cases hc : s.device.coreAt p with
    | none => simp [hc] at h
    | some r => cases r <;> simp [hc, corePiece] at h
  | _ => simp [hp] at h

end Sys2Proof.Machine
end

section
/-! PROOFS. Direct data transfer (40_direct_transfer.md) and the loads and stores that leave their pointer as it
is: all through `loadFrom` and `storeTo`. -/

namespace Sys2Proof.Machine

/-! ### MOV and LDI -/

theorem setReg_advance_sameBut (s : State) (d : Reg) (v : Byte) (n : Nat) :
    s.sameBut ((s.setReg d v).advance n) {.reg d, .pc} :=
  State.sameBut_trans (s.setReg_sameBut d v) ((s.setReg d v).advance_sameBut n)

/-- Settles O12: the register written and `pc` are all that MOV changes. -/
theorem movCopiesTheSource : Obligations.MovCopiesTheSource := by
  refine ⟨rfl, fun d r s => ⟨_, rfl, ?_, rfl, setReg_advance_sameBut s d (s.reg r) 1⟩⟩
  exact s.setReg_reg_self d _

/-- Settles O13: LDI names R16 to R31, and the register written and `pc` are all that it changes. -/
theorem ldiLoadsTheImmediate : Obligations.LdiLoadsTheImmediate := by
  refine ⟨rfl, fun d K => ?_, fun d K s => ⟨_, rfl, ?_, rfl, setReg_advance_sameBut s d K 1⟩⟩
  · simp [Instr.wellFormed, Reg.isHigh]
  · exact s.setReg_reg_self d K

/-! ### The shared load and store -/

/-- A read at an implemented address, then the write of the register and the move of `pc`. -/
theorem loadFrom_of_peek {s : State} {a n k : Nat} {v : Byte} {d : Reg} (h : s.peek a = some (v, k)) :
    loadFrom a n d s = .next ((({ s with draws := s.draws + k } : State).setReg d v).advance n) := by
  obtain ⟨m, read, rfl⟩ := State.dataRead_of_peek h
  simp [loadFrom, read]

theorem loadFrom_of_absent {s : State} {a n : Nat} {d : Reg} (h : s.peek a = none) :
    loadFrom a n d s = .refused .dataAddressNotImplemented := by
  simp [loadFrom, State.dataRead_none.mpr h]

theorem storeTo_of_absent {s : State} {a n : Nat} {r : Reg} (h : s.storePiece a = none) :
    storeTo a n r s = .refused .dataAddressNotImplemented := by
  simp [storeTo, State.dataWrite_none.mpr h]

/-- What an instruction does that is one load from an address of the state before it. -/
theorem loads_of_loadFrom {i : Instr} {s : State} {a n : Nat} {d : Reg}
    (h : exec i s = loadFrom a n d s) : loads i s s a d n := by
  intro v k hv
  refine ⟨_, h.trans (loadFrom_of_peek hv), State.setReg_reg_self _ d v, rfl, rfl, ?_⟩
  exact (((s.sameBut_refl _).tail (s.draw_sameBut _) (by simp)).tail (State.setReg_sameBut _ d v)
    (by simp)).tail (State.advance_sameBut _ n) (by simp)

/-- What an instruction does that is one store to an address of the state before it. -/
theorem stores_of_storeTo {i : Instr} {s : State} {a n : Nat} {r : Reg}
    (h : exec i s = storeTo a n r s) : stores i s a r n := by
  intro p hp
  obtain ⟨m, written, effect, frame⟩ := State.dataWrite_of_piece (s.reg r) hp
  obtain ⟨device, pc, -⟩ := State.dataWrite_keeps written
  refine ⟨m.advance n, by rw [h, storeTo, written], ?_, ?_,
    State.sameBut_trans frame (m.advance_sameBut n)⟩
  · exact State.stored_of_same hp effect ((m.advance_sameBut n).2 p (State.storePiece_ne_pc hp))
  · rw [State.advance_pc, State.pcAfter, State.pcAfter, device, pc]

/-- Settles O14: LDS is one load from its direct address. -/
theorem ldsLoadsTheDirectByte : Obligations.LdsLoadsTheDirectByte :=
  fun _ _ _ => ⟨loads_of_loadFrom rfl, fun absent => loadFrom_of_absent absent⟩

/-- Settles O15: STS is one store to its direct address. -/
theorem stsStoresTheDirectByte : Obligations.StsStoresTheDirectByte :=
  fun _ _ _ => ⟨stores_of_storeTo rfl, fun absent => storeTo_of_absent absent⟩

/-! ### Through a pointer that stays -/

/-- The plain forms are loads from the address the pointer names. -/
theorem exec_ldPlain (p : Pointer) (d : Reg) (s : State) :
    exec (ldPlain p d) s = loadFrom (s.ptrAddr p (s.ptr p)) 1 d s := by
  rw [← s.displaced_zero p]
  cases p <;> rfl

theorem exec_stPlain (p : Pointer) (r : Reg) (s : State) :
    exec (stPlain p r) s = storeTo (s.ptrAddr p (s.ptr p)) 1 r s := by
  rw [← s.displaced_zero p]
  cases p <;> rfl

/-- Settles O17: each plain form is one load from the pointer's address. -/
theorem ldPlainLoadsThroughThePointer : Obligations.LdPlainLoadsThroughThePointer :=
  fun p d s => loads_of_loadFrom (exec_ldPlain p d s)

/-- Settles O18: each displacement form is one load from the displaced address. -/
theorem lddLoadsWithDisplacement : Obligations.LddLoadsWithDisplacement :=
  fun _ _ _ => ⟨loads_of_loadFrom rfl, loads_of_loadFrom rfl⟩

/-- Settles O21: each plain form is one store to the pointer's address. -/
theorem stPlainStoresThroughThePointer : Obligations.StPlainStoresThroughThePointer :=
  fun p r s => stores_of_storeTo (exec_stPlain p r s)

/-- Settles O22: each displacement form is one store to the displaced address. -/
theorem stdStoresWithDisplacement : Obligations.StdStoresWithDisplacement :=
  fun _ _ _ => ⟨stores_of_storeTo rfl, stores_of_storeTo rfl⟩

end Sys2Proof.Machine
end

section
/-! PROOFS. Loads and stores that move their pointer (41_indirect_transfer.md section 1): the fault on a half of
the pointer, the refusal of a store onto the pointer, and what they do otherwise. -/

namespace Sys2Proof.Machine

/-! ### The forms of the three pointers -/

theorem exec_ldInc (p : Pointer) (d : Reg) (s : State) : exec (ldInc p d) s = loadInc p d s := by
  cases p <;> rfl

theorem exec_ldDec (p : Pointer) (d : Reg) (s : State) : exec (ldDec p d) s = loadDec p d s := by
  cases p <;> rfl

theorem exec_stInc (p : Pointer) (r : Reg) (s : State) : exec (stInc p r) s = storeInc p r s := by
  cases p <;> rfl

theorem exec_stDec (p : Pointer) (r : Reg) (s : State) : exec (stDec p r) s = storeDec p r s := by
  cases p <;> rfl

/-- Settles O25: the check of R153 comes first in all four shared operations. -/
theorem pointerAsDataRegisterFaults : Obligations.PointerAsDataRegisterFaults := by
  intro p d s owned
  rw [exec_ldInc, exec_ldDec, exec_stInc, exec_stDec]
  exact ⟨if_pos owned, if_pos owned, if_pos owned, if_pos owned⟩

/-! ### Loads -/

section
variable {p : Pointer} {d : Reg} {s : State}

theorem loadInc_of_peek {v : Byte} {k : Nat} (notOwned : p.owns d = false)
    (h : s.peek (s.ptrAddr p (s.ptr p)) = some (v, k)) :
    loadInc p d s = .next (((({ s with draws := s.draws + k } : State).setReg d v).setPtr p
      (s.ptr p + 1)).advance 1) := by
  obtain ⟨m, read, rfl⟩ := State.dataRead_of_peek h
  simp [loadInc, notOwned, read]

theorem loadInc_of_absent (notOwned : p.owns d = false)
    (h : s.peek (s.ptrAddr p (s.ptr p)) = none) :
    loadInc p d s = .refused .dataAddressNotImplemented := by
  simp [loadInc, notOwned, State.dataRead_none.mpr h]

theorem loadDec_of_not_owns (notOwned : p.owns d = false) :
    loadDec p d s = loadFrom (s.ptrAddr p (s.ptr p - 1)) 1 d (s.setPtr p (s.ptr p - 1)) := by
  simp [loadDec, notOwned]

end

/-- Settles O19: the register is written first and the pointer after it, and they do not meet. -/
theorem ldPostIncrementLoadsThenAdvances : Obligations.LdPostIncrementLoadsThenAdvances := by
  intro p d s v k notOwned h
  refine ⟨_, (exec_ldInc p d s).trans (loadInc_of_peek notOwned h), ?_, State.setPtr_ptr _ p _, rfl, rfl,
    ?_⟩
  · rw [State.advance_reg, State.setPtr_reg_of_not_owns _ notOwned, State.setReg_reg_self]
  · exact ((((s.sameBut_refl _).tail (s.draw_sameBut _) (by simp)).tail (State.setReg_sameBut _ d v)
      (by simp)).tail (State.setPtr_sameBut _ p _) (by simp [Set.insert_subset_iff])).tail
      (State.advance_sameBut _ 1) (by simp)

/-- Settles O20: the load is one from the state in which the pointer has stepped back. -/
theorem ldPreDecrementStepsBackThenLoads : Obligations.LdPreDecrementStepsBackThenLoads := by
  intro p d s v k notOwned h
  refine ⟨_, ((exec_ldDec p d s).trans (loadDec_of_not_owns notOwned)).trans (loadFrom_of_peek h),
    State.setReg_reg_self _ d v, ?_, rfl, rfl, ?_⟩
  · refine (State.ptr_congr (s := s.setPtr p (s.ptr p - 1)) ?_ ?_).trans (s.setPtr_ptr p _)
    · exact State.setReg_reg_ne _ v fun lo => by simp [(p.owns_iff d).mpr (.inl lo.symm)] at notOwned
    · exact State.setReg_reg_ne _ v fun hi => by simp [(p.owns_iff d).mpr (.inr hi.symm)] at notOwned
  · exact ((((s.sameBut_refl _).tail (s.setPtr_sameBut p _) (by simp [Set.insert_subset_iff])).tail
      (State.draw_sameBut _ _) (by simp)).tail (State.setReg_sameBut _ d v) (by simp)).tail
      (State.advance_sameBut _ 1) (by simp)

/-! ### Stores -/

/-- A store that changes a piece other than the pointer's registers is none onto its own pointer (R176). -/
theorem ownTarget_eq_false {s : State} {p : Pointer} {a : Nat} {c : Piece}
    (target : s.storePiece a = some c) (lo : c ≠ .reg p.lo) (hi : c ≠ .reg p.hi) :
    ownTarget s.device p a = false := by
  have place {i : Reg} (h : s.device.place a = .reg i) : c = .reg i := by
    simpa [State.storePiece, h, eq_comm] using target
  simp only [ownTarget, Bool.or_eq_false_iff, beq_eq_false_iff_ne]
  exact ⟨fun h => lo (place h), fun h => hi (place h)⟩

theorem ownTarget_of_absent {d : Device} {p : Pointer} {a : Nat} (h : d.place a = .absent) :
    ownTarget d p a = false := by
  simp [ownTarget, h]

theorem ownTarget_of_owns {d : Device} {p : Pointer} {a : Nat} {i : Reg} (h : d.place a = .reg i)
    (owned : p.owns i = true) : ownTarget d p a = true := by
  rcases (p.owns_iff i).mp owned with rfl | rfl <;> simp [ownTarget, h]

section
variable {p : Pointer} {r : Reg} {s : State}

theorem storeInc_of_absent (notOwned : p.owns r = false)
    (h : s.device.place (s.ptrAddr p (s.ptr p)) = .absent) :
    storeInc p r s = .refused .dataAddressNotImplemented := by
  simp [storeInc, notOwned, ownTarget_of_absent h,
    State.dataWrite_none.mpr (State.storePiece_of_absent h)]

theorem storeDec_eq_storeTo (notOwned : p.owns r = false)
    (other : ownTarget s.device p (s.ptrAddr p (s.ptr p - 1)) = false) :
    storeDec p r s = storeTo (s.ptrAddr p (s.ptr p - 1)) 1 r (s.setPtr p (s.ptr p - 1)) := by
  rw [storeDec, notOwned, other]
  rfl

end

/-- Settles O23: the byte is written first and the pointer after it, and they do not meet. -/
theorem stPostIncrementStoresThenAdvances : Obligations.StPostIncrementStoresThenAdvances := by
  intro p r s c notOwned target lo hi
  obtain ⟨m, written, effect, frame⟩ := State.dataWrite_of_piece (s.reg r) target
  obtain ⟨device, pc, -⟩ := State.dataWrite_keeps written
  have after : m.sameBut ((m.setPtr p (s.ptr p + 1)).advance 1) {.reg p.lo, .reg p.hi, .pc} :=
    ((m.sameBut_refl _).tail (m.setPtr_sameBut p _) (by simp [Set.insert_subset_iff])).tail
      (State.advance_sameBut _ 1) (by simp)
  refine ⟨(m.setPtr p (s.ptr p + 1)).advance 1, ?_, ?_, m.setPtr_ptr p _, ?_,
    State.sameBut_trans frame after⟩
  · simp [exec_stInc, storeInc, notOwned, ownTarget_eq_false target lo hi, written]
  · exact State.stored_of_same target effect
      (after.2 c (by simp [lo, hi, State.storePiece_ne_pc target]))
  · rw [State.advance_pc, State.setPtr_pcAfter, State.pcAfter, State.pcAfter, device, pc]

/-- Settles O24: the store is one from the state in which the pointer has stepped back, and does not reach the
pointer. -/
theorem stPreDecrementStepsBackThenStores : Obligations.StPreDecrementStepsBackThenStores := by
  intro p r s c notOwned target lo hi
  obtain ⟨m, written, effect, frame⟩ :=
    State.dataWrite_of_piece (s := s.setPtr p (s.ptr p - 1)) (s.reg r) target
  obtain ⟨device, pc, -⟩ := State.dataWrite_keeps written
  refine ⟨m.advance 1, ?_, ?_, ?_, ?_, ?_⟩
  · rw [exec_stDec, storeDec_eq_storeTo notOwned (ownTarget_eq_false target lo hi), storeTo,
      State.setPtr_reg_of_not_owns _ notOwned, written]
  · exact State.stored_of_same target effect
      ((m.advance_sameBut 1).2 c (State.storePiece_ne_pc target))
  · exact (State.ptr_congr (frame.2 _ (Ne.symm lo)) (frame.2 _ (Ne.symm hi))).trans (s.setPtr_ptr p _)
  · rw [State.advance_pc, State.pcAfter, State.pcAfter, device, pc]
    rfl
  · exact (((s.sameBut_refl _).tail (s.setPtr_sameBut p _) (by simp [Set.insert_subset_iff])).tail frame
      (by simp)).tail (m.advance_sameBut 1) (by simp)

/-- Settles O26: the check of R176 comes before the store. -/
theorem storeOntoItsOwnPointerIsRefused : Obligations.StoreOntoItsOwnPointerIsRefused := by
  intro p r s i notOwned owned
  refine ⟨fun place => ?_, fun place => ?_⟩
  · rw [exec_stInc, storeInc, notOwned, ownTarget_of_owns place owned]
    rfl
  · rw [exec_stDec, storeDec, notOwned, ownTarget_of_owns place owned]
    rfl

/-- Settles O27: at an absent address neither a read nor a write answers. -/
theorem absentDataAddressesAreRefused : Obligations.AbsentDataAddressesAreRefused := by
  intro p d q s
  refine ⟨fun absent => ?plain, fun absent notOwned => ?decrement, fun absent => ?y, fun absent => ?z⟩
  case plain =>
    have read := State.peek_of_absent absent
    rw [exec_ldPlain, exec_stPlain, exec_ldInc, exec_stInc]
    exact ⟨loadFrom_of_absent read, storeTo_of_absent (State.storePiece_of_absent absent),
      fun notOwned => ⟨loadInc_of_absent notOwned read, storeInc_of_absent notOwned absent⟩⟩
  case decrement =>
    rw [exec_ldDec, exec_stDec, loadDec_of_not_owns notOwned,
      storeDec_eq_storeTo notOwned (ownTarget_of_absent absent)]
    exact ⟨loadFrom_of_absent (State.peek_of_absent absent),
      storeTo_of_absent (State.storePiece_of_absent absent)⟩
  case y | z =>
    exact ⟨loadFrom_of_absent (State.peek_of_absent absent),
      storeTo_of_absent (State.storePiece_of_absent absent)⟩

end Sys2Proof.Machine
end

section
/-! PROOFS. Loads from program memory (42_program_memory_load.md, 46_extended_program_memory.md section 1): LPM and
the three forms of ELPM. -/

namespace Sys2Proof.Machine

/-! ### One program byte -/

/-- R69: bit 0 of the byte address chooses the high or the low byte of the word. -/
theorem Memory.read_of_readWord {m : Memory} {b : Nat} {v : Word}
    (h : Memory.readWord m (b / 2) = some v) :
    Memory.read m b = some (if b.testBit 0 then hiByte v else loByte v) := by
  unfold Memory.readWord at h
  split at h
  · next lo hi hlo hhi =>
    cases h
    rw [hiByte_joinBytes, loByte_joinBytes, Nat.testBit_zero]
    rcases Nat.mod_two_eq_zero_or_one b with even | odd
    · rw [show 2 * (b / 2) = b by omega] at hlo
      simp [hlo, even]
    · rw [show 2 * (b / 2) + 1 = b by omega] at hhi
      simp [hhi, odd]
  · cases h

theorem State.progByte_of_readWord {s : State} {b : Nat} {v : Word} (inside : b / 2 < s.device.progWords)
    (h : Memory.readWord s.prog (b / 2) = some v) :
    s.progByte b = some (if b.testBit 0 then hiByte v else loByte v) := by
  simp only [State.progByte, if_pos inside, Memory.read_of_readWord h]

theorem State.progByte_outside {s : State} {b : Nat} (outside : s.device.progWords ≤ b / 2) :
    s.progByte b = none := by
  simp [State.progByte, Nat.not_lt.mpr outside]

/-- Below PROG_WORDS a load from program memory completes, with the byte the word there holds. -/
theorem loadProgram_inside {s : State} {b : Nat} (d : Reg) (inside : b / 2 < s.device.progWords) :
    ∃ t, loadProgram b d s = .next t ∧ t.pc = s.pcAfter 1 ∧ s.sameBut t {.reg d, .pc} ∧
      ∀ v, Memory.readWord s.prog (b / 2) = some v →
        t.reg d = if b.testBit 0 then hiByte v else loByte v := by
  obtain ⟨u, hu⟩ := Option.isSome_iff_exists.mp (State.progByte_isSome.mpr inside)
  refine ⟨(s.setReg d u).advance 1, by simp [loadProgram, hu], rfl, setReg_advance_sameBut s d u 1,
    fun v hv => ?_⟩
  rw [State.progByte_of_readWord inside hv] at hu
  cases hu
  exact s.setReg_reg_self d _

theorem loadProgram_outside {s : State} {b : Nat} (d : Reg) (outside : s.device.progWords ≤ b / 2) :
    loadProgram b d s = .refused .programAddressNotImplemented := by
  simp [loadProgram, State.progByte_outside outside]

/-! ### LPM and ELPM -/

/-- Settles O29: LPM is the load at the byte address Z. -/
theorem lpmLoadsTheProgramByte : Obligations.LpmLoadsTheProgramByte :=
  fun _ => ⟨fun inside => loadProgram_inside 0 inside, fun outside => loadProgram_outside 0 outside⟩

/-- Bit 0 of RAMPZ:Z is bit 0 of Z. -/
theorem testBit_zero_rampzZ (page : Byte) (z : Word) : (page ++ z).toNat.testBit 0 = z.getLsbD 0 :=
  BitVec.getLsbD_append (x := page) (y := z) (i := 0)

theorem exec_elpm {s : State} (present : s.device.hasElpm = true) :
    exec .elpm s = loadProgram (s.rampz ++ s.ptr .z).toNat 0 s :=
  ifPresent_of_present _ present

theorem exec_elpmZ {s : State} (d : Reg) (present : s.device.hasElpm = true) :
    exec (.elpmZ d) s = loadProgram (s.rampz ++ s.ptr .z).toNat d s :=
  ifPresent_of_present _ present

/-- Settles O30: both forms are the load at the byte address RAMPZ:Z. -/
theorem elpmLoadsTheProgramByte : Obligations.ElpmLoadsTheProgramByte := by
  intro d s present
  rw [exec_elpm present, exec_elpmZ d present]
  refine ⟨fun inside f hf => ?_,
    fun outside => ⟨loadProgram_outside 0 outside, loadProgram_outside d outside⟩⟩
  have completes := loadProgram_inside f.2 inside
  rw [testBit_zero_rampzZ] at completes
  have form : exec f.1 s = loadProgram (s.rampz ++ s.ptr .z).toNat f.2 s := by
    rcases List.mem_pair.mp hf with rfl | rfl
    · exact exec_elpm present
    · exact exec_elpmZ d present
  rwa [form]

/-- A 24-bit value is its high byte above its low word. -/
theorem append_extractLsb'_24 (x : BitVec 24) : x.extractLsb' 16 8 ++ x.extractLsb' 0 16 = x := by
  rw [BitVec.extractLsb'_append_extractLsb'_eq_extractLsb' (by rfl)]
  exact BitVec.extractLsb'_eq_self

/-- The state after `ELPM Rd,Z+` has loaded `v`. -/
def State.elpmIncremented (s : State) (d : Reg) (v : Byte) : State :=
  State.advance { (s.setReg d v).setPtr .z ((s.rampzZ + 1).extractLsb' 0 16) with
    rampz := (s.rampzZ + 1).extractLsb' 16 8 } 1

theorem exec_elpmZInc {s : State} {d : Reg} {v : Byte} (present : s.device.hasElpm = true)
    (notOwned : Pointer.z.owns d = false) (h : s.progByte s.rampzZ.toNat = some v) :
    exec (.elpmZInc d) s = .next (s.elpmIncremented d v) := by
  refine (ifPresent_of_present _ present).trans ?_
  simp [elpmIncrement, notOwned, h, State.elpmIncremented]

theorem State.setRampz_sameBut (s : State) (v : Byte) : s.sameBut { s with rampz := v } {.rampz} := by
  refine ⟨rfl, fun p hp => ?_⟩
  cases p with
  | rampz => exact absurd rfl hp
  | _ => exact rfl

theorem State.elpmIncremented_sameBut (s : State) (d : Reg) (v : Byte) :
    s.sameBut (s.elpmIncremented d v) {.reg d, .reg 30, .reg 31, .rampz, .pc} :=
  (((State.sameBut.tail (s.sameBut_refl _) (s.setReg_sameBut d v) (by simp)).tail
    (State.setPtr_sameBut _ .z _) (by simp [Set.insert_subset_iff, Pointer.lo, Pointer.hi])).tail
    (State.setRampz_sameBut _ _) (by simp)).tail (State.advance_sameBut _ 1) (by simp)

/-- RAMPZ:Z counts up as one value of 24 bits (D28). -/
theorem State.elpmIncremented_rampzZ (s : State) (d : Reg) (v : Byte) :
    (s.elpmIncremented d v).rampz ++ (s.elpmIncremented d v).ptr .z = s.rampzZ + 1 := by
  have z : (s.elpmIncremented d v).ptr .z = (s.rampzZ + 1).extractLsb' 0 16 :=
    State.setPtr_ptr _ .z _
  rw [z]
  exact append_extractLsb'_24 _

theorem State.elpmIncremented_reg (s : State) {d : Reg} (v : Byte) (notOwned : Pointer.z.owns d = false) :
    (s.elpmIncremented d v).reg d = v :=
  (State.setPtr_reg_of_not_owns _ notOwned).trans (s.setReg_reg_self d v)

/-- Settles O31: the load at RAMPZ:Z, and then RAMPZ:Z counted up as one value. -/
theorem elpmPostIncrementCountsTwentyFourBits : Obligations.ElpmPostIncrementCountsTwentyFourBits := by
  intro d s present notOwned
  refine ⟨fun inside => ?_, fun outside => ?_⟩
  · obtain ⟨u, hu⟩ := Option.isSome_iff_exists.mp (State.progByte_isSome.mpr inside)
    refine ⟨s.elpmIncremented d u, exec_elpmZInc present notOwned hu, rfl, ?_,
      s.elpmIncremented_sameBut d u, fun v hv => ?_⟩
    · rw [s.elpmIncremented_rampzZ d u, BitVec.toNat_add]
      rfl
    · rw [State.progByte_of_readWord inside hv, testBit_zero_rampzZ] at hu
      cases hu
      exact s.elpmIncremented_reg _ notOwned
  · refine (ifPresent_of_present _ present).trans ?_
    have none : s.progByte s.rampzZ.toNat = none := State.progByte_outside outside
    simp [elpmIncrement, notOwned, none]

end Sys2Proof.Machine
end

section
/-! PROOFS. SPM and ESPM (46_extended_program_memory.md section 2): the operations of a device that describes its
programmer, the answers of a device's own `SpmOp`, and the stops. -/

namespace Sys2Proof.Machine

/-! ### The two forms -/

/-- SPM and ESPM are one operation at their two addresses. -/
theorem exec_of_mem_spmForms {s : State} {f : Instr × Bool × BitVec 24} (hf : f ∈ s.spmForms)
    (present : f.2.1 = true) : exec f.1 s = storeProgram f.2.2 s := by
  rcases List.mem_pair.mp hf with rfl | rfl
  · exact ifPresent_of_present _ present
  · exact ifPresent_of_present _ present

/-! ### The operation an SPMCR value selects -/

section
variable {p : SpmDevice}

theorem SpmDevice.select_erase : p.select 0x03 = some .erasePage := by
  simp [SpmDevice.select]

theorem SpmDevice.select_fill (buffered : p.buffered = true) : p.select 0x01 = some .fillBuffer := by
  simp [SpmDevice.select, buffered]

theorem SpmDevice.select_word (unbuffered : p.buffered = false) : p.select 0x01 = some .writeWord := by
  simp [SpmDevice.select, unbuffered]

theorem SpmDevice.select_page (buffered : p.buffered = true) : p.select 0x05 = some .writePage := by
  simp [SpmDevice.select, buffered]

theorem SpmDevice.select_lock (own : p.lockCode ∉ [0x01, 0x03, 0x05]) :
    p.select p.lockCode = some .setLockBits := by
  simp only [List.mem_cons, List.not_mem_nil, or_false, not_or] at own
  obtain ⟨notWrite, notErase, notPage⟩ := own
  rw [SpmDevice.select, if_neg notErase, if_neg notWrite, if_neg fun h => notPage h.1, if_pos rfl]

theorem SpmDevice.operation_of_select {spmcr : Byte} {op : SpmOperation} (h : p.select spmcr = some op)
    (n : Nat) : p.operation spmcr n = op := by
  simp only [SpmDevice.operation, h]

theorem SpmDevice.addressesProgram_of_select {spmcr : Byte} {op : SpmOperation}
    (h : p.select spmcr = some op) (free : op = .fillBuffer ∨ op = .setLockBits) :
    p.addressesProgram spmcr = false := by
  simp only [SpmDevice.addressesProgram, h]
  rcases free with rfl | rfl <;> rfl

end

/-! ### What each operation changes -/

theorem State.setProg_sameBut (s : State) (m : Memory) :
    s.sameBut { s with prog := m } (Set.range Piece.prog) := by
  refine ⟨rfl, fun p hp => ?_⟩
  cases p with
  | prog b => exact absurd ⟨b, rfl⟩ hp
  | _ => exact rfl

theorem State.writeProgWord_sameBut (s : State) (w : Nat) (v : Word) :
    s.sameBut { s with prog := Memory.writeWord s.prog w v } {.prog (2 * w), .prog (2 * w + 1)} := by
  refine ⟨rfl, fun p hp => ?_⟩
  cases p with
  | prog b =>
    simp only [Set.mem_insert_iff, Set.mem_singleton_iff, Piece.prog.injEq, not_or] at hp
    show Memory.read _ b = _
    rw [Memory.read_writeWord, if_neg hp.2, if_neg hp.1]
  | _ => exact rfl

theorem State.setTemp_sameBut (s : State) (m : Memory) : s.sameBut { s with temp := m } {.temp} := by
  refine ⟨rfl, fun p hp => ?_⟩
  cases p with
  | temp => exact absurd rfl hp
  | _ => exact rfl

theorem State.setBlbits_sameBut (s : State) (v : Word) : s.sameBut { s with blbits := v } {.blbits} := by
  refine ⟨rfl, fun p hp => ?_⟩
  cases p with
  | blbits => exact absurd rfl hp
  | _ => exact rfl

theorem State.spmApply_sameBut (s : State) (p : SpmDevice) (op : SpmOperation) (w : Nat) (v : Word) :
    s.sameBut (s.spmApply p op w v) ({.temp, .blbits} ∪ Set.range Piece.prog) := by
  cases op with
  | erasePage | writePage | writeWord =>
    exact State.sameBut_mono (s.setProg_sameBut _) Set.subset_union_right
  | fillBuffer => exact State.sameBut_mono (s.setTemp_sameBut _) (by simp)
  | setLockBits => exact State.sameBut_mono (s.setBlbits_sameBut v) (by simp)
  | nothing => exact s.sameBut_refl _

/-! ### A device that describes its programmer -/

/-- The state after operation `op` at word `w`, with SPMCR drawn anew (R227) and `pc` moved on. -/
def State.spmDone (s : State) (p : SpmDevice) (op : SpmOperation) (w : Nat) (v : Word) : State :=
  State.advance { s.spmApply p op w v with
    spmcr := Config.spmcrAfter s.draws
    draws := s.draws + 1 } 1

theorem State.spmDone_pc (s : State) (p : SpmDevice) (op : SpmOperation) (w : Nat) (v : Word) :
    (s.spmDone p op w v).pc = s.pcAfter 1 := by
  cases op <;> rfl

/-- Beside what the operation changes, SPMCR, the count of draws and `pc` are new. -/
theorem State.spmDone_sameBut {s : State} {p : SpmDevice} {op : SpmOperation} {w : Nat} {v : Word}
    {c : Set Piece} (h : s.sameBut (s.spmApply p op w v) c) :
    s.sameBut (s.spmDone p op w v) ({.pc, .spmcr, .draws} ∪ c) := by
  have registers (m : State) (x : Byte) (n : Nat) :
      m.sameBut (State.advance { m with spmcr := x, draws := n } 1) {.pc, .spmcr, .draws} := by
    refine ⟨rfl, fun q hq => ?_⟩
    cases q with
    | pc | spmcr | draws => exact absurd (by simp) hq
    | _ => exact rfl
  exact State.sameBut_mono (State.sameBut_trans h (registers _ _ _)) (Set.union_comm _ _).subset

/-- SPM and ESPM carry out the operation, where it does not address program memory that is absent (R68). -/
theorem exec_spmDone {s : State} {p : SpmDevice} {op : SpmOperation} {f : Instr × Bool × BitVec 24}
    (facts : s.device.spm = .facts p) (hf : f ∈ s.spmForms) (present : f.2.1 = true)
    (hop : p.operation s.spmcr s.draws = op)
    (inside : p.addressesProgram s.spmcr = true → f.2.2.toNat / 2 < s.device.progWords) :
    exec f.1 s = .next (s.spmDone p op (f.2.2.toNat / 2) (s.pair 0)) := by
  have done : ¬ (p.addressesProgram s.spmcr = true ∧ s.device.progWords ≤ f.2.2.toNat / 2) :=
    fun h => Nat.not_lt.mpr h.2 (inside h.1)
  rw [exec_of_mem_spmForms hf present, storeProgram, State.runSpmOp, facts]
  simp only [State.spmOp, if_neg done, hop]
  rfl

/-- Settles O33: 0x03 selects the erase, which writes 0xFFFF to the words of the page. -/
theorem spmErasesThePage : Obligations.SpmErasesThePage := by
  intro s p facts spmcr f hf present inside
  have hop := SpmDevice.operation_of_select (p := p) SpmDevice.select_erase s.draws
  rw [← spmcr] at hop
  exact ⟨_, exec_spmDone facts hf present hop (fun _ => inside), s.spmDone_pc .., fun w =>
    s.writePageWords_readWord _ _ _ w, State.spmDone_sameBut (s.setProg_sameBut _)⟩

/-- Settles O34: 0x01 selects the word write, which programs the word in full where it is erased. -/
theorem spmWritesTheErasedWord : Obligations.SpmWritesTheErasedWord := by
  intro s p facts unbuffered spmcr f hf present inside erased
  have hop := SpmDevice.operation_of_select (SpmDevice.select_word unbuffered) s.draws
  rw [← spmcr] at hop
  refine ⟨_, exec_spmDone facts hf present hop (fun _ => inside), s.spmDone_pc .., ?_,
    State.sameBut_mono (State.spmDone_sameBut (s.writeProgWord_sameBut _ _))
      (by simp [Set.insert_subset_iff])⟩
  show Memory.readWord (Memory.writeWord s.prog _ (s.programmed _ _)) _ = _
  rw [Memory.readWord_writeWord, if_pos rfl, State.programmed, if_pos erased]
  rfl

/-- Settles O35: 0x01 selects the buffer, which takes the word at its offset. -/
theorem spmFillsTheBuffer : Obligations.SpmFillsTheBuffer := by
  intro s p facts buffered spmcr f hf present
  have sel := SpmDevice.select_fill buffered
  have hop := SpmDevice.operation_of_select sel s.draws
  have free := SpmDevice.addressesProgram_of_select sel (.inl rfl)
  rw [← spmcr] at hop free
  exact ⟨_, exec_spmDone facts hf present hop (fun h => absurd (free.symm.trans h) (by decide)),
    s.spmDone_pc .., fun o => Memory.readWord_writeWord s.temp _ o _,
    State.sameBut_mono (State.spmDone_sameBut (s.setTemp_sameBut _)) (by simp [Set.insert_subset_iff])⟩

theorem State.tempWord_of_readWord {s : State} {i : Nat} {v : Word}
    (h : Memory.readWord s.temp i = some v) : s.tempWord i = v := by
  unfold Memory.readWord at h
  split at h
  · next lo hi hlo hhi =>
    cases h
    simp [State.tempWord, hlo, hhi]
  · cases h

/-- Settles O36: 0x05 selects the page write, which programs each erased word from the buffer. -/
theorem spmWritesTheBufferedPage : Obligations.SpmWritesTheBufferedPage := by
  intro s p facts buffered spmcr f hf present inside erased
  have hop := SpmDevice.operation_of_select (SpmDevice.select_page buffered) s.draws
  rw [← spmcr] at hop
  refine ⟨_, exec_spmDone facts hf present hop (fun _ => inside), s.spmDone_pc ..,
    fun w v base last imp hv => ?_,
    fun w other => (s.writePageWords_readWord _ _ _ w).trans (if_neg other),
    State.spmDone_sameBut (s.setProg_sameBut _)⟩
  refine ((s.writePageWords_readWord _ _ _ w).trans (if_pos ⟨base, last, imp⟩)).trans (congrArg some ?_)
  rw [Nat.add_sub_cancel' base, State.programmed, if_pos (erased w base last imp),
    State.tempWord_of_readWord hv]

/-- Settles O37: the device's own code selects the lock bits. -/
theorem spmSetsTheLockBits : Obligations.SpmSetsTheLockBits := by
  intro s p facts spmcr own f hf present
  have sel := SpmDevice.select_lock own
  have hop := SpmDevice.operation_of_select sel s.draws
  have free := SpmDevice.addressesProgram_of_select sel (.inr rfl)
  rw [← spmcr] at hop free
  exact ⟨_, exec_spmDone facts hf present hop (fun h => absurd (free.symm.trans h) (by decide)),
    s.spmDone_pc .., rfl,
    State.sameBut_mono (State.spmDone_sameBut (s.setBlbits_sameBut _)) (by simp [Set.insert_subset_iff])⟩

/-! ### A device's own `SpmOp` -/

/-- SPM and ESPM on a device that supplies its own function complete where that function answers (R228). -/
theorem exec_supplied_ok {s u : State} {n : Nat} {f : Instr × Bool × BitVec 24}
    (supplied : s.device.spm = .supplied n) (hf : f ∈ s.spmForms) (present : f.2.1 = true)
    (h : s.suppliedOp n f.2.2 (s.pair 0) = .ok u) : exec f.1 s = .next (u.advance 1) := by
  simp only [exec_of_mem_spmForms hf present, storeProgram, State.runSpmOp, supplied, h]

/-- And they are refused where it refuses. -/
theorem exec_supplied_error {s : State} {n : Nat} {r : Refusal} {f : Instr × Bool × BitVec 24}
    (supplied : s.device.spm = .supplied n) (hf : f ∈ s.spmForms) (present : f.2.1 = true)
    (h : s.suppliedOp n f.2.2 (s.pair 0) = .error r) : exec f.1 s = .refused r := by
  simp only [exec_of_mem_spmForms hf present, storeProgram, State.runSpmOp, supplied, h]

theorem State.suppliedWords_lookup (s : State) (addr : BitVec 24) (r : SpmAnswer) (w : Nat) :
    (s.suppliedWords addr r).lookup w =
      if s.spmcr = 0x03 ∧ w = addr.toNat / 2 then some 0xFFFF else r.prog.lookup w := by
  unfold State.suppliedWords
  by_cases erase : s.spmcr = 0x03
  · by_cases hw : w = addr.toNat / 2
    · rw [if_pos erase, if_pos ⟨erase, hw⟩, hw, List.lookup_cons_self]
    · have differ : (w == addr.toNat / 2) = false := by simp [hw]
      rw [if_pos erase, if_neg fun h => hw h.2, List.lookup_cons, differ]
  · rw [if_neg erase, if_neg fun h => erase h.1]

section
variable {s : State} {addr : BitVec 24} {r : SpmAnswer} {w : Nat}

/-- An erase leaves 0xFFFF in the addressed word and in every word it sets. -/
theorem State.suppliedAnswer_erased (inside : w < s.device.progWords) (erase : s.spmcr = 0x03)
    (set : w = addr.toNat / 2 ∨ (r.prog.lookup w).isSome = true) :
    Memory.readWord (s.suppliedAnswer addr r).prog w = some 0xFFFF := by
  have listed : ∃ v, (s.suppliedWords addr r).lookup w = some v := by
    rw [s.suppliedWords_lookup]
    by_cases hw : w = addr.toNat / 2
    · exact ⟨0xFFFF, if_pos ⟨erase, hw⟩⟩
    · rw [if_neg fun h => hw h.2]
      exact Option.isSome_iff_exists.mp (set.resolve_left hw)
  obtain ⟨v, hv⟩ := listed
  refine (s.writeWords_readWord _ _ w).trans ?_
  simp only [if_pos inside, hv, State.suppliedWord, if_pos erase]

/-- Another operation leaves the words it sets, where they may be written. -/
theorem State.suppliedAnswer_set {v : Word} (inside : w < s.device.progWords) (notErase : s.spmcr ≠ 0x03)
    (set : r.prog.lookup w = some v)
    (erased : s.spmcr ∈ [0x01, 0x05] → Memory.readWord s.prog w = some 0xFFFF) :
    Memory.readWord (s.suppliedAnswer addr r).prog w = some v := by
  have listed : (s.suppliedWords addr r).lookup w = some v := by
    rw [s.suppliedWords_lookup, if_neg fun h => notErase h.1, set]
  have word : s.suppliedWord w v = v := by
    rw [State.suppliedWord, if_neg notErase]
    split
    · next writes => rw [State.programmed, if_pos (erased (List.mem_pair.mpr writes))]
    · rfl
  refine (s.writeWords_readWord _ _ w).trans ?_
  simp only [if_pos inside, listed, word]

/-- No other word changes. -/
theorem State.suppliedAnswer_unset (unset : w < s.device.progWords →
      r.prog.lookup w = none ∧ (s.spmcr = 0x03 → w ≠ addr.toNat / 2)) :
    Memory.readWord (s.suppliedAnswer addr r).prog w = Memory.readWord s.prog w := by
  refine (s.writeWords_readWord _ _ w).trans ?_
  split
  · next inside =>
    obtain ⟨unlisted, other⟩ := unset inside
    rw [s.suppliedWords_lookup, if_neg fun h => other h.1 h.2, unlisted]
  · rfl

end

/-- Settles O38: an operation that the device describes completes within the frame of `SpmOp`, and the answer
of a device's own `SpmOp` is carried out as it stands. -/
theorem spmChangesNothingElse : Obligations.SpmChangesNothingElse := by
  refine ⟨fun s p facts f hf present inside => ?_, fun s n supplied f hf present allowed => ?_⟩
  · refine ⟨_, exec_spmDone facts hf present rfl (fun _ => inside), s.spmDone_pc .., ?_⟩
    exact State.sameBut_mono (State.spmDone_sameBut (s.spmApply_sameBut ..))
      (by rw [← Set.union_assoc]; exact Set.union_subset_union_left _ (by simp [Set.insert_subset_iff]))
  · rcases s.suppliedOp_cases n f.2.2 (s.pair 0) with ⟨stop, -⟩ | ⟨-, ⟨refuses, hop⟩ | ⟨r, answers, hop⟩⟩
    · rcases allowed with other | inside
      · exact absurd (List.mem_pair.mpr stop.1) other
      · exact absurd stop.2 (Nat.not_le.mpr inside)
    · change Config.spmOp n s.spmcr f.2.2 (joinBytes (s.reg 1) (s.reg 0)) s.prog s.temp s.blbits = none
        at refuses
      rw [refuses]
      exact exec_supplied_error supplied hf present hop
    · change Config.spmOp n s.spmcr f.2.2 (joinBytes (s.reg 1) (s.reg 0)) s.prog s.temp s.blbits = some r
        at answers
      rw [answers]
      refine ⟨(s.suppliedAnswer f.2.2 r).advance 1, exec_supplied_ok supplied hf present hop, rfl, rfl, rfl,
        Memory.read_ofCells r.temp, fun w => State.suppliedAnswer_erased,
        fun w v => State.suppliedAnswer_set, fun w => State.suppliedAnswer_unset, ?_⟩
      exact ((State.sameBut_mono (s.suppliedAnswer_frame f.2.2 r)
        (Set.union_subset_union_left _ (by simp))).tail (State.advance_sameBut _ 1) (by simp))

/-! ### The stops -/

/-- Settles O39: no source, an absent address for an operation that uses it, and the same for a device's own
erase or page write. -/
theorem spmStopsWithoutItsDevice : Obligations.SpmStopsWithoutItsDevice := by
  refine ⟨fun s absent f hf present => ?_, fun s p facts addresses f hf present outside => ?_,
    fun s n supplied spmcr f hf present outside => ?_⟩
  · rw [exec_of_mem_spmForms hf present, storeProgram, State.runSpmOp, absent]
  · rw [exec_of_mem_spmForms hf present, storeProgram, State.runSpmOp, facts]
    simp only [State.spmOp, if_pos (And.intro addresses outside)]
  · exact exec_supplied_error supplied hf present (if_pos ⟨List.mem_pair.mp spmcr, outside⟩)

end Sys2Proof.Machine
end

section
/-! PROOFS. The I/O space (20_memory.md section 3, 43_io_transfer.md): where the core registers lie, IN and OUT. -/

namespace Sys2Proof.Machine

/-- Settles O41: the addresses are distinct (D4), so the search of `coreAt` passes the registers before the one
asked for. -/
theorem coreRegistersLieAtTheirAddresses : Obligations.CoreRegistersLieAtTheirAddresses := by
  intro d valid
  obtain ⟨-, -, -, -, -, -, -, distinct, -⟩ := valid
  simp only [Device.ioAddrs, List.nodup_cons, List.mem_cons, List.not_mem_nil, or_false, not_or,
    not_false_eq_true, List.nodup_nil, and_true] at distinct
  refine ⟨?_, ?_, fun wide => ?_, fun narrow => ?_, ?_, ?_, ?_, ?_, ?_⟩ <;>
    grind [Device.coreAt, Device.hasSpmcr]

/-- Settles O42: the read answers the core register and leaves the state as it is. -/
theorem inReadsTheCoreRegister : Obligations.InReadsTheCoreRegister := by
  intro d p c s core
  have read : s.ioRead p = (s.coreReg c, s) := by simp only [State.ioRead, core]
  refine ⟨(s.setReg d (s.coreReg c)).advance 1, ?_, s.setReg_reg_self d _, rfl,
    setReg_advance_sameBut s d _ 1⟩
  show execIn d p s = _
  rw [execIn, read]

/-- Settles O43: the read takes the next free draw. -/
theorem inDrawsADeviceByte : Obligations.InDrawsADeviceByte := by
  intro d p s device
  have read : s.ioRead p = (Config.deviceByte p s.draws, { s with draws := s.draws + 1 }) := by
    simp only [State.ioRead, device]
  refine ⟨(State.setReg { s with draws := s.draws + 1 } d (Config.deviceByte p s.draws)).advance 1, ?_,
    State.setReg_reg_self _ d _, rfl, rfl, ?_⟩
  · show execIn d p s = _
    rw [execIn, read]
  · exact (((s.sameBut_refl _).tail (s.draw_sameBut _) (by simp)).tail (State.setReg_sameBut _ d _)
      (by simp)).tail (State.advance_sameBut _ 1) (by simp)

/-- The effect of a write to the I/O space does not lie in `pc`. -/
theorem State.ioWritten_advance {s m : State} {p : IoAddr} {v : Byte} (h : s.ioWritten m p v) (n : Nat) :
    s.ioWritten (m.advance n) p v := by
  unfold State.ioWritten at h ⊢
  cases hc : s.device.coreAt p with
  | none =>
    simp only [hc] at h ⊢
    exact h
  | some c =>
    simp only [hc] at h ⊢
    cases c <;> exact h

/-- Settles O44: the write to the I/O space, and the move of `pc`. -/
theorem outWritesTheIoAddress : Obligations.OutWritesTheIoAddress := by
  intro p r s
  obtain ⟨effect, frame⟩ := s.ioWrite_frame p (s.reg r)
  obtain ⟨device, pc, -⟩ := s.ioWrite_keeps p (s.reg r)
  refine ⟨(s.ioWrite p (s.reg r)).advance 1, rfl, State.ioWritten_advance effect 1, ?_,
    State.sameBut_trans frame (State.advance_sameBut _ 1)⟩
  rw [State.advance_pc, State.pcAfter, State.pcAfter, device, pc]

end Sys2Proof.Machine
end

section
/-! PROOFS. The stack (44_stack.md): PUSH, POP, and the pair of them. -/

namespace Sys2Proof.Machine

/-- Settles O47: the write at SP, and then SP as the write left it steps down. -/
theorem pushStoresThenStepsDown : Obligations.PushStoresThenStepsDown := by
  intro r s
  refine ⟨fun c target => ?_, fun absent => ?_⟩
  · obtain ⟨m, written, effect, frame⟩ := State.dataWrite_of_piece (s.reg r) target
    obtain ⟨device, pc, -⟩ := State.dataWrite_keeps written
    have after : m.sameBut ((m.setSp (m.sp - 1)).advance 1) {.sp, .pc} :=
      State.sameBut_trans (m.setSp_sameBut _) (State.advance_sameBut _ 1)
    have sp : ((m.setSp (m.sp - 1)).advance 1).sp = s.device.spOf (m.sp - 1) := by
      rw [State.advance_sp, State.setSp_sp, device]
    refine ⟨(m.setSp (m.sp - 1)).advance 1, ?_, ?_, State.sameBut_trans frame after, fun other => ⟨?_, ?_⟩,
      fun own => ⟨m, effect, own ▸ frame, sp⟩⟩
    · show execPush r s = _
      simp only [execPush, State.pushByte, written]
    · rw [State.advance_pc, State.setSp_pcAfter, State.pcAfter, State.pcAfter, device, pc]
    · exact State.stored_of_same target effect
        (after.2 c (by simp [other, State.storePiece_ne_pc target]))
    · have same : m.sp = s.sp := frame.2 .sp (by simpa using other.symm)
      rw [sp, same]
  · show execPush r s = _
    simp only [execPush, State.pushByte, State.dataWrite_none.mpr absent]

/-- Settles O48: SP steps up, and the read is one from that state. -/
theorem popStepsUpThenLoads : Obligations.PopStepsUpThenLoads := by
  rintro d s u rfl
  refine ⟨fun v k h => ?_, fun absent => ?_⟩
  · obtain ⟨m, read, rfl⟩ := State.dataRead_of_peek h
    refine ⟨(State.setReg { s.setSp (s.sp + 1) with draws := s.draws + k } d v).advance 1, ?_,
      State.setReg_reg_self _ d v, rfl, rfl, rfl, ?_⟩
    · show execPop d s = _
      simp only [execPop, State.popByte, read]
      rfl
    · exact ((((s.sameBut_refl _).tail (s.setSp_sameBut _) (by simp)).tail (State.draw_sameBut _ _)
        (by simp)).tail (State.setReg_sameBut _ d v) (by simp)).tail (State.advance_sameBut _ 1) (by simp)
  · show execPop d s = _
    simp only [execPop, State.popByte, State.dataRead_none.mpr absent]

/-- Modulo `2^SP_BITS` the low byte of SP counts modulo 256 whatever `SP_BITS` is. -/
theorem Device.spOf_toNat (d : Device) (v : Word) :
    (d.spOf v).toNat = match d.spBits with
      | .b8 => v.toNat % 256
      | .b16 => v.toNat := by
  unfold Device.spOf
  cases d.spBits
  · exact (BitVec.toNat_and ..).trans (Nat.and_two_pow_sub_one_eq_mod v.toNat 8)
  · rfl

/-- SP steps down and up again to where it was (R203). -/
theorem Device.spOf_sub_add {d : Device} {v : Word} (h : d.spOf v = v) :
    d.spOf (d.spOf (v - 1) + 1) = v := by
  refine BitVec.eq_of_toNat_eq ?_
  have hv := congrArg BitVec.toNat h
  have up := Device.spOf_toNat d (d.spOf (v - 1) + 1)
  have down := Device.spOf_toNat d (v - 1)
  rw [Device.spOf_toNat d v] at hv
  cases hs : d.spBits <;> simp only [hs] at hv up down <;> rw [up] <;> bv_omega

/-- A piece that may change but ends as it was can be left out of a frame. -/
theorem State.sameBut.restore {s t : State} {c : Set Piece} {p : Piece} (h : s.sameBut t (insert p c))
    (same : s.same t p) : s.sameBut t c := by
  refine ⟨h.1, fun q hq => ?_⟩
  by_cases hqp : q = p
  · exact hqp ▸ same
  · exact h.2 q fun hm => (Set.mem_insert_iff.mp hm).elim hqp hq

/-- The state after `PUSH Rr` with SP in SRAM. -/
def State.pushedSram (s : State) (v : Byte) : State :=
  (State.setSp { s with data := Memory.write s.data s.sp.toNat v } (s.sp - 1)).advance 1

theorem exec_push_sram {s : State} (r : Reg) (sram : s.device.place s.sp.toNat = .sram) :
    exec (.push r) s = .next (s.pushedSram (s.reg r)) := by
  show execPush r s = _
  simp only [execPush, State.pushByte, State.dataWrite, sram]
  rfl

theorem State.pushedSram_sameBut (s : State) (v : Byte) :
    s.sameBut (s.pushedSram v) {.sram s.sp.toNat, .sp, .pc} :=
  ((State.sameBut.tail (s.sameBut_refl _) (s.sramWrite_sameBut _ v) (by simp)).tail
    (State.setSp_sameBut _ _) (by simp)).tail (State.advance_sameBut _ 1) (by simp)

theorem exec_pop_sram {s : State} (d : Reg) {a : Word} (sp : s.device.spOf (s.sp + 1) = a)
    (sram : s.device.place a.toNat = .sram) :
    exec (.pop d) s = .next (((s.setSp (s.sp + 1)).setReg d (s.sramByte a.toNat)).advance 1) := by
  show execPop d s = _
  simp only [execPop, State.popByte, State.dataRead, State.setSp_sp, State.setSp_device, sp, sram,
    State.setSp_sramByte]

/-- Settles O49: POP steps SP back to the byte that PUSH has just written. -/
theorem pushThenPopRestores : Obligations.PushThenPopRestores := by
  intro r d s inv sram
  have back : s.device.spOf ((s.pushedSram (s.reg r)).sp + 1) = s.sp := Device.spOf_sub_add inv.sp_of
  have pushed : (s.pushedSram (s.reg r)).sramByte s.sp.toNat = s.reg r := s.sramWrite_sramByte _ _
  refine ⟨_, _, exec_push_sram r sram, exec_pop_sram d back sram, back, ?_, pushed, ?_⟩
  · exact (State.setReg_reg_self _ d _).trans pushed
  · refine State.sameBut.restore (p := .sp) ?_ back
    exact ((((s.sameBut_refl _).tail (s.pushedSram_sameBut _) (by simp [Set.insert_subset_iff])).tail
      (State.setSp_sameBut _ _) (by simp)).tail (State.setReg_sameBut _ d _) (by simp)).tail
      (State.advance_sameBut _ 1) (by simp)

end Sys2Proof.Machine
end

section
/-! PROOFS. EICALL and EIJMP (45_extended_indirect_jump_call.md): the target, the three pushes, and the refusal
where one of them cannot be made. -/

namespace Sys2Proof.Machine

/-! ### The target -/

/-- D15: bits 7:6 of EIND do not count. -/
theorem State.extendedTarget_toNat (s : State) :
    s.extendedTarget.toNat = s.eind.toNat % 64 * 0x10000 + (s.ptr .z).toNat := by
  rw [State.extendedTarget, toNat_append_word, BitVec.extractLsb'_toNat, Nat.shiftRight_zero]

theorem State.setPc_sameBut (s : State) (pc : PcWord) : s.sameBut { s with pc := pc } {.pc} := by
  refine ⟨rfl, fun p hp => ?_⟩
  cases p with
  | pc => exact absurd rfl hp
  | _ => exact rfl

theorem Device.hasExtendedJump_of {d : Device} (bits : d.pcBits = 22) (present : d.hasEicallEijmp = true) :
    d.hasExtendedJump = true := by
  simp [Device.hasExtendedJump, bits, present]

/-- Settles O50: EIJMP sets `pc` to its target and nothing else. -/
theorem eijmpJumpsToEindZ : Obligations.EijmpJumpsToEindZ :=
  fun s bits present => ⟨_, ifPresent_of_present _ (Device.hasExtendedJump_of bits present),
    s.extendedTarget_toNat, s.setPc_sameBut _⟩

/-! ### The three pushes -/

/-- The return address is `pc + 1` modulo 2^22 (R212). -/
theorem State.returnAddress_eq {s : State} (bits : s.device.pcBits = 22) :
    (s.pcAfter 1).setWidth 24 = BitVec.ofNat 24 ((s.pc.toNat + 1) % 2 ^ 22) := by
  rw [State.pcAfter, Device.pcOf, bits]
  refine BitVec.eq_of_toNat_eq ?_
  simp only [BitVec.toNat_setWidth, BitVec.toNat_ofNat]
  omega

/-- EICALL is its three pushes and the jump after them, or refused. -/
theorem exec_eicall {s : State} (bits : s.device.pcBits = 22) (present : s.device.hasEicallEijmp = true) :
    exec .eicall s = match s.pushReturn (BitVec.ofNat 24 ((s.pc.toNat + 1) % 2 ^ 22)) with
      | some t => .next { t with pc := t.extendedTarget }
      | none => .refused .dataAddressNotImplemented := by
  rw [← State.returnAddress_eq bits]
  exact ifPresent_of_present _ (Device.hasExtendedJump_of bits present)

theorem State.storePiece_ne_none {s t : State} {a : Nat} {v : Byte} (h : s.dataWrite a v = some t) :
    s.storePiece a ≠ none := by
  obtain ⟨p, hp, -⟩ := State.dataWrite_frame h
  simp [hp]

/-- The pushes are not made where one of the addresses they come to is absent (D30). -/
theorem State.pushReturn_eq_none {s : State} {ret : BitVec 24} :
    s.pushReturn ret = none ↔ ∃ x ∈ s.returnAddrs ret, s.storePiece x = none := by
  cases hu : s.dataWrite s.sp.toNat (ret.extractLsb' 0 8) with
  | none => simp [State.pushReturn, State.returnAddrs, hu, State.dataWrite_none.mp hu]
  | some u =>
    have device := (State.dataWrite_keeps hu).1
    have first := State.storePiece_ne_none hu
    cases hv : u.dataWrite (u.device.spOf (u.sp - 1)).toNat (ret.extractLsb' 8 8) with
    | none =>
      have absent := State.dataWrite_none.mp hv
      rw [State.storePiece_congr device] at absent
      refine iff_of_true (by simp only [State.pushReturn, hu, hv]) ⟨_, ?_, absent⟩
      simp only [State.returnAddrs, hu, List.mem_cons, true_or, or_true]
    | some v =>
      have device' := (State.dataWrite_keeps hv).1.trans device
      have second := State.storePiece_ne_none hv
      rw [State.returnAddrs_eq hu hv]
      cases hw : v.dataWrite (v.device.spOf (v.sp - 2)).toNat (ret.extractLsb' 16 8) with
      | none =>
        have absent := State.dataWrite_none.mp hw
        rw [State.storePiece_congr device'] at absent
        exact iff_of_true (by simp only [State.pushReturn, hu, hv, hw]) ⟨_, by simp, absent⟩
      | some w =>
        have third := State.storePiece_ne_none hw
        rw [State.storePiece_congr device] at second
        rw [State.storePiece_congr device'] at third
        refine iff_of_false
          (by simp only [State.pushReturn, hu, hv, hw, reduceCtorEq, not_false_eq_true]) ?_
        simpa using ⟨first, second, third⟩

/-- EICALL where every address its pushes come to is implemented: each write takes effect in the state that the
one before it leaves, and the jump is computed after them. -/
theorem exec_eicall_of_present {s : State} {ret : BitVec 24} (bits : s.device.pcBits = 22)
    (present : s.device.hasEicallEijmp = true) (hret : ret = BitVec.ofNat 24 ((s.pc.toNat + 1) % 2 ^ 22))
    (stored : ∀ x ∈ s.returnAddrs ret, s.storePiece x ≠ none) :
    ∃ u v w, exec .eicall s = .next { w.setSp (w.sp - 3) with pc := w.extendedTarget } ∧
      s.dataWrite s.sp.toNat (ret.extractLsb' 0 8) = some u ∧
      u.dataWrite (u.device.spOf (u.sp - 1)).toNat (ret.extractLsb' 8 8) = some v ∧
      v.dataWrite (v.device.spOf (v.sp - 2)).toNat (ret.extractLsb' 16 8) = some w := by
  obtain ⟨t, pushed⟩ : ∃ t, s.pushReturn ret = some t := by
    refine Option.ne_none_iff_exists'.mp fun none => ?_
    obtain ⟨x, hx, absent⟩ := State.pushReturn_eq_none.mp none
    exact stored x hx absent
  obtain ⟨u, v, w, hu, hv, hw, rfl⟩ := State.pushReturn_cases pushed
  refine ⟨u, v, w, ?_, hu, hv, hw⟩
  rw [exec_eicall bits present, ← hret, pushed]
  rfl

/-- EICALL where one of the addresses its pushes come to is absent. -/
theorem exec_eicall_of_absent {s : State} {ret : BitVec 24} (bits : s.device.pcBits = 22)
    (present : s.device.hasEicallEijmp = true) (hret : ret = BitVec.ofNat 24 ((s.pc.toNat + 1) % 2 ^ 22))
    (absent : ∃ x ∈ s.returnAddrs ret, s.storePiece x = none) :
    exec .eicall s = .refused .dataAddressNotImplemented := by
  rw [exec_eicall bits present, ← hret, State.pushReturn_eq_none.mpr absent]

/-- A write that is none to SP leaves SP for the next push. -/
theorem State.sp_of_dataWrite {s t : State} {a : Nat} {v : Byte} (h : s.dataWrite a v = some t)
    (other : s.storePiece a ≠ some .sp) : t.sp = s.sp := by
  by_contra changed
  exact other (State.dataWrite_changed (q := .sp) h changed)

/-- Where no push is one to SP, the pushes come to SP, SP - 1 and SP - 2, up to the first that is absent. -/
theorem State.absent_mem_returnAddrs {s : State} (ret : BitVec 24)
    (other : ∀ x ∈ [s.sp.toNat, (s.device.spOf (s.sp - 1)).toNat, (s.device.spOf (s.sp - 2)).toNat],
      s.storePiece x ≠ some .sp)
    (absent : ∃ x ∈ [s.sp.toNat, (s.device.spOf (s.sp - 1)).toNat, (s.device.spOf (s.sp - 2)).toNat],
      s.storePiece x = none) : ∃ x ∈ s.returnAddrs ret, s.storePiece x = none := by
  cases hu : s.dataWrite s.sp.toNat (ret.extractLsb' 0 8) with
  | none => exact ⟨_, List.mem_cons_self, State.dataWrite_none.mp hu⟩
  | some u =>
    have du := (State.dataWrite_keeps hu).1
    have su := State.sp_of_dataWrite hu (other _ (by simp))
    cases hv : u.dataWrite (u.device.spOf (u.sp - 1)).toNat (ret.extractLsb' 8 8) with
    | none =>
      refine ⟨(u.device.spOf (u.sp - 1)).toNat, ?_, ?_⟩
      · simp only [State.returnAddrs, hu, List.mem_cons, true_or, or_true]
      · rw [← State.storePiece_congr du]
        exact State.dataWrite_none.mp hv
    | some v =>
      have dv := (State.dataWrite_keeps hv).1.trans du
      have sv : v.sp = s.sp := by
        refine (State.sp_of_dataWrite hv ?_).trans su
        rw [State.storePiece_congr du, du, su]
        exact other _ (by simp)
      rw [State.returnAddrs_eq hu hv, du, su, dv, sv]
      exact absent

/-- Settles O52: one of the addresses that the pushes come to is absent. -/
theorem eicallIsAllOrNothing : Obligations.EicallIsAllOrNothing := by
  refine ⟨?_, fun s ret bits present hret absent => exec_eicall_of_absent bits present hret absent⟩
  rintro s a b c bits present rfl rfl rfl other absent
  exact exec_eicall_of_absent bits present rfl (State.absent_mem_returnAddrs _ other absent)

/-! ### The stack in SRAM -/

/-- The state with three bytes written to SRAM, one after the other. -/
def State.sramWritten (s : State) (a b c : Nat) (x y z : Byte) : State :=
  { s with data := Memory.write (Memory.write (Memory.write s.data a x) b y) c z }

theorem State.sramByte_write (s : State) (m : Memory) (a b : Nat) (v : Byte) :
    State.sramByte { s with data := Memory.write m a v } b =
      if b = a then v else State.sramByte { s with data := m } b := by
  simp only [State.sramByte, Memory.read_write]
  by_cases h : b = a
  · simp [h]
  · simp only [if_neg h]

theorem State.sramWritten_sramByte (s : State) {a b c : Nat} (x y z : Byte) (hab : a ≠ b) (hac : a ≠ c)
    (hbc : b ≠ c) : (s.sramWritten a b c x y z).sramByte a = x ∧
      (s.sramWritten a b c x y z).sramByte b = y ∧ (s.sramWritten a b c x y z).sramByte c = z := by
  simp only [State.sramWritten, State.sramByte_write]
  simp [hab, hac, hbc]

theorem State.sramWritten_sameBut (s : State) (a b c : Nat) (x y z : Byte) :
    s.sameBut (s.sramWritten a b c x y z) {.sram a, .sram b, .sram c} :=
  ((State.sameBut.tail (s.sameBut_refl _) (s.sramWrite_sameBut a x) (by simp)).tail
    (State.sramWrite_sameBut _ b y) (by simp)).tail (State.sramWrite_sameBut _ c z) (by simp)

theorem State.pushReturn_sram {s : State} (ret : BitVec 24) (first : s.device.place s.sp.toNat = .sram)
    (second : s.device.place (s.device.spOf (s.sp - 1)).toNat = .sram)
    (third : s.device.place (s.device.spOf (s.sp - 2)).toNat = .sram) :
    s.pushReturn ret = some ((s.sramWritten s.sp.toNat (s.device.spOf (s.sp - 1)).toNat
      (s.device.spOf (s.sp - 2)).toNat (ret.extractLsb' 0 8) (ret.extractLsb' 8 8)
      (ret.extractLsb' 16 8)).setSp (s.sp - 3)) := by
  simp only [State.pushReturn, State.dataWrite, first, second, third]
  rfl

/-- SP, SP - 1 and SP - 2 differ, since they do modulo 256. -/
theorem Device.stack_addresses_differ (d : Device) (v : Word) :
    v.toNat ≠ (d.spOf (v - 1)).toNat ∧ v.toNat ≠ (d.spOf (v - 2)).toNat ∧
      (d.spOf (v - 1)).toNat ≠ (d.spOf (v - 2)).toNat := by
  have one := Device.spOf_toNat d (v - 1)
  have two := Device.spOf_toNat d (v - 2)
  cases hs : d.spBits <;> simp only [hs] at one two <;> rw [one, two] <;> bv_omega

/-- A 24-bit value is the sum of its three bytes. -/
theorem toNat_three_bytes (r : BitVec 24) :
    (r.extractLsb' 0 8).toNat + (r.extractLsb' 8 8).toNat * 0x100 + (r.extractLsb' 16 8).toNat * 0x10000 =
      r.toNat := by
  have := r.isLt
  simp only [BitVec.extractLsb'_toNat, Nat.shiftRight_eq_div_pow]
  omega

/-- Settles O51: in SRAM the three writes are computed; elsewhere each is what a data write can do. -/
theorem eicallPushesAndJumps : Obligations.EicallPushesAndJumps := by
  refine ⟨?sram, ?general⟩
  case sram =>
    rintro s a b c bits present rfl rfl rfl first second third
    have exec_eq := exec_eicall bits present
    rw [State.pushReturn_sram _ first second third] at exec_eq
    obtain ⟨hab, hac, hbc⟩ := Device.stack_addresses_differ s.device s.sp
    refine ⟨_, exec_eq, s.extendedTarget_toNat, rfl, ?_, ?_⟩
    · obtain ⟨ha, hb, hc⟩ := s.sramWritten_sramByte (BitVec.extractLsb' 0 8 _) (BitVec.extractLsb' 8 8 _)
        (BitVec.extractLsb' 16 8 _) hab hac hbc
      refine (congrArg₂ (· + ·) (congrArg₂ (· + ·) (congrArg BitVec.toNat ha)
        (congrArg (BitVec.toNat · * 0x100) hb)) (congrArg (BitVec.toNat · * 0x10000) hc)).trans ?_
      rw [toNat_three_bytes, BitVec.toNat_ofNat]
      omega
    · exact (((s.sameBut_refl _).tail (s.sramWritten_sameBut ..) (by simp [Set.insert_subset_iff])).tail
        (State.setSp_sameBut _ _) (by simp)).tail (State.setPc_sameBut _ _) (by simp)
  case general =>
    intro s ret bits present hret stored
    obtain ⟨u, v, w, done, hu, hv, hw⟩ := exec_eicall_of_present bits present hret stored
    obtain ⟨x, hx, ux, fx⟩ := State.dataWrite_frame hu
    obtain ⟨y, hy, vy, fy⟩ := State.dataWrite_frame hv
    obtain ⟨z, hz, wz, fz⟩ := State.dataWrite_frame hw
    have du := (State.dataWrite_keeps hu).1
    have dv := (State.dataWrite_keeps hv).1.trans du
    have dw := (State.dataWrite_keeps hw).1.trans dv
    rw [State.storePiece_congr du, du] at hy
    rw [du] at vy
    rw [State.storePiece_congr dv, dv] at hz
    rw [dv] at wz
    refine ⟨x, y, z, u, v, w, _, done, ⟨hx, ux, fx⟩, ⟨hy, vy, fy⟩, ⟨hz, wz, fz⟩, ?_, w.extendedTarget_toNat,
      ?_⟩
    · exact congrArg (Device.spOf · _) dw
    · exact ((w.sameBut_refl _).tail (w.setSp_sameBut _) (by simp)).tail (State.setPc_sameBut _ _) (by simp)

end Sys2Proof.Machine
end

section
/-! PROOFS. The multiplies and MOVW (47_multiply_movw.md): the result, C and Z of each, and what Z and C tell of
the operands (R247). -/

namespace Sys2Proof.Machine

/-! ### What a multiply writes -/

/-- What an instruction does that is the shared write of the multiplies on a device that has them. -/
theorem multiplies_of_multiplyWrite {i : Instr} {s : State} {prod res : Word}
    (h : exec i s = .next (multiplyWrite prod res s)) : multiplies i s prod res := by
  refine ⟨_, h, ?_, ?_, ?_, ?_, fun f hc hz => ?_, rfl, ?_⟩
  · exact (s.setPair_reg 0 res 1).trans (by simp)
  · exact (s.setPair_reg 0 res 0).trans (by simp)
  · simp [multiplyWrite_flag]
  · simp [multiplyWrite_flag]
  · simp [multiplyWrite_flag, hc, hz]
  · have sreg : (s.setPair 0 res).sameBut
        { s.setPair 0 res with sreg := multiplyFlags s.sreg prod res } {.sreg} := by
      refine ⟨rfl, fun p hp => ?_⟩
      cases p with
      | sreg => exact absurd rfl hp
      | _ => exact rfl
    exact (((s.sameBut_refl _).tail (s.setPair_sameBut 0 res) (by simp [Set.insert_subset_iff])).tail sreg
      (by simp)).tail (State.advance_sameBut _ 1) (by simp)

/-- Settles O53: the result of an integer multiply is its product. -/
theorem integerMultipliesWriteTheProduct : Obligations.IntegerMultipliesWriteTheProduct :=
  fun _ _ _ present => ⟨multiplies_of_multiplyWrite (ifPresent_of_present _ present),
    multiplies_of_multiplyWrite (ifPresent_of_present _ present)⟩

theorem ofInt_shiftLeft_one (x : Int) : BitVec.ofInt 16 x <<< 1 = BitVec.ofInt 16 (2 * x) := by
  rw [BitVec.ofInt_mul, BitVec.shiftLeft_eq_mul_twoPow, BitVec.mul_comm]
  rfl

theorem ofNat_shiftLeft_one (x : Nat) : BitVec.ofNat 16 x <<< 1 = BitVec.ofNat 16 (2 * x) := by
  rw [BitVec.ofNat_mul, BitVec.shiftLeft_eq_mul_twoPow, BitVec.mul_comm]
  rfl

/-- Settles O54: the result of a fractional multiply is its product shifted, which doubles it. -/
theorem fractionalMultipliesWriteTheShiftedProduct :
    Obligations.FractionalMultipliesWriteTheShiftedProduct := by
  intro d r s present
  rw [← ofNat_shiftLeft_one, ← ofInt_shiftLeft_one, ← ofInt_shiftLeft_one]
  exact ⟨multiplies_of_multiplyWrite (ifPresent_of_present _ present),
    multiplies_of_multiplyWrite (ifPresent_of_present _ present),
    multiplies_of_multiplyWrite (ifPresent_of_present _ present)⟩

/-! ### What Z and C tell of the operands -/

theorem toInt_bounds (a : Byte) : -128 ≤ a.toInt ∧ a.toInt < 128 :=
  ⟨BitVec.le_toInt a, BitVec.toInt_lt⟩

/-- A number between -2^16 and 2^16 is 0 as a word where it is 0. -/
theorem ofInt_eq_zero {x : Int} (lower : -0x10000 < x) (upper : x < 0x10000) :
    BitVec.ofInt 16 x = 0 ↔ x = 0 := by
  constructor
  · intro h
    have low : (BitVec.ofInt 16 x).toNat = 0 := congrArg BitVec.toNat h
    rw [BitVec.toNat_ofInt] at low
    omega
  · rintro rfl
    rfl

theorem toInt_eq_zero {a : Byte} : a.toInt = 0 ↔ a = 0 := by
  rw [← BitVec.toInt_inj]; rfl

theorem toNat_eq_zero {a : Byte} : a.toNat = 0 ↔ a = 0 := by
  rw [← BitVec.toNat_inj]; rfl

theorem productSigned_bounds (a b : Byte) :
    -0x4000 ≤ a.toInt * b.toInt ∧ a.toInt * b.toInt ≤ 0x4000 := by
  obtain ⟨la, ua⟩ := toInt_bounds a
  obtain ⟨lb, ub⟩ := toInt_bounds b
  constructor <;> nlinarith

theorem productSignedUnsigned_bounds (a b : Byte) :
    -0x8000 < a.toInt * (b.toNat : Int) ∧ a.toInt * (b.toNat : Int) < 0x8000 := by
  obtain ⟨la, ua⟩ := toInt_bounds a
  have lb : (0 : Int) ≤ b.toNat := by omega
  have ub : (b.toNat : Int) ≤ 255 := by have := b.isLt; omega
  constructor <;> nlinarith

/-- The signed product is zero for a zero operand alone, and the shift loses no other product. -/
theorem productSigned_eq_zero (a b : Byte) :
    (productSigned a b = 0 ↔ a = 0 ∨ b = 0) ∧ (productSigned a b <<< 1 = 0 ↔ a = 0 ∨ b = 0) := by
  obtain ⟨lower, upper⟩ := productSigned_bounds a b
  rw [productSigned, ofInt_shiftLeft_one, ofInt_eq_zero (by omega) (by omega),
    ofInt_eq_zero (by omega) (by omega)]
  simp [toInt_eq_zero]

theorem productSignedUnsigned_eq_zero (a b : Byte) :
    (productSignedUnsigned a b = 0 ↔ a = 0 ∨ b = 0) ∧
      (productSignedUnsigned a b <<< 1 = 0 ↔ a = 0 ∨ b = 0) := by
  obtain ⟨lower, upper⟩ := productSignedUnsigned_bounds a b
  rw [productSignedUnsigned, ofInt_shiftLeft_one, ofInt_eq_zero (by omega) (by omega),
    ofInt_eq_zero (by omega) (by omega)]
  simp [toInt_eq_zero, toNat_eq_zero]

/-- A byte that divides 2^15 is at most 2^7. -/
theorem byte_le_of_dvd {n : Nat} (lt : n < 256) (h : n ∣ 2 ^ 15) : n ≤ 128 := by
  obtain ⟨k, -, rfl⟩ := (Nat.dvd_prime_pow Nat.prime_two).mp h
  have hk : k < 8 := (Nat.pow_lt_pow_iff_right (by decide : 1 < 2)).mp (show 2 ^ k < 2 ^ 8 from lt)
  exact Nat.pow_le_pow_right (by decide : 0 < 2) (show k ≤ 7 by omega)

/-- No two bytes have the product 2^15, the one product that the shift would lose. -/
theorem mul_ne_two_pow_15 {m n : Nat} (hm : m < 256) (hn : n < 256) : m * n ≠ 2 ^ 15 := by
  intro h
  have left := byte_le_of_dvd hm ⟨n, h.symm⟩
  have right := byte_le_of_dvd hn ⟨m, by rw [← h, Nat.mul_comm]⟩
  have := Nat.mul_le_mul left right
  omega

theorem productUnsigned_shift_eq_zero (a b : Byte) :
    productUnsigned a b <<< 1 = 0 ↔ a = 0 ∨ b = 0 := by
  have bound : a.toNat * b.toNat ≤ 255 * 255 :=
    Nat.mul_le_mul (Nat.le_of_lt_succ a.isLt) (Nat.le_of_lt_succ b.isLt)
  have kept := mul_ne_two_pow_15 a.isLt b.isLt
  have word : BitVec.ofNat 16 (2 * (a.toNat * b.toNat)) = 0 ↔ a.toNat * b.toNat = 0 := by
    rw [← BitVec.toNat_inj, BitVec.toNat_ofNat]
    show _ = 0 ↔ _
    omega
  rw [productUnsigned, ofNat_shiftLeft_one, word, Nat.mul_eq_zero, toNat_eq_zero, toNat_eq_zero]

/-- Bit 15 of a signed product is its sign. -/
theorem productSigned_bit_15 (a b : Byte) :
    (productSigned a b).getLsbD 15 = true ↔ a.toInt * b.toInt < 0 := by
  obtain ⟨lower, upper⟩ := productSigned_bounds a b
  have sign : (productSigned a b).toInt = a.toInt * b.toInt :=
    BitVec.toInt_ofInt_eq_self (by decide) (by omega) (by omega)
  rw [← BitVec.msb_eq_getLsbD_last (productSigned a b), BitVec.msb_eq_toInt, sign, decide_eq_true_iff]

/-- A product is negative where the signs differ and neither operand is zero. -/
theorem mul_toInt_neg_iff (a b : Byte) :
    a.toInt * b.toInt < 0 ↔ a.msb ≠ b.msb ∧ a ≠ 0 ∧ b ≠ 0 := by
  rw [mul_neg_iff, BitVec.msb_eq_toInt, BitVec.msb_eq_toInt, Ne, Ne, Ne, decide_eq_decide,
    ← toInt_eq_zero, ← toInt_eq_zero]
  omega

/-- Settles O56: Z is that of the result, which is zero for a zero operand alone, and C of MULS is the sign of
the product. -/
theorem multiplyFlagsTellOfTheOperands : Obligations.MultiplyFlagsTellOfTheOperands := by
  intro d r s t
  have zero {present : Bool} {prod res : Word}
      (h : ifPresent present (.next (multiplyWrite prod res s)) = .next t)
      (hres : res = 0 ↔ s.reg d = 0 ∨ s.reg r = 0) : t.flag .z = true ↔ s.reg d = 0 ∨ s.reg r = 0 := by
    obtain ⟨hpair, hz, -⟩ := flags_of_ifPresent_multiplyWrite h
    rw [hz, hpair, decide_eq_true_iff, hres]
  refine ⟨?_, fun muls => ?_⟩
  · simp only [List.forall_mem_cons, List.not_mem_nil, false_implies, implies_true, and_true]
    refine ⟨fun muls => ?_, fun mulsu => ?_, fun fmul => ?_, fun fmuls => ?_, fun fmulsu => ?_⟩
    · exact zero muls (productSigned_eq_zero _ _).1
    · exact zero mulsu (productSignedUnsigned_eq_zero _ _).1
    · exact zero fmul (productUnsigned_shift_eq_zero _ _)
    · exact zero fmuls (productSigned_eq_zero _ _).2
    · exact zero fmulsu (productSignedUnsigned_eq_zero _ _).2
  · obtain ⟨-, -, hc⟩ := flags_of_ifPresent_multiplyWrite muls
    rw [hc]
    exact (productSigned_bit_15 _ _).trans (mul_toInt_neg_iff _ _)

/-! ### MOVW -/

/-- The two halves of an even register's pair are two registers. -/
theorem add_one_ne_of_isEven : ∀ d : Reg, d.isEven = true → d + 1 ≠ d := by decide

/-- Settles O57: MOVW writes the two halves of the source pair. -/
theorem movwCopiesThePair : Obligations.MovwCopiesThePair := by
  intro d r s wf present
  have even : d.isEven = true := (Bool.and_eq_true_iff.mp wf).1
  refine ⟨_, ifPresent_of_present _ present, ?_, ?_, rfl,
    State.sameBut_mono (State.sameBut_trans (s.setPair_sameBut d (s.pair r)) (State.advance_sameBut _ 1))
      (by simp [Set.insert_subset_iff])⟩
  · rw [State.advance_reg, State.setPair_reg, if_neg (add_one_ne_of_isEven d even), if_pos rfl]
    exact hiByte_joinBytes _ _
  · rw [State.advance_reg, State.setPair_reg, if_pos rfl]
    exact loByte_joinBytes _ _

/-! ### Reset -/

theorem Device.full_valid : Device.full.Valid := by
  simp [Device.Valid, Device.full, Device.dataSpan, Device.ioAddrs, SpmSource.described]

/-- Settles O60: the device of reset agrees with itself, and the memories list nothing. -/
theorem resetMeetsTheInvariant : Obligations.ResetMeetsTheInvariant := by
  refine ⟨⟨Device.full_valid, by decide, rfl, .nil, ?_, .nil, ?_, .nil, ?_⟩, rfl, rfl, rfl, rfl, rfl⟩
  · exact fun c hc => by cases hc
  · exact fun c hc => by cases hc
  · exact fun p _ c hc => by cases hc

end Sys2Proof.Machine
end
